-- ==== Sys2Proof/Word.lean ====
section
/-! DEFINITION. The two widths the HCC moves: the 32-bit register-port word and command word (R23, R80), and the
8-bit buffer byte (R63). Everything is unsigned (R7). -/

namespace Sys2Proof

/-- A register-port word, a table word or a command word: 32 bits, bit 31 the most significant (R7, R23). -/
abbrev Word := BitVec 32

/-- A byte of IBUF or OBUF, or a symbol of the alphabet (R6 ALPHABET, R63). -/
abbrev Byte := BitVec 8

end Sys2Proof
end

