-- ==== Sys2Proof/Syntax.lean ====
section
/-! DEFINITION. The 18 commands of the HCC (R84, opcode_table.json), one constructor per row. -/

namespace Sys2Proof

/-- A command. `wbit` and `wbyte` carry the IMM8 field of the command word (R81, R82); no other command has an
operand in its word (R83). -/
inductive Instr where
  | nop | clear
  | wbit (imm8 : Byte) | wbyte (imm8 : Byte) | wint | flush
  | rbit | rbyte | rint
  | tabulate | build | derive | serialize | encode
  | deserialize | decode
  | compress | expand
  deriving DecidableEq, Repr

end Sys2Proof
end

