-- ==== Sys2Proof/WellFormed.lean ====
section
/-! DEFINITION. Which command terms have a legal command word (R82, R86). -/

namespace Sys2Proof

/-- R82: WBIT uses IMM8[0] only and IMM8[7:1] must be 0; WBYTE uses all of IMM8. -/
def Instr.wellFormed : Instr → Bool
  | .wbit imm8 => imm8.extractLsb' 1 7 == 0
  | .wbyte _ => true
  | .nop | .clear | .wint | .flush | .rbit | .rbyte | .rint | .tabulate | .build | .derive | .serialize | .encode
  | .deserialize | .decode | .compress | .expand => true

end Sys2Proof
end

