-- ==== Sys2Proof/Decode.lean ====
section
/-! DEFINITION. Decoding of a command word (R81, R84, R85), total on every word and rejecting by name (R86), the encoder
written from the same table, and the bit-field helpers the rest of the model uses. -/

namespace Sys2Proof

/-- Bit i of x becomes b: the assignment `x[i] <- b` of the pseudocode (R7, R9). -/
def setBit {n : Nat} (x : BitVec n) (i : Nat) (b : Bool) : BitVec n :=
  if b then x ||| (1#n <<< i) else x &&& ~~~(1#n <<< i)

/-- The bit sequence v[n-1], ..., v[0] of an n-bit field (R8 "MSB-first", R65). -/
def msbBits {n : Nat} (v : BitVec n) : List Bool :=
  (List.range n).map fun k => v.getMsbD k

/-- R81: OP is bits 31:24. -/
def opField (w : Word) : Byte := w.extractLsb' 24 8

/-- R81: RSV is bits 23:8. -/
def rsvField (w : Word) : BitVec 16 := w.extractLsb' 8 16

/-- R81: IMM8 is bits 7:0. -/
def imm8Field (w : Word) : Byte := w.extractLsb' 0 8

/-- R84: the opcode map. The 238 other values of OP are unassigned. -/
def ofOpcode (op imm8 : Byte) : Option Instr :=
  match op.toNat with
  | 0x00 => some .nop
  | 0x01 => some .clear
  | 0x10 => some (.wbit imm8)
  | 0x11 => some (.wbyte imm8)
  | 0x12 => some .wint
  | 0x13 => some .flush
  | 0x18 => some .rbit
  | 0x19 => some .rbyte
  | 0x1A => some .rint
  | 0x20 => some .tabulate
  | 0x21 => some .build
  | 0x22 => some .derive
  | 0x23 => some .serialize
  | 0x24 => some .encode
  | 0x28 => some .deserialize
  | 0x29 => some .decode
  | 0x30 => some .compress
  | 0x31 => some .expand
  | _ => none

/-- R82: the bits of IMM8 a command uses; the others must be 0. -/
def immUsed : Instr → Byte
  | .wbit _ => 0x01
  | .wbyte _ => 0xFF
  | .nop | .clear | .wint | .flush | .rbit | .rbyte | .rint | .tabulate | .build | .derive | .serialize | .encode
  | .deserialize | .decode | .compress | .expand => 0x00

/-- Why a word is no command (R85, R202 ILLEGAL_CMD). -/
inductive IllegalCause where
  /-- OP is none of the 18 assigned values: sub-cause 0. -/
  | unassignedOpcode
  /-- RSV (bits 23:8) is not zero: sub-cause 1. -/
  | reservedBits
  /-- An IMM8 bit is set that the command does not use: sub-cause 2. -/
  | unusedImmediate
  deriving DecidableEq, Repr

/-- R202: the ERRSUB of each cause. -/
def illegalSub : IllegalCause → BitVec 4
  | .unassignedOpcode => 0
  | .reservedBits => 1
  | .unusedImmediate => 2

/-- What a word decodes to. -/
inductive Decoded where
  | command (i : Instr)
  | illegal (c : IllegalCause)
  deriving DecidableEq, Repr

/-- R85: the checks in the order written: the opcode, then RSV, then the unused bits of IMM8. -/
def decode (w : Word) : Decoded :=
  match ofOpcode (opField w) (imm8Field w) with
  | none => .illegal .unassignedOpcode
  | some i =>
    if rsvField w ≠ 0 then .illegal .reservedBits
    else if imm8Field w &&& ~~~immUsed i ≠ 0 then .illegal .unusedImmediate
    else .command i

/-- R84: OP of each command. -/
def opcode : Instr → Byte
  | .nop => 0x00
  | .clear => 0x01
  | .wbit _ => 0x10
  | .wbyte _ => 0x11
  | .wint => 0x12
  | .flush => 0x13
  | .rbit => 0x18
  | .rbyte => 0x19
  | .rint => 0x1A
  | .tabulate => 0x20
  | .build => 0x21
  | .derive => 0x22
  | .serialize => 0x23
  | .encode => 0x24
  | .deserialize => 0x28
  | .decode => 0x29
  | .compress => 0x30
  | .expand => 0x31

/-- R82: IMM8 of each command. -/
def imm8Of : Instr → Byte
  | .wbit imm8 => imm8
  | .wbyte imm8 => imm8
  | .nop | .clear | .wint | .flush | .rbit | .rbyte | .rint | .tabulate | .build | .derive | .serialize | .encode
  | .deserialize | .decode | .compress | .expand => 0x00

/-- R81: the command word, OP then sixteen zero bits then IMM8. -/
def encode (i : Instr) : Word := opcode i ++ 0#16 ++ imm8Of i

/-- The command the decoder reads from an opcode-table row's word of `nbits` bits. A command is one 32-bit word
(R80); every bit above `nbits` is 0. -/
def decodeTableWord (nbits w : Nat) : Option Instr :=
  match decode (BitVec.ofNat 32 (w % 2 ^ nbits)) with
  | .command i => some i
  | .illegal _ => none

end Sys2Proof
end

