-- ==== Sys2Proof/Config.lean ====
section
/-! DEFINITION. What one instance fixes (R6) and the values the spec leaves unspecified (93_implementation_defined.md
section 2). An unspecified value is an opaque constant with no body, so that no proof can know it. -/

namespace Sys2Proof

/-- R6, R40: the constant the ID register reads. -/
def Config.idValue : Word := 0x48554631

/-- R6 MAX_NODES: entries of the node store. -/
abbrev Config.maxNodes : Nat := 511

/-- R51: the traversals of the trie are never deeper than MAX_CODE_LEN + 1 nodes. -/
def Config.maxDepth : Nat := 256

/-- R173: a trie over 256 byte values has at most MAX_INTERNAL internal nodes. -/
def Config.maxInternal : Nat := 255

/-- IBUF_BYTES of the instance that `State.reset` describes. DESIGN CHOICE (log 1), unsafe only for a claim about
`State.reset` itself: R6 leaves it OPEN, the capacity is a field of State, and every other claim is for every capacity.
4096 is the value the spec's own vectors start from (95_test_vectors.md section 0). -/
def Config.capIn : Word := 4096

/-- OBUF_BYTES of the instance that `State.reset` describes. DESIGN CHOICE (log 1), as `Config.capIn`. -/
def Config.capOut : Word := 4096

/-- FREQ[s] after the reset with number n: unspecified, one draw per word (R233). -/
opaque Config.resetFreq (n s : Nat) : Word

/-- Bits [8:0] of CODE_LEN[s] after the reset with number n: unspecified (R233); the other bits read 0 (R43). -/
opaque Config.resetCodeLen (n s : Nat) : BitVec 9

/-- CODE_BITS[s][k] after the reset with number n: unspecified (R233). -/
opaque Config.resetCodeBits (n s k : Nat) : Word

/-- Word 0 of NODE[i] after the reset with number n: unspecified (R233); its bits [30:26] read 0 (R44). -/
opaque Config.resetNodeW0 (n i : Nat) : Word

/-- Word 1 of NODE[i] after the reset with number n: unspecified (R233). -/
opaque Config.resetNodeW1 (n i : Nat) : Word

/-- IBUF[a] after the reset with number n, until it is written: unspecified (R234). -/
opaque Config.resetIbuf (n a : Nat) : Byte

/-- OBUF[a] after the reset with number n, until it is written: unspecified (R234). -/
opaque Config.resetObuf (n a : Nat) : Byte

/-- The value of the k-th unspecified HOST read, a register or table word read while BUSY = 1 (R75). -/
opaque Config.busyWord (k : Nat) : Word

/-- The value of the k-th unspecified HOST read, a buffer byte read while BUSY = 1 (R75). -/
opaque Config.busyByte (k : Nat) : Byte

/-- What a HOST program's test sees before the program has read anything (R88 names "the last read result" only). -/
opaque Config.unreadWord : Word

end Sys2Proof
end

