-- ==== Sys2Proof/Machine/State.lean ====
section
/-! DEFINITION. Everything the spec gives the machine to hold (10_state.md), the reasons a step can stop, and the
machine after reset (R53). -/

namespace Sys2Proof.Machine

/-- R201: the error codes. Codes 8 to 255 are never raised and have no constructor. -/
inductive ErrCode where
  | noError | underflow | corruptTrie | emptyInput | illegalCmd | notReady | outputOverflow | noCode
  deriving DecidableEq, Repr

/-- R43: one CODE_LEN word; its other bits read 0. -/
structure CodeLen where
  present : Bool
  len : BitVec 8
  deriving DecidableEq, Repr

/-- R44: one entry of the node store; word 0 holds all but `freq`, which is word 1. -/
structure Node where
  leaf : Bool
  left : BitVec 9
  right : BitVec 9
  sym : Byte
  freq : Word
  deriving DecidableEq, Repr

/-- A buffer's contents: the bytes written since reset, addresses strictly rising. An unlisted address holds no byte
of its own: it reads as the unspecified draw of the last reset (R234; log 3). -/
abbrev Memory := List Host.Cell

/-- R23, R61, R62: one access of the HOST to one of the three ports. Buffer addresses are plain numbers: an address at
or past the capacity is a legal access with the effect R70 gives. -/
inductive HostAccess where
  | regRead (off : BitVec 16)
  | regWrite (off : BitVec 16) (v : Word)
  | ibufRead (a : Nat)
  | ibufWrite (a : Nat) (b : Byte)
  | obufRead (a : Nat)
  | obufWrite (a : Nat) (b : Byte)
  deriving DecidableEq, Repr

/-- Whose step comes next (R20, R230): an access of the HOST, the ENGINE's turn, or the reset input. -/
inductive Event where
  | host (a : HostAccess)
  | engine
  | reset
  deriving DecidableEq, Repr

/-- What a port gave the HOST for its last read: a register-port word or a buffer byte (R63). -/
inductive PortData where
  | word (v : Word)
  | byte (b : Byte)
  deriving DecidableEq, Repr

/-- The state of one HCC with its HOST's moves. SEQ is not stored beside PENDING: SEQ is BUSY exactly when a command
is pending (R21; log 2). PQ and the traversal stacks exist only inside a step and are empty between steps (R50, R51;
log 6). ID, CAP_IN and CAP_OUT are constants read through the register port (R40, R41). -/
structure State where
  /-- IBUF_BYTES, fixed for the instance, read as CAP_IN (R6, R41). -/
  capIn : Word
  /-- OBUF_BYTES, fixed for the instance, read as CAP_OUT (R6, R41). -/
  capOut : Word
  /-- PENDING (R21, R52). -/
  pending : Option Word
  /-- LAST_CMD, what CMD reads (R25, R52). -/
  lastCmd : Word
  /-- STATUS.DONE (R26). -/
  done : Bool
  /-- STATUS.ERR (R26). -/
  err : Bool
  /-- STATUS.FREQ_VALID (R26, R48). -/
  freqValid : Bool
  /-- STATUS.TRIE_VALID (R26, R48). -/
  trieValid : Bool
  /-- STATUS.CODES_VALID (R26, R48). -/
  codesValid : Bool
  /-- STATUS.HAZ (R26, R209). -/
  haz : Bool
  /-- STATUS.ERRCODE (R26, R201). -/
  errCode : ErrCode
  /-- STATUS.ERRSUB (R26, R202). -/
  errSub : BitVec 4
  /-- CTRL.EMPTY_MODE (R28). -/
  emptyMode : Bool
  /-- CTRL.IE_DONE (R28). -/
  ieDone : Bool
  /-- CTRL.IE_ERR (R28). -/
  ieErr : Bool
  /-- CTRL.IE_HAZ (R28). -/
  ieHaz : Bool
  /-- ARG (R29). -/
  arg : Word
  /-- RESULT (R30). -/
  result : Word
  /-- ERRINFO (R31). -/
  errInfo : Word
  /-- IN_LEN (R32). -/
  inLen : Word
  /-- OUT_LEN (R33). -/
  outLen : Word
  /-- RPOS_BYTE (R34). -/
  rposByte : Word
  /-- RPOS_BIT (R34). -/
  rposBit : BitVec 3
  /-- WSTATE.WACC (R35). -/
  wacc : Byte
  /-- WSTATE.WCNT (R35). -/
  wcnt : BitVec 3
  /-- TRIEINFO.ROOT (R36). -/
  root : BitVec 9
  /-- TRIEINFO.NNODES (R36). -/
  nnodes : BitVec 10
  /-- NLEAVES (R37). -/
  nleaves : BitVec 9
  /-- DLEN (R38). -/
  dlen : Word
  /-- DCOUNT (R39). -/
  dcount : Word
  /-- FREQ[0..255] (R42). -/
  freq : Vector Word 256
  /-- CODE_LEN[0..255] (R43). -/
  codeLen : Vector CodeLen 256
  /-- CODE_BITS[0..255][0..7] (R45). -/
  codeBits : Vector (Vector Word 8) 256
  /-- NODE[0..510] (R44). -/
  node : Vector Node Config.maxNodes
  /-- IBUF (R49, R61). -/
  ibuf : Memory
  /-- OBUF (R49, R62). -/
  obuf : Memory
  /-- The model's own: how many resets came before the last one; it selects their unspecified draws (log 3). -/
  resetCount : Nat
  /-- The model's own: how many unspecified HOST reads have been answered (R75; log 4). -/
  draws : Nat
  /-- The model's own: the moves of the environment still to come, the next one first (log 5). -/
  schedule : List Event
  /-- The model's own: what the HOST's last read returned; none before its first read (log 5). -/
  portData : Option PortData
  deriving DecidableEq, Repr

/-- Why the machine stops (log 8). The hardware never does (93_implementation_defined.md section 2): each reason stands for
a state that breaks `State.Inv` and that no run from reset reaches. Every one is safe: the machine stops where the spec
gives no next state. -/
inductive Fault where
  /-- Raised by IbufRead at an address at or past IBUF_BYTES, which does not exist (R60). Needs IN_LEN > IBUF_BYTES,
  which R32 rules out. Safe. -/
  | noSuchIbufByte
  /-- Raised by a traversal that reads NODE[511], which does not exist (R44). Needs TRIE_VALID = 1 over a store that is
  no trie. Safe. -/
  | noSuchNode
  /-- Raised by DERIVE and SERIALIZE where the walk goes deeper than 256 nodes, which R51 says no trie does. Needs
  TRIE_VALID = 1 over a store that is no trie. Safe. -/
  | trieTooDeep
  deriving DecidableEq, Repr

/-- Why the model gives an instruction no meaning. -/
inductive Refusal where
  /-- Answered by `exec` for an instruction without a meaning; no arm of this model uses it. Safe. -/
  | notModelled (mnemonic : String)
  deriving DecidableEq, Repr

/-- CODE_LEN[s] after reset: any value of its nine bits (R233). -/
def resetCodeLen (n s : Nat) : CodeLen :=
  { present := (Config.resetCodeLen n s).getLsbD 8
    len := (Config.resetCodeLen n s).extractLsb' 0 8 }

/-- NODE[i] after reset: any value of its fields, ill-formed entries included (R233). -/
def resetNode (n i : Nat) : Node :=
  { leaf := (Config.resetNodeW0 n i).getLsbD 31
    left := (Config.resetNodeW0 n i).extractLsb' 17 9
    right := (Config.resetNodeW0 n i).extractLsb' 8 9
    sym := (Config.resetNodeW0 n i).extractLsb' 0 8
    freq := Config.resetNodeW1 n i }

/-- R53: every piece of state after the reset with number n, in an instance with these capacities. The tables and the
buffers are unspecified (R233, R234). -/
def State.afterReset (capIn capOut : Word) (n : Nat) : State :=
  { capIn, capOut
    pending := none
    lastCmd := 0
    done := false, err := false, freqValid := false, trieValid := false, codesValid := false, haz := false
    errCode := .noError, errSub := 0
    emptyMode := false, ieDone := false, ieErr := false, ieHaz := false
    arg := 0, result := 0, errInfo := 0
    inLen := 0, outLen := 0
    rposByte := 0, rposBit := 0
    wacc := 0, wcnt := 0
    root := 0, nnodes := 0, nleaves := 0
    dlen := 0, dcount := 0
    freq := Vector.ofFn fun s => Config.resetFreq n s
    codeLen := Vector.ofFn fun s => resetCodeLen n s
    codeBits := Vector.ofFn fun s => Vector.ofFn fun k => Config.resetCodeBits n s k
    node := Vector.ofFn fun i => resetNode n i
    ibuf := [], obuf := []
    resetCount := n
    draws := 0
    schedule := []
    portData := none }

/-- The machine right after power-on, which is a reset (R230, R53). -/
def State.reset : State := State.afterReset Config.capIn Config.capOut 0

end Sys2Proof.Machine
end

