-- ==== Sys2Proof/Machine/Ops.lean ====
section
/-! DEFINITION. The named operations over the buffers, the packer, the unpacker and the node store (R10, R12, R100 to
R102), and the three shared operations of a command's life: issue (R204), error entry (R205) and completion (R206). -/

namespace Sys2Proof.Machine

/-! ### A buffer's contents -/

/-- The byte written at address a since reset, if any. -/
def Memory.lookup : Memory → Nat → Option Byte
  | [], _ => none
  | (k, v) :: m, a => if k = a then some v else Memory.lookup m a

/-- The buffer with byte b at address a. -/
def Memory.store : Memory → Nat → Byte → Memory
  | [], a, b => [(a, b)]
  | (k, v) :: m, a, b =>
    if a < k then (a, b) :: (k, v) :: m
    else if a = k then (a, b) :: m
    else (k, v) :: Memory.store m a b

/-- The canonical form: addresses strictly rising. An unlisted address holds no byte, so no entry can equal it. -/
abbrev Memory.wf (m : Memory) : Prop := m.Pairwise fun c d => c.1 < d.1

/-- Every listed address lies in a buffer of n bytes (R49). -/
abbrev Memory.below (m : Memory) (n : Nat) : Prop := ∀ c ∈ m, c.1 < n

/-- IBUF[a]: what was written there, or the unspecified draw of the last reset (R61, R234). -/
def State.ibufByte (s : State) (a : Nat) : Byte :=
  (Memory.lookup s.ibuf a).getD (Config.resetIbuf s.resetCount a)

/-- OBUF[a]: what was written there, or the unspecified draw of the last reset (R62, R234). -/
def State.obufByte (s : State) (a : Nat) : Byte :=
  (Memory.lookup s.obuf a).getD (Config.resetObuf s.resetCount a)

/-- `ObufWrite(i, b)` (R10). The packer alone calls it, at OUT_LEN < OBUF_BYTES. -/
def State.obufWrite (s : State) (i : Nat) (b : Byte) : State :=
  { s with obuf := Memory.store s.obuf i b }

/-! ### The life of a command -/

/-- R204: a command word becomes pending. -/
def State.issue (s : State) (v : Word) : State :=
  { s with
    lastCmd := v, pending := some v
    done := false, err := false, errCode := .noError, errSub := 0, errInfo := 0 }

/-- R205: error entry, the HCC's whole exception model (R200). PENDING is used up, so SEQ is IDLE. -/
def State.raiseError (s : State) (e : ErrCode) (sub : BitVec 4) (info : Word) : State :=
  { s with errCode := e, errSub := sub, errInfo := info, err := true, pending := none }

/-- R206: successful completion. PENDING is used up, so SEQ is IDLE. There is no return from an error (R212): the
HOST acknowledges, or issues the next command. -/
def State.complete (s : State) : State :=
  { s with done := true, pending := none }

/-- How a command body can end early: a `raise` of the pseudocode (R11), or a stop of the model. -/
inductive Raise where
  | error (e : ErrCode) (sub : BitVec 4) (info : Word)
  | stop (f : Fault)
  deriving DecidableEq, Repr

/-- The ENGINE's pseudocode: statements in order, each write made when it is reached (R9), and a `raise` that keeps
every write made before it (R11, R207). -/
abbrev Engine := EStateM Raise State

/-- `raise E(sub, info)` (R11). -/
def raise {α : Type} (e : ErrCode) (sub : BitVec 4) (info : Word) : Engine α := throw (.error e sub info)

/-- The model stops for a reason that no run from reset meets. -/
def stop {α : Type} (f : Fault) : Engine α := throw (.stop f)

/-- R20, R205, R206: a command's body as the ENGINE's one step. -/
def runCommand (body : Engine Unit) (s : State) : Host.Outcome State Fault Refusal :=
  match body.run s with
  | .ok _ t => .next t.complete
  | .error (.error e sub info) t => .next (t.raiseError e sub info)
  | .error (.stop f) _ => .fault f

/-- R85, R202, R203: an illegal word. ERRINFO is the whole word. -/
def State.raiseIllegal (s : State) (c : IllegalCause) (w : Word) : State :=
  s.raiseError .illegalCmd (illegalSub c) w

/-- R230: a reset of a running instance. The capacities stay (R232), the tables and buffers are drawn afresh, and the
HOST's own side (its moves to come, what it last read) is no state of the HCC. -/
def State.hardReset (s : State) : State :=
  { State.afterReset s.capIn s.capOut (s.resetCount + 1) with
    draws := s.draws, schedule := s.schedule, portData := s.portData }

/-! ### The unpacker -/

/-- R34: RPOS = 8 * RPOS_BYTE + RPOS_BIT. -/
def State.rpos (s : State) : Nat := 8 * s.rposByte.toNat + s.rposBit.toNat

/-- R34: `RPOS <- p`. -/
def State.setRpos (s : State) (p : Nat) : State :=
  { s with rposByte := BitVec.ofNat 32 (p / 8), rposBit := BitVec.ofNat 3 (p % 8) }

/-- R64: stream bit p of IBUF is bit 7 - (p mod 8) of byte IBUF[p div 8]. -/
def State.streamBit (s : State) (p : Nat) : Bool := (s.ibufByte (p / 8)).getLsbD (7 - p % 8)

/-- R100: n more bits lie within the IN_LEN valid bytes. -/
abbrev State.hasBits (s : State) (n : Nat) : Prop := s.rpos + n ≤ 8 * s.inLen.toNat

/-- `IbufRead(i)` (R10). -/
def ibufRead (i : Nat) : Engine Byte := do
  let s ← get
  if i < s.capIn.toNat then pure (s.ibufByte i) else stop .noSuchIbufByte

/-- One pass of the loop of `ReadBits`: the bit at RPOS, and RPOS moves past it (R100, R64). -/
def nextBit : Engine Bool := do
  let s ← get
  let byte ← ibufRead (s.rpos / 8)
  modify (·.setRpos (s.rpos + 1))
  pure (byte.getLsbD (7 - s.rpos % 8))

/-- The loop of `ReadBits`: v <- 2 * v + bit, k times (R100). -/
def readLoop : Nat → Nat → Engine Nat
  | 0, v => pure v
  | k + 1, v => do
    let b ← nextBit
    readLoop k (2 * v + b.toNat)

/-- `ReadBits(n)` (R100): one test before any bit is consumed. -/
def readBits (n : Nat) : Engine (BitVec n) := do
  let s ← get
  if s.hasBits n then do
    let v ← readLoop n 0
    pure (BitVec.ofNat n v)
  else raise .underflow 0 s.rposByte

/-! ### The packer -/

/-- Stores a byte at OBUF[OUT_LEN] and empties WSTATE (the common part of R101 and R102). -/
def State.emitByte (s : State) (b : Byte) : State :=
  { s.obufWrite s.outLen.toNat b with outLen := s.outLen + 1, wacc := 0, wcnt := 0 }

/-- One pass of the loop of `WriteBits` (R101). -/
def State.pushBit (s : State) (b : Bool) : State :=
  let acc := setBit s.wacc (7 - s.wcnt.toNat) b
  if s.wcnt = 7 then s.emitByte acc else { s with wacc := acc, wcnt := s.wcnt + 1 }

/-- The loop of `WriteBits` over a bit sequence (R101). -/
def State.pushBits (s : State) (bits : List Bool) : State := bits.foldl State.pushBit s

/-- R101: the bytes that n more bits complete fit in OBUF. -/
abbrev State.hasRoom (s : State) (n : Nat) : Prop :=
  s.outLen.toNat + (s.wcnt.toNat + n) / 8 ≤ s.capOut.toNat

/-- `WriteBits(n, v)` (R101): one test before any bit is written. -/
def writeBits {n : Nat} (v : BitVec n) : Engine Unit := do
  let s ← get
  if s.hasRoom n then set (s.pushBits (msbBits v)) else raise .outputOverflow 0 s.outLen

/-- `FlushBits()` (R102). -/
def flushBits : Engine Unit := do
  let s ← get
  if s.wcnt = 0 then pure ()
  else if s.outLen = s.capOut then raise .outputOverflow 0 s.outLen
  else set (s.emitByte s.wacc)

/-- OUT_LEN <- 0; WACC <- 0; WCNT <- 0 (R155, R180, R191). -/
def State.resetPacker (s : State) : State := { s with outLen := 0, wacc := 0, wcnt := 0 }

/-! ### The node store -/

/-- `Leaf(b, f)` (R12). -/
def leafNode (b : Byte) (f : Word) : Node := { leaf := true, left := 0, right := 0, sym := b, freq := f }

/-- `Internal(f, l, r)` (R12). -/
def internalNode (f : Word) (l r : Nat) : Node :=
  { leaf := false, left := BitVec.ofNat 9 l, right := BitVec.ofNat 9 r, sym := 0, freq := f }

/-- `NODE[i]` as a traversal reads it (R44): NODE[511] does not exist. -/
def nodeAt (i : Nat) : Engine Node := do
  let s ← get
  if h : i < Config.maxNodes then pure s.node[i] else stop .noSuchNode

/-- NODE[i] with one part changed (R171). -/
def State.updateNode (s : State) (i : Nat) (f : Node → Node) : State :=
  if h : i < Config.maxNodes then { s with node := s.node.set i (f s.node[i]) } else s

/-- `NODE[i] <- e`. BUILD and DESERIALIZE allocate at most 511 entries (R137, R173), so i is always in range
(log 8). -/
def State.setNode (s : State) (i : Nat) (e : Node) : State := s.updateNode i fun _ => e

/-- `NODE[i].LEFT <- c` (R171). -/
def State.setLeft (s : State) (i c : Nat) : State :=
  s.updateNode i fun e => { e with left := BitVec.ofNat 9 c }

/-- `NODE[i].RIGHT <- c` (R171). -/
def State.setRight (s : State) (i c : Nat) : State :=
  s.updateNode i fun e => { e with right := BitVec.ofNat 9 c }

/-- TRIE_VALID <- 0; CODES_VALID <- 0; TRIEINFO and NLEAVES <- 0: how BUILD and DESERIALIZE start (R132, R170). -/
def State.dropTrie (s : State) : State :=
  { s with trieValid := false, codesValid := false, root := 0, nnodes := 0, nleaves := 0 }

/-- Every FREQ word <- 0 (R130, R160, R191). -/
def State.clearFreq (s : State) : State := { s with freq := Vector.replicate 256 0 }

/-- Every CODE_LEN and CODE_BITS word <- 0 (R140, R191). -/
def State.clearCodes (s : State) : State :=
  { s with
    codeLen := Vector.replicate 256 { present := false, len := 0 }
    codeBits := Vector.replicate 256 (Vector.replicate 8 0) }

/-- Both words of every NODE entry <- 0 (R191). -/
def State.clearNodes (s : State) : State :=
  { s with node := Vector.replicate Config.maxNodes { leaf := false, left := 0, right := 0, sym := 0, freq := 0 } }

end Sys2Proof.Machine
end

