-- ==== Sys2Proof/Machine/Flags.lean ====
section
/-! DEFINITION. STATUS and CTRL as the register port shows them (R26, R28), the write-one-to-clear of STATUS (R27), the
interrupt level (R47), the validity bits and the prerequisite checks on them (R48), and HAZ (R209). The HCC has no other
flag (R54). -/

namespace Sys2Proof.Machine

/-- R201: the ERRCODE of each error. -/
def errCodeByte : ErrCode → Byte
  | .noError => 0
  | .underflow => 1
  | .corruptTrie => 2
  | .emptyInput => 3
  | .illegalCmd => 4
  | .notReady => 5
  | .outputOverflow => 6
  | .noCode => 7

/-- R21: the sequencer's two states. -/
inductive Seq where
  | idle | busy
  deriving DecidableEq, Repr

/-- R21: SEQ is BUSY exactly while a command is pending. -/
def State.seq (s : State) : Seq := if s.pending.isSome then .busy else .idle

/-- R26: STATUS.BUSY is 1 exactly when SEQ = BUSY. -/
abbrev State.busy (s : State) : Bool := s.pending.isSome

/-- R26: the STATUS word, bit 31 first: reserved, ERRSUB, ERRCODE, reserved, HAZ, CODES_VALID, TRIE_VALID, FREQ_VALID,
ERR, DONE, BUSY. -/
def State.statusWord (s : State) : Word :=
  0#12 ++ s.errSub ++ errCodeByte s.errCode ++ 0#1 ++ BitVec.ofBool s.haz ++ BitVec.ofBool s.codesValid
    ++ BitVec.ofBool s.trieValid ++ BitVec.ofBool s.freqValid ++ BitVec.ofBool s.err ++ BitVec.ofBool s.done
    ++ BitVec.ofBool s.busy

/-- R27: a STATUS write clears DONE, ERR and HAZ where the written bit is 1 and nothing else. -/
def State.writeStatus (s : State) (v : Word) : State :=
  { s with
    done := s.done && !v.getLsbD 1
    err := s.err && !v.getLsbD 2
    haz := s.haz && !v.getLsbD 6 }

/-- R28: the CTRL word. -/
def State.ctrlWord (s : State) : Word :=
  0#28 ++ BitVec.ofBool s.ieHaz ++ BitVec.ofBool s.ieErr ++ BitVec.ofBool s.ieDone ++ BitVec.ofBool s.emptyMode

/-- R28: a CTRL write; bits 31:4 are ignored. -/
def State.writeCtrl (s : State) (v : Word) : State :=
  { s with
    emptyMode := v.getLsbD 0, ieDone := v.getLsbD 1, ieErr := v.getLsbD 2, ieHaz := v.getLsbD 3 }

/-- R47, R210: the interrupt output, a level. -/
def State.irq (s : State) : Bool := (s.done && s.ieDone) || (s.err && s.ieErr) || (s.haz && s.ieHaz)

/-- R209: an access is dropped and HAZ set. -/
def State.setHaz (s : State) : State := { s with haz := true }

/-- R132: BUILD needs FREQ_VALID. -/
def needFreq : Engine Unit := do
  let s ← get
  if s.freqValid then pure () else raise .notReady 1 0

/-- R140, R145, R175: DERIVE, SERIALIZE and DECODE need TRIE_VALID. -/
def needTrie : Engine Unit := do
  let s ← get
  if s.trieValid then pure () else raise .notReady 2 0

/-- R150: ENCODE needs CODES_VALID. -/
def needCodes : Engine Unit := do
  let s ← get
  if s.codesValid then pure () else raise .notReady 3 0

end Sys2Proof.Machine
end

