-- ==== Sys2Proof/Machine/Operands.lean ====
section
/-! DEFINITION. The operand forms of the commands (R82, R83): the immediate bit of WBIT, the immediate byte of WBYTE, ARG,
IN_LEN, an input byte's frequency word, code-length word and code (R42, R43, R45, R141), and the result in RESULT (R30). -/

namespace Sys2Proof.Machine

/-- R103: the bit b = IMM8[0]. -/
def wbitOperand (imm8 : Byte) : BitVec 1 := imm8.extractLsb' 0 1

/-- R104: the byte IMM8[7:0]. -/
def wbyteOperand (imm8 : Byte) : Byte := imm8

/-- R29, R83: the operand of WINT and DECODE. -/
def State.argOperand (s : State) : Word := s.arg

/-- R30: RESULT <- zext_32(v). -/
def State.setResult {n : Nat} (s : State) (v : BitVec n) : State := { s with result := v.zeroExtend 32 }

/-- R32: the number of valid input bytes. -/
def State.inputLength (s : State) : Nat := s.inLen.toNat

/-- FREQ[b] (R42). -/
def State.freqOf (s : State) (b : Byte) : Word := s.freq[b.toNat]'b.isLt

/-- FREQ[b] <- v (R42). -/
def State.setFreq (s : State) (b : Byte) (v : Word) : State := { s with freq := s.freq.set b.toNat v b.isLt }

/-- CODE_LEN[b] (R43). -/
def State.codeLenOf (s : State) (b : Byte) : CodeLen := s.codeLen[b.toNat]'b.isLt

/-- CODE_BITS[b] (R45). -/
def State.codeBitsOf (s : State) (b : Byte) : Vector Word 8 := s.codeBits[b.toNat]'b.isLt

/-- Bit j of a code in its eight words: word j div 32, bit 31 - (j mod 32) (R45). A code has at most 255 bits, so the
word always exists. -/
def codeBit (ws : Vector Word 8) (j : Nat) : Bool :=
  if h : j / 32 < 8 then (ws[j / 32]).getLsbD (31 - j % 32) else false

/-- `CODE_BITS[s][j div 32][31 - (j mod 32)] <- b` (R140). -/
def setCodeBit (ws : Vector Word 8) (j : Nat) (b : Bool) : Vector Word 8 :=
  if h : j / 32 < 8 then ws.set (j / 32) (setBit ws[j / 32] (31 - j % 32) b) else ws

/-- `Code(b)` (R141). -/
def State.code (s : State) (b : Byte) : List Bool :=
  (List.range (s.codeLenOf b).len.toNat).map (codeBit (s.codeBitsOf b))

/-- The leaf case of `Visit` (R140): CODE_LEN and CODE_BITS of the leaf's symbol. -/
def State.recordCode (s : State) (b : Byte) (c : List Bool) : State :=
  let ws := c.zipIdx.foldl (fun ws p => setCodeBit ws p.2 p.1) (s.codeBitsOf b)
  { s with
    codeLen := s.codeLen.set b.toNat { present := true, len := BitVec.ofNat 8 c.length } b.isLt
    codeBits := s.codeBits.set b.toNat ws b.isLt }

/-- The byte values 0 to 255 in ascending order, as the table loops take them (R6 ALPHABET). -/
def allBytes : List Byte := (List.range 256).map (BitVec.ofNat 8)

end Sys2Proof.Machine
end

