-- ==== Sys2Proof/Machine/Bitstream.lean ====
section
/-! DEFINITION. The seven bit-stream commands (40_bitstream.md R103 to R109): thin wrappers of the three primitives. -/

namespace Sys2Proof.Machine

/-- R103. -/
def execWbit (imm8 : Byte) (s : State) : Host.Outcome State Fault Refusal :=
  runCommand (writeBits (wbitOperand imm8)) s

/-- R104. -/
def execWbyte (imm8 : Byte) (s : State) : Host.Outcome State Fault Refusal :=
  runCommand (writeBits (wbyteOperand imm8)) s

/-- R105. -/
def execWint (s : State) : Host.Outcome State Fault Refusal :=
  runCommand (writeBits s.argOperand) s

/-- R106. -/
def execFlush (s : State) : Host.Outcome State Fault Refusal :=
  runCommand flushBits s

/-- `RESULT <- zext_32(ReadBits(n))`: RESULT keeps its value where the read raises (R107 to R109). -/
def readToResult (n : Nat) : Engine Unit := do
  let v ← readBits n
  modify (·.setResult v)

/-- R107. -/
def execRbit (s : State) : Host.Outcome State Fault Refusal :=
  runCommand (readToResult 1) s

/-- R108. -/
def execRbyte (s : State) : Host.Outcome State Fault Refusal :=
  runCommand (readToResult 8) s

/-- R109. -/
def execRint (s : State) : Host.Outcome State Fault Refusal :=
  runCommand (readToResult 32) s

end Sys2Proof.Machine
end

