-- ==== Sys2Proof/Machine/Control.lean ====
section
/-! DEFINITION. The control commands (43_control.md): NOP and CLEAR. -/

namespace Sys2Proof.Machine

/-- R190. -/
def execNop (s : State) : Host.Outcome State Fault Refusal :=
  runCommand (pure ()) s

/-- R191. -/
def State.cleared (s : State) : State :=
  { s.clearFreq.clearCodes.clearNodes.dropTrie.resetPacker.setRpos 0 with
    freqValid := false, haz := false, result := 0, dlen := 0, dcount := 0 }

/-- R191. -/
def execClear (s : State) : Host.Outcome State Fault Refusal :=
  runCommand (modify State.cleared) s

end Sys2Proof.Machine
end

