-- ==== Sys2Proof/Machine/Decoder.lean ====
section
/-! DEFINITION. The decoder's commands (42_decoder.md): DESERIALIZE, DECODE and EXPAND. -/

namespace Sys2Proof.Machine

/-! ### DESERIALIZE -/

/-- `TrieRead(n)` (R171, R172): exhaustion inside the trie is CORRUPT_TRIE. -/
def trieRead (n : Nat) : Engine (BitVec n) := do
  let s ← get
  if s.hasBits n then readBits n else raise .corruptTrie 0 s.rposByte

/-- DESERIALIZE's own variables (R170): the internal nodes and the leaf symbols allocated so far. -/
structure Parse where
  ni : Nat
  seen : List Byte
  deriving DecidableEq, Repr

/-- `NODE[NNODES] <- e; NNODES <- NNODES + 1` (R171). -/
def State.allocate (s : State) (e : Node) : State :=
  { s.setNode s.nnodes.toNat e with nnodes := BitVec.ofNat 10 (s.nnodes.toNat + 1) }

/-- The leaf case of R171, after its marker. -/
def readLeaf (p : Parse) : Engine (Nat × Parse) := do
  let b ← trieRead 8
  let s ← get
  if b ∈ p.seen then raise .corruptTrie 2 s.rposByte
  else do
    set { s.allocate (leafNode b 0) with nleaves := s.nleaves + 1 }
    pure (s.nnodes.toNat, { p with seen := b :: p.seen })

/-- `DeserializeNode()` (R171): the index of the node read, and DESERIALIZE's variables after it. The internal-node
limit (R173) keeps the recursion within the depth R51 names. -/
def deserializeNode : Nat → Parse → Engine (Nat × Parse)
  | 0, _ => stop .trieTooDeep
  | fuel + 1, p => do
    let m ← trieRead 1
    if m = 1 then readLeaf p
    else do
      let s ← get
      if p.ni = Config.maxInternal then raise .corruptTrie 1 s.rposByte
      else do
        let i := s.nnodes.toNat
        set (s.allocate (internalNode 0 0 0))
        let (l, p1) ← deserializeNode fuel { p with ni := p.ni + 1 }
        modify (·.setLeft i l)
        let (r, p2) ← deserializeNode fuel p1
        modify (·.setRight i r)
        pure (i, p2)

/-- R170. -/
def deserializeBody : Engine Unit := do
  modify State.dropTrie
  let (root, _) ← deserializeNode Config.maxDepth { ni := 0, seen := [] }
  modify ({ · with root := BitVec.ofNat 9 root, trieValid := true })

/-- R170. -/
def execDeserialize (s : State) : Host.Outcome State Fault Refusal :=
  runCommand deserializeBody s

/-! ### DECODE -/

/-- The loop of `WalkSymbol()` (R176). Every pass but the last takes a bit of the stream. -/
def walk : Nat → Nat → Engine Node
  | 0, _ => stop .trieTooDeep
  | fuel + 1, i => do
    let e ← nodeAt i
    if e.leaf then pure e
    else do
      let bit ← readBits 1
      walk fuel (if bit = 0 then e.left.toNat else e.right.toNat)

/-- `WalkSymbol()` (R176, R177): the leaf reached. One pass more than the stream has bits left is enough, since a pass
that finds no bit raises UNDERFLOW. -/
def walkSymbol : Engine Node := do
  let s ← get
  walk (8 * s.inputLength - s.rpos + 1) s.root.toNat

/-- `DecodeSymbols(N)` (R175). -/
def decodeSymbols : Nat → Engine Unit
  | 0 => pure ()
  | n + 1 => do
    let e ← walkSymbol
    writeBits e.sym
    modify fun s => { s with dcount := s.dcount + 1 }
    decodeSymbols n

/-- R175. -/
def execDecode (s : State) : Host.Outcome State Fault Refusal :=
  runCommand (do
    needTrie
    modify ({ · with dlen := s.argOperand, dcount := 0 })
    decodeSymbols s.argOperand.toNat) s

/-! ### EXPAND -/

/-- R180. -/
def expandBody : Engine Unit := do
  modify (·.setRpos 0)
  modify State.resetPacker
  modify ({ · with dlen := 0, dcount := 0 })
  deserializeBody
  let n ← readBits 32
  modify ({ · with dlen := n })
  decodeSymbols n.toNat

/-- R180. -/
def execExpand (s : State) : Host.Outcome State Fault Refusal :=
  runCommand expandBody s

end Sys2Proof.Machine
end

