-- ==== Sys2Proof/Machine/Encoder.lean ====
section
/-! DEFINITION. The encoder's commands (41_encoder.md): TABULATE, BUILD, DERIVE, SERIALIZE, ENCODE and COMPRESS. A command's
body after its prerequisite check is a definition of its own, because COMPRESS runs the bodies without the checks. -/

namespace Sys2Proof.Machine

/-! ### TABULATE -/

/-- One pass of the counting loop of R130. No counter wraps where IN_LEN <= IBUF_BYTES (R131; log 11). -/
def countByte (i : Nat) : Engine Unit := do
  let b ← ibufRead i
  modify fun s => s.setFreq b (s.freqOf b + 1)

/-- R130. -/
def tabulateBody : Engine Unit := do
  modify State.clearFreq
  let s ← get
  (List.range s.inputLength).forM countByte
  modify ({ · with freqValid := true })

/-- R130. -/
def execTabulate (s : State) : Host.Outcome State Fault Refusal :=
  runCommand tabulateBody s

/-! ### BUILD -/

/-- A member of PQ: a node's index with its frequency, which does not change while BUILD runs (R50, R133). -/
structure Entry where
  freq : Word
  idx : Nat
  deriving DecidableEq, Repr

/-- R133: the lexicographic order of the pair (frequency, node index). -/
def entryBefore (x y : Entry) : Bool :=
  x.freq.toNat < y.freq.toNat || (x.freq == y.freq && x.idx < y.idx)

/-- The first of two entries in the order of R133. -/
def firstEntry (x y : Entry) : Entry := if entryBefore y x then y else x

/-- `PopMin(PQ)` (R133): the least entry and what is left; none where PQ is empty. -/
def popMin : List Entry → Option (Entry × List Entry)
  | [] => none
  | e :: pq =>
    let m := pq.foldl firstEntry e
    some (m, (e :: pq).erase m)

/-- The byte values with a non-zero count, in ascending order: the ones that get a leaf (R134). -/
def State.seeds (s : State) : List Byte := (s.freq.toList.zipIdx.filter fun p => p.1 != 0).map fun p => BitVec.ofNat 8 p.2

/-- One pass of the seeding loop of R132 and R134, for a byte value with a non-zero count. The leaves so far have the
indices 0 to |PQ| - 1, so r = |PQ|. -/
def seedLeaf (pq : List Entry) (b : Byte) : Engine (List Entry) := do
  let s ← get
  set (s.setNode pq.length (leafNode b (s.freqOf b)))
  pure (pq ++ [{ freq := s.freqOf b, idx := pq.length }])

/-- The merging loop of R132 and R135, n the next free index. Each pass takes two entries and puts one back, so as many
passes as PQ has entries are enough. -/
def mergeLoop : Nat → List Entry → Nat → Engine Nat
  | 0, _, n => pure n
  | fuel + 1, pq, n =>
    match popMin pq with
    | none => pure n
    | some (x, pq1) =>
      match popMin pq1 with
      | none => pure n
      | some (y, pq2) => do
        modify (·.setNode n (internalNode (x.freq + y.freq) x.idx y.idx))
        mergeLoop fuel ({ freq := x.freq + y.freq, idx := n } :: pq2) (n + 1)

/-- R132 after its FREQ_VALID check. -/
def buildBody : Engine Unit := do
  modify State.dropTrie
  let s ← get
  let pq ← s.seeds.foldlM seedLeaf []
  if pq.length = 0 then raise .emptyInput 1 0
  else do
    let n ← mergeLoop pq.length pq pq.length
    modify ({ · with
      root := BitVec.ofNat 9 (n - 1), nnodes := BitVec.ofNat 10 n, nleaves := BitVec.ofNat 9 pq.length
      trieValid := true })

/-- R132. -/
def execBuild (s : State) : Host.Outcome State Fault Refusal :=
  runCommand (do needFreq; buildBody) s

/-! ### DERIVE -/

/-- `Visit(i, c)` (R140), to the depth R51 allows. -/
def visit : Nat → Nat → List Bool → Engine Unit
  | 0, _, _ => stop .trieTooDeep
  | fuel + 1, i, c => do
    let e ← nodeAt i
    if e.leaf then modify (·.recordCode e.sym c)
    else do
      visit fuel e.left.toNat (c ++ [false])
      visit fuel e.right.toNat (c ++ [true])

/-- R140 after its TRIE_VALID check. -/
def deriveBody : Engine Unit := do
  modify ({ · with codesValid := false })
  modify State.clearCodes
  let s ← get
  visit Config.maxDepth s.root.toNat []
  modify ({ · with codesValid := true })

/-- R140. -/
def execDerive (s : State) : Host.Outcome State Fault Refusal :=
  runCommand (do needTrie; deriveBody) s

/-! ### SERIALIZE -/

/-- `SerializeNode(i)` (R146), to the depth R51 allows. -/
def serializeNode : Nat → Nat → Engine Unit
  | 0, _ => stop .trieTooDeep
  | fuel + 1, i => do
    let e ← nodeAt i
    if e.leaf then do
      writeBits 1#1
      writeBits e.sym
    else do
      writeBits 0#1
      serializeNode fuel e.left.toNat
      serializeNode fuel e.right.toNat

/-- R145 after its TRIE_VALID check. -/
def serializeBody : Engine Unit := do
  let s ← get
  serializeNode Config.maxDepth s.root.toNat

/-- R145. -/
def execSerialize (s : State) : Host.Outcome State Fault Refusal :=
  runCommand (do needTrie; serializeBody) s

/-! ### ENCODE -/

/-- One pass of the loop of R150: the code of input byte i. -/
def encodeByte (i : Nat) : Engine Unit := do
  let b ← ibufRead i
  let s ← get
  if (s.codeLenOf b).present then (s.code b).forM fun bit => writeBits (BitVec.ofBool bit)
  else raise .noCode 0 (BitVec.ofNat 32 i)

/-- R150 after its CODES_VALID check. -/
def encodeBody : Engine Unit := do
  let s ← get
  (List.range s.inputLength).forM encodeByte

/-- R150. -/
def execEncode (s : State) : Host.Outcome State Fault Refusal :=
  runCommand (do needCodes; encodeBody) s

/-! ### COMPRESS -/

/-- `EmitSentinel()` (R160). -/
def emitSentinel : Engine Unit := do
  modify State.clearFreq
  modify ({ · with freqValid := true, trieValid := false, codesValid := false })
  writeBits 1#1
  writeBits (0x00 : Byte)
  writeBits (0 : Word)
  flushBits

/-- R155. -/
def compressBody : Engine Unit := do
  let s ← get
  if s.inLen = 0 ∧ s.emptyMode then raise .emptyInput 0 0
  else do
    modify State.resetPacker
    if s.inLen = 0 then emitSentinel
    else do
      tabulateBody
      buildBody
      deriveBody
      serializeBody
      writeBits s.inLen
      encodeBody
      flushBits

/-- R155. -/
def execCompress (s : State) : Host.Outcome State Fault Refusal :=
  runCommand compressBody s

end Sys2Proof.Machine
end

