-- ==== Sys2Proof/Machine/Dispatch.lean ====
section
/-! DEFINITION. One arm per command (R85: run the rule of op). -/

namespace Sys2Proof.Machine

def exec (i : Instr) (s : State) : Host.Outcome State Fault Refusal :=
  match i with
  | .nop => Sys2Proof.Machine.execNop s
  | .clear => Sys2Proof.Machine.execClear s
  | .wbit imm8 => Sys2Proof.Machine.execWbit imm8 s
  | .wbyte imm8 => Sys2Proof.Machine.execWbyte imm8 s
  | .wint => Sys2Proof.Machine.execWint s
  | .flush => Sys2Proof.Machine.execFlush s
  | .rbit => Sys2Proof.Machine.execRbit s
  | .rbyte => Sys2Proof.Machine.execRbyte s
  | .rint => Sys2Proof.Machine.execRint s
  | .tabulate => Sys2Proof.Machine.execTabulate s
  | .build => Sys2Proof.Machine.execBuild s
  | .derive => Sys2Proof.Machine.execDerive s
  | .serialize => Sys2Proof.Machine.execSerialize s
  | .encode => Sys2Proof.Machine.execEncode s
  | .deserialize => Sys2Proof.Machine.execDeserialize s
  | .decode => Sys2Proof.Machine.execDecode s
  | .compress => Sys2Proof.Machine.execCompress s
  | .expand => Sys2Proof.Machine.execExpand s

end Sys2Proof.Machine
end

