-- ==== Sys2Proof/Machine/Port.lean ====
section
/-! DEFINITION. The HOST's three ports (R23, R24, R60 to R63, R69 to R71, R75): the register map, and what every read and
write of the HOST does. -/

namespace Sys2Proof.Machine

/-- R24: the named registers. -/
inductive Reg where
  | cmd | status | ctrl | arg | result | errInfo | inLen | outLen | rposByte | rposBit | wstate | trieInfo | nleaves
  | dlen | dcount | id | capIn | capOut
  deriving DecidableEq, Repr

/-- R24: what a mapped offset names: a register or a word of one of the four table windows. -/
inductive Target where
  | reg (r : Reg)
  | freq (s : Fin 256)
  | codeLen (s : Fin 256)
  | nodeW0 (i : Fin Config.maxNodes)
  | nodeW1 (i : Fin Config.maxNodes)
  | codeBits (s : Fin 256) (k : Fin 8)
  deriving DecidableEq, Repr

/-- R24: the offset of each register. -/
def regOffset : Reg → Nat
  | .cmd => 0x000
  | .status => 0x004
  | .ctrl => 0x008
  | .arg => 0x00C
  | .result => 0x010
  | .errInfo => 0x014
  | .inLen => 0x018
  | .outLen => 0x01C
  | .rposByte => 0x020
  | .rposBit => 0x024
  | .wstate => 0x028
  | .trieInfo => 0x02C
  | .nleaves => 0x030
  | .dlen => 0x034
  | .dcount => 0x038
  | .id => 0x03C
  | .capIn => 0x040
  | .capOut => 0x044

/-- R24, R42 to R45: the offset of every mapped word. -/
def targetOffset : Target → Nat
  | .reg r => regOffset r
  | .freq s => 0x400 + 4 * s.val
  | .codeLen s => 0x800 + 4 * s.val
  | .nodeW0 i => 0x1000 + 8 * i.val
  | .nodeW1 i => 0x1000 + 8 * i.val + 4
  | .codeBits s k => 0x2000 + 32 * s.val + 4 * k.val

/-- R24: the register at an aligned offset below 0x400. -/
def regAt (n : Nat) : Option Reg :=
  match n with
  | 0x000 => some .cmd
  | 0x004 => some .status
  | 0x008 => some .ctrl
  | 0x00C => some .arg
  | 0x010 => some .result
  | 0x014 => some .errInfo
  | 0x018 => some .inLen
  | 0x01C => some .outLen
  | 0x020 => some .rposByte
  | 0x024 => some .rposBit
  | 0x028 => some .wstate
  | 0x02C => some .trieInfo
  | 0x030 => some .nleaves
  | 0x034 => some .dlen
  | 0x038 => some .dcount
  | 0x03C => some .id
  | 0x040 => some .capIn
  | 0x044 => some .capOut
  | _ => none

/-- R24: what an aligned offset names; none where it is unmapped (0x1FF8 to 0x1FFF among them, R44). -/
def targetAt (n : Nat) : Option Target :=
  if n < 0x400 then (regAt n).map .reg
  else if h : n < 0x800 then some (.freq ⟨(n - 0x400) / 4, by omega⟩)
  else if h : n < 0xC00 then some (.codeLen ⟨(n - 0x800) / 4, by omega⟩)
  else if n < 0x1000 then none
  else if h : n < 0x1FF8 then
    let i : Fin Config.maxNodes := ⟨(n - 0x1000) / 8, by simp only [Config.maxNodes]; omega⟩
    some (if n % 8 = 0 then .nodeW0 i else .nodeW1 i)
  else if n < 0x2000 then none
  else if h : n < 0x4000 then some (.codeBits ⟨(n - 0x2000) / 32, by omega⟩ ⟨n % 32 / 4, by omega⟩)
  else none

/-- R69: OFF[1:0] = 0. -/
abbrev aligned (off : BitVec 16) : Prop := off.toNat % 4 = 0

/-- R44: word 0 of an entry. -/
def nodeWord0 (e : Node) : Word := BitVec.ofBool e.leaf ++ 0#5 ++ e.left ++ e.right ++ e.sym

/-- R43: the CODE_LEN word. -/
def codeLenWord (c : CodeLen) : Word := 0#23 ++ BitVec.ofBool c.present ++ c.len

/-- The value a register reads while BUSY = 0, or at any time for STATUS, ID, CAP_IN and CAP_OUT (R24 to R41);
reserved bits are 0 (R23). -/
def State.readReg (s : State) : Reg → Word
  | .cmd => s.lastCmd
  | .status => s.statusWord
  | .ctrl => s.ctrlWord
  | .arg => s.arg
  | .result => s.result
  | .errInfo => s.errInfo
  | .inLen => s.inLen
  | .outLen => s.outLen
  | .rposByte => s.rposByte
  | .rposBit => 0#29 ++ s.rposBit
  | .wstate => 0#21 ++ s.wcnt ++ s.wacc
  | .trieInfo => 0#6 ++ s.nnodes ++ 0#7 ++ s.root
  | .nleaves => 0#23 ++ s.nleaves
  | .dlen => s.dlen
  | .dcount => s.dcount
  | .id => Config.idValue
  | .capIn => s.capIn
  | .capOut => s.capOut

/-- The value of a mapped word while BUSY = 0 (R24, R42 to R45). -/
def State.readTarget (s : State) : Target → Word
  | .reg r => s.readReg r
  | .freq i => s.freq[i]
  | .codeLen i => codeLenWord s.codeLen[i]
  | .nodeW0 i => nodeWord0 s.node[i]
  | .nodeW1 i => s.node[i].freq
  | .codeBits i k => s.codeBits[i][k]

/-- R75: these reads are exact while BUSY = 1. -/
def exactWhenBusy : Option Target → Bool
  | some (.reg .status) | some (.reg .id) | some (.reg .capIn) | some (.reg .capOut) => true
  | _ => false

/-- The value an aligned read returns where it is exact: the mapped word, or 0 at an unmapped offset (R23). -/
def State.readOffset (s : State) (off : BitVec 16) : Word :=
  ((targetAt off.toNat).map s.readTarget).getD 0

/-- R23, R69, R75: a register-port read. A misaligned one returns 0 and sets HAZ; one that is not exact while BUSY = 1
returns an unspecified word, at an unmapped offset too (R241 "every other read"; log 4). -/
def State.regRead (s : State) (off : BitVec 16) : State :=
  if ¬aligned off then { s.setHaz with portData := some (.word 0) }
  else if s.busy && !exactWhenBusy (targetAt off.toNat) then
    { s with portData := some (.word (Config.busyWord s.draws)), draws := s.draws + 1 }
  else { s with portData := some (.word (s.readOffset off)) }

/-- R32: IN_LEN <- min(v, IBUF_BYTES). -/
def State.writeInLen (s : State) (v : Word) : State :=
  { s with inLen := if v.toNat ≤ s.capIn.toNat then v else s.capIn }

/-- A write to a register whose writes are dropped with HAZ while BUSY = 1 (R209, R240). -/
def State.unlessBusy (s : State) (t : State) : State := if s.busy then s.setHaz else t

/-- R23 to R32, R46: an aligned write to a mapped word. All but six registers ignore it. -/
def State.writeTarget (s : State) (v : Word) : Target → State
  | .reg .cmd => s.unlessBusy (s.issue v)
  | .reg .status => s.writeStatus v
  | .reg .ctrl => s.unlessBusy (s.writeCtrl v)
  | .reg .arg => s.unlessBusy { s with arg := v }
  | .reg .inLen => s.unlessBusy (s.writeInLen v)
  | .reg .result | .reg .errInfo | .reg .outLen | .reg .rposByte | .reg .rposBit | .reg .wstate | .reg .trieInfo
  | .reg .nleaves | .reg .dlen | .reg .dcount | .reg .id | .reg .capIn | .reg .capOut => s
  | .freq _ | .codeLen _ | .nodeW0 _ | .nodeW1 _ | .codeBits _ _ => s

/-- R23, R69: a register-port write. A misaligned one is dropped and sets HAZ; one to an unmapped offset has no effect. -/
def State.regWrite (s : State) (off : BitVec 16) (v : Word) : State :=
  if ¬aligned off then s.setHaz
  else match targetAt off.toNat with
    | some t => s.writeTarget v t
    | none => s

/-- R61, R62, R70, R75: a read of a buffer byte, `exact` being what it reads while BUSY = 0. -/
def State.bufferRead (s : State) (exact : Byte) : State :=
  if s.busy then { s with portData := some (.byte (Config.busyByte s.draws)), draws := s.draws + 1 }
  else { s with portData := some (.byte exact) }

/-- R61, R70: an IBUF write. Past the capacity it has no effect and sets no HAZ, busy or not (log 9). -/
def State.ibufWrite (s : State) (a : Nat) (b : Byte) : State :=
  if a < s.capIn.toNat then s.unlessBusy { s with ibuf := Memory.store s.ibuf a b } else s

/-- R20, R71: one access of the HOST, as one step. -/
def State.hostAccess (s : State) : HostAccess → State
  | .regRead off => s.regRead off
  | .regWrite off v => s.regWrite off v
  | .ibufRead a => s.bufferRead (if a < s.capIn.toNat then s.ibufByte a else 0)
  | .ibufWrite a b => s.ibufWrite a b
  | .obufRead a => s.bufferRead (if a < s.capOut.toNat then s.obufByte a else 0)
  | .obufWrite _ _ => s

end Sys2Proof.Machine
end

