-- ==== Sys2Proof/Machine/Step.lean ====
section
/-! DEFINITION. One step of the machine: the agent that moves next takes its step (R20, R72, R230). -/

namespace Sys2Proof.Machine

/-- R21, R85: the ENGINE's step executes PENDING. With no command pending it has no step, and the machine rests as it is
(R220; log 5). -/
def engineTurn (s : State) : Host.Outcome State Fault Refusal :=
  match s.pending with
  | none => .next s
  | some w =>
    match decode w with
    | .command i => exec i s
    | .illegal c => .next (s.raiseIllegal c w)

/-- One step: the next move of the schedule, or the ENGINE's turn where the environment has no more moves (R20, R250
weak fairness; log 5). -/
def step (s : State) : Host.Outcome State Fault Refusal :=
  match s.schedule with
  | [] => engineTurn s
  | .host a :: rest => .next ({ s with schedule := rest }.hostAccess a)
  | .engine :: rest => engineTurn { s with schedule := rest }
  | .reset :: rest => .next { s with schedule := rest }.hardReset

/-- The command word issued as the HOST's CMD write issues it (R204), the ENGINE moving next: there is no other place a
command is taken from (R77; log 7). -/
def State.withFetchWord (s : State) (nbits w : Nat) : State :=
  { s.issue (BitVec.ofNat 32 (w % 2 ^ nbits)) with schedule := .engine :: s.schedule }

end Sys2Proof.Machine
end

