-- ==== Sys2Proof/Machine/Views.lean ====
section
/-! DEFINITION. The mathematical objects the spec's prose speaks of, read off the state: bit sequences (R8), the input and
output bytes, the packer's whole output (R111), and the trie the node store holds (R14, R44). No step uses them; claims
are stated with them. -/

namespace Sys2Proof.Machine

/-- The number a bit sequence denotes, first bit most significant (R8). -/
def natOfBits (bits : List Bool) : Nat := bits.foldl (fun v b => 2 * v + b.toNat) 0

/-- n bits of the input stream from position p (R64). -/
def State.streamBits (s : State) (p n : Nat) : List Bool := (List.range n).map fun j => s.streamBit (p + j)

/-- IBUF[0..IN_LEN-1] (R32). -/
def State.inBytes (s : State) : List Byte := (List.range s.inLen.toNat).map s.ibufByte

/-- OBUF[0..OUT_LEN-1] (R33). -/
def State.outBytes (s : State) : List Byte := (List.range s.outLen.toNat).map s.obufByte

/-- s with the packer and OBUF of p: OUT_LEN, WACC, WCNT and the output bytes, and nothing else, are p's. -/
def State.withPackerOf (s p : State) : State :=
  { s with outLen := p.outLen, wacc := p.wacc, wcnt := p.wcnt, obuf := p.obuf }

/-- The bit sequence written to the packer since it was last reset: the bits of OBUF[0..OUT_LEN-1], then the WCNT pending
bits WACC[7], ..., WACC[8-WCNT] (R111). -/
def State.packed (s : State) : List Bool := s.outBytes.flatMap msbBits ++ (msbBits s.wacc).take s.wcnt.toNat

/-- A Huffman trie (R14): a leaf is a symbol, an internal node has exactly two children. -/
inductive Trie where
  | leaf (b : Byte)
  | node (l r : Trie)
  deriving DecidableEq, Repr

/-- The symbols of the leaves, left to right. -/
def Trie.leaves : Trie → List Byte
  | .leaf b => [b]
  | .node l r => l.leaves ++ r.leaves

/-- The serialized trie, in pre-order (R146, R66). -/
def Trie.bits : Trie → List Bool
  | .leaf b => true :: msbBits b
  | .node l r => false :: (l.bits ++ r.bits)

/-- The fields of the serialized trie in the order `TrieRead` takes them: a one-bit marker, and for a leaf its byte (R171). -/
def Trie.fields : Trie → List (List Bool)
  | .leaf b => [[true], msbBits b]
  | .node l r => [false] :: (l.fields ++ r.fields)

/-- Each leaf's symbol with the edge bits from the root to it, 0 left and 1 right (R14, R140). -/
def Trie.codes : Trie → List (Byte × List Bool)
  | .leaf b => [(b, [])]
  | .node l r =>
    (l.codes.map fun p => (p.1, false :: p.2)) ++ (r.codes.map fun p => (p.1, true :: p.2))

/-- The trie under NODE[i], where the store holds one of at most this depth (R44). -/
def trieAt (nodes : Vector Node Config.maxNodes) : Nat → Nat → Option Trie
  | 0, _ => none
  | fuel + 1, i =>
    if h : i < Config.maxNodes then
      if nodes[i].leaf then some (.leaf nodes[i].sym)
      else match trieAt nodes fuel nodes[i].left.toNat, trieAt nodes fuel nodes[i].right.toNat with
        | some l, some r => some (.node l r)
        | _, _ => none
    else none

/-- The trie rooted at TRIEINFO.ROOT, of depth at most 255 (R6 MAX_CODE_LEN, R51). -/
def State.trie (s : State) : Option Trie := trieAt s.node Config.maxDepth s.root.toNat

/-- The sum of the FREQ words of the leaves under NODE[i] (R139). -/
def leafFreqAt (nodes : Vector Node Config.maxNodes) : Nat → Nat → Option Nat
  | 0, _ => none
  | fuel + 1, i =>
    if h : i < Config.maxNodes then
      if nodes[i].leaf then some nodes[i].freq.toNat
      else match leafFreqAt nodes fuel nodes[i].left.toNat, leafFreqAt nodes fuel nodes[i].right.toNat with
        | some l, some r => some (l + r)
        | _, _ => none
    else none

/-- FREQ[0] + ... + FREQ[255] (R131). -/
def State.freqSum (s : State) : Nat := (allBytes.map fun b => (s.freqOf b).toNat).sum

/-- The byte values with a non-zero count, ascending (R134). -/
def State.presentBytes (s : State) : List Byte := allBytes.filter fun b => s.freqOf b != 0

end Sys2Proof.Machine
end

