-- ==== Sys2Proof/Safety.lean ====
section
/-! DEFINITION. What counts as a good state and a safe step, in the terms the claims use. -/

namespace Sys2Proof.Machine

/-- R35: the bits of WACC below the WCNT pending ones are 0: WACC[7-WCNT:0] = 0, all of WACC when WCNT = 0. -/
def State.packerClean (s : State) : Prop := ∀ i, i < 8 - s.wcnt.toNat → s.wacc.getLsbD i = false

/-- What the registers and buffers always satisfy, table contents apart. -/
structure State.PortInv (s : State) : Prop where
  /-- R6: IBUF_BYTES is at least 1. -/
  capIn_pos : 1 ≤ s.capIn.toNat
  /-- R6: OBUF_BYTES is at least 1. -/
  capOut_pos : 1 ≤ s.capOut.toNat
  /-- R32: IN_LEN <= IBUF_BYTES. -/
  inLen_le : s.inLen.toNat ≤ s.capIn.toNat
  /-- R33: OUT_LEN <= OBUF_BYTES. -/
  outLen_le : s.outLen.toNat ≤ s.capOut.toNat
  /-- R35: WACC[7-WCNT:0] = 0. -/
  wacc_low : s.packerClean
  /-- R26: DONE and ERR are never both 1. -/
  not_both : ¬(s.done = true ∧ s.err = true)
  /-- R204: while a command is pending, DONE, ERR and ERRCODE are as its issue left them, and CMD reads it. -/
  busy_issued : ∀ w, s.pending = some w → w = s.lastCmd ∧ s.done = false ∧ s.err = false ∧ s.errCode = .noError
  /-- R201, R204: with no error since the last issue, ERRSUB and ERRINFO are 0. -/
  no_error : s.errCode = .noError → s.errSub = 0 ∧ s.errInfo = 0
  /-- R205: ERR is set together with an ERRCODE. -/
  err_code : s.err = true → s.errCode ≠ .noError
  /-- R206: DONE is set by a command that raised nothing. -/
  done_code : s.done = true → s.errCode = .noError
  /-- R48: CODES_VALID is cleared whenever TRIE_VALID is. -/
  codes_trie : s.codesValid = true → s.trieValid = true
  /-- The canonical form of IBUF's contents, and their range (R49). -/
  ibuf_wf : s.ibuf.wf ∧ s.ibuf.below s.capIn.toNat
  /-- The canonical form of OBUF's contents, and their range (R49). -/
  obuf_wf : s.obuf.wf ∧ s.obuf.below s.capOut.toNat

/-- The code table holds exactly the codes of a trie (R43, R45, R140): each leaf's symbol is present with its path, every
other symbol is absent with LEN = 0, and every code bit at or past LEN is 0. -/
def State.holdsCodes (s : State) (t : Trie) : Prop :=
  (∀ b c, (b, c) ∈ t.codes → (s.codeLenOf b).present = true ∧ s.code b = c) ∧
  (∀ b, b ∉ t.leaves → s.codeLenOf b = { present := false, len := 0 }) ∧
  (∀ b j, (s.codeLenOf b).len.toNat ≤ j → codeBit (s.codeBitsOf b) j = false)

/-- What the validity bits promise about the tables (R26, R48). -/
structure State.TableInv (s : State) : Prop where
  /-- R131: the counts sum to an IN_LEN, so no sum of them passes 2^32 - 1. -/
  freq_sum : s.freqValid = true → s.freqSum < 2 ^ 32
  /-- R44, R137, R174: NODE holds a complete trie with distinct symbols, rooted at ROOT, and NNODES and NLEAVES count it. -/
  trie_ok : s.trieValid = true → ∃ t, s.trie = some t ∧ t.leaves.Nodup ∧
    s.nleaves.toNat = t.leaves.length ∧ s.nnodes.toNat = 2 * t.leaves.length - 1
  /-- R44: among the NNODES allocated entries a leaf has LEFT = RIGHT = 0 and an internal node has SYM = 0. -/
  node_shape : s.trieValid = true → ∀ i, (h : i < Config.maxNodes) → i < s.nnodes.toNat →
    if s.node[i].leaf then s.node[i].left = 0 ∧ s.node[i].right = 0 else s.node[i].sym = 0
  /-- R43, R45, R140: the code table holds the codes of the current trie and nothing else. -/
  codes_ok : s.codesValid = true → ∀ t, s.trie = some t → s.holdsCodes t

/-- The invariant of the machine. -/
structure State.Inv (s : State) : Prop where
  port : s.PortInv
  tables : s.TableInv

/-- A step is safe where it neither faults nor refuses: it answers a next state. -/
def safeStep (s : State) : Prop := ∃ t, step s = .next t

end Sys2Proof.Machine
end

