-- ==== Sys2Proof/Certificates/Slice0/Obligations.lean ====
section
/-! DEFINITION. The statements for the provers. A state they name is written out from the rules: `Claims.finished` and
`Claims.failed` are the ends of a command as R206 and R205 give them, and a frame is an equation that names every field
the command may change. Capacities are whatever the state holds. -/

open Sys2Proof Sys2Proof.Machine

/-- R206: a command that reached its end. -/
def Sys2Proof.Claims.finished (s : State) : State := { s with done := true, pending := none }

/-- R205: a command that raised E(sub, info). -/
def Sys2Proof.Claims.failed (s : State) (e : ErrCode) (sub : BitVec 4) (info : Word) : State :=
  { s with err := true, errCode := e, errSub := sub, errInfo := info, pending := none }

/-- R34: RPOS at p. -/
def Sys2Proof.Claims.readerAt (s : State) (p : Nat) : State :=
  { s with rposByte := BitVec.ofNat 32 (p / 8), rposBit := BitVec.ofNat 3 (p % 8) }

/-- R101: the bytes that n more bits complete fit in OBUF. -/
def Sys2Proof.Claims.fits (s : State) (n : Nat) : Prop :=
  s.outLen.toNat + (s.wcnt.toNat + n) / 8 ≤ s.capOut.toNat

/-- The packer of t is that of s with these bits behind what it held (R111): the bit sequence, OUT_LEN and WCNT, the
unused bits of WACC, and every byte of OBUF outside the ones completed. -/
def Sys2Proof.Claims.appended (s t : State) (bits : List Bool) : Prop :=
  t.packed = s.packed ++ bits ∧
  8 * t.outLen.toNat + t.wcnt.toNat = 8 * s.outLen.toNat + s.wcnt.toNat + bits.length ∧
  (s.packerClean → t.packerClean) ∧
  ∀ a, a < s.outLen.toNat ∨ t.outLen.toNat ≤ a → t.obufByte a = s.obufByte a

/-- The bits a write command appends (R103 to R105). -/
def Sys2Proof.Claims.written (i : Instr) (s : State) : Option (List Bool) :=
  match i with
  | .wbit imm8 => some [imm8.getLsbD 0]
  | .wbyte imm8 => some (msbBits imm8)
  | .wint => some (msbBits s.arg)
  | _ => none

/-- The width of a read command (R107 to R109). -/
def Sys2Proof.Claims.readWidth : Instr → Option Nat
  | .rbit => some 1
  | .rbyte => some 8
  | .rint => some 32
  | _ => none

/-- The agent that moves next is the ENGINE, and `rest` is the schedule after its turn. -/
def Sys2Proof.Claims.engineNext (s : State) (rest : List Event) : Prop :=
  (s.schedule = [] ∧ rest = []) ∨ s.schedule = .engine :: rest

open Sys2Proof.Claims

/-! ### Reset, decoding and the step -/

/-- R53: every piece of state right after a reset, in every instance and for every reset. The unspecified tables and
buffer bytes are the opaque draws of that reset (the model's form of "any value", log 3). `State.reset` is such a state;
the capacities it names are the model's choice (log 1) and the statement does not rest on them. -/
def Obligations.ResetLeavesTheStatedValues : Prop :=
  (∃ capIn capOut n, State.reset = State.afterReset capIn capOut n) ∧
  ∀ (capIn capOut : Word) (n : Nat) (s : State), s = State.afterReset capIn capOut n →
    s.seq = .idle ∧ s.pending = none ∧ s.lastCmd = 0 ∧
    s.done = false ∧ s.err = false ∧ s.haz = false ∧
    s.freqValid = false ∧ s.trieValid = false ∧ s.codesValid = false ∧
    s.errCode = .noError ∧ s.errSub = 0 ∧ s.statusWord = 0 ∧
    s.emptyMode = false ∧ s.ieDone = false ∧ s.ieErr = false ∧ s.ieHaz = false ∧
    s.arg = 0 ∧ s.result = 0 ∧ s.errInfo = 0 ∧ s.inLen = 0 ∧ s.outLen = 0 ∧
    s.rposByte = 0 ∧ s.rposBit = 0 ∧ s.wacc = 0 ∧ s.wcnt = 0 ∧
    s.root = 0 ∧ s.nnodes = 0 ∧ s.nleaves = 0 ∧ s.dlen = 0 ∧ s.dcount = 0 ∧
    s.readReg .id = 0x48554631 ∧ s.readReg .capIn = capIn ∧ s.readReg .capOut = capOut ∧ s.irq = false ∧
    (∀ i : Fin 256, s.freq[i] = Config.resetFreq n i) ∧
    (∀ i : Fin 256, s.codeLen[i].present = (Config.resetCodeLen n i).getLsbD 8 ∧
      s.codeLen[i].len = (Config.resetCodeLen n i).extractLsb' 0 8) ∧
    (∀ (i : Fin 256) (k : Fin 8), s.codeBits[i][k] = Config.resetCodeBits n i k) ∧
    (∀ i : Fin Config.maxNodes, s.node[i].leaf = (Config.resetNodeW0 n i).getLsbD 31 ∧
      s.node[i].left = (Config.resetNodeW0 n i).extractLsb' 17 9 ∧
      s.node[i].right = (Config.resetNodeW0 n i).extractLsb' 8 9 ∧
      s.node[i].sym = (Config.resetNodeW0 n i).extractLsb' 0 8 ∧
      s.node[i].freq = Config.resetNodeW1 n i) ∧
    (∀ a, s.ibufByte a = Config.resetIbuf n a) ∧ (∀ a, s.obufByte a = Config.resetObuf n a)

/-- R231: a reset discards the pending command; R230, R232: every other piece of state is as after a reset, the
capacities apart. The model's choices in it: the unspecified values are the draws of the next reset (log 3), and what the
HOST still has to do and last read is the HOST's own and is kept (log 5), with the count of busy reads (log 4). -/
def Obligations.ResetDiscardsThePendingCommand : Prop :=
  ∀ (s : State) (rest : List Event), s.schedule = .reset :: rest →
    ∃ t, step s = .next t ∧
      t = { State.afterReset s.capIn s.capOut (s.resetCount + 1) with
            draws := s.draws, schedule := rest, portData := s.portData } ∧
      t.pending = none ∧ t.done = false ∧ t.err = false ∧ t.irq = false

/-- R84: words written out from the opcode map decode to their commands. -/
def Obligations.WordsOfTheOpcodeMapDecode : Prop :=
  ∀ p ∈ [((0x00000000 : Word), Instr.nop), (0x01000000, .clear), (0x10000000, .wbit 0), (0x10000001, .wbit 1),
      (0x11000041, .wbyte 0x41), (0x110000FF, .wbyte 0xFF), (0x12000000, .wint), (0x13000000, .flush),
      (0x18000000, .rbit), (0x19000000, .rbyte), (0x1A000000, .rint), (0x20000000, .tabulate), (0x21000000, .build),
      (0x22000000, .derive), (0x23000000, .serialize), (0x24000000, .encode), (0x28000000, .deserialize),
      (0x29000000, .decode), (0x30000000, .compress), (0x31000000, .expand)],
    decode p.1 = .command p.2

/-- R81, R84: decoding the word of a well-formed command gives it back, every operand included. -/
def Obligations.EncodeThenDecodeIsTheCommand : Prop :=
  ∀ i : Instr, i.wellFormed = true →
    decode (encode i) = .command i ∧ decodeTableWord 32 (encode i).toNat = some i

/-- R81, R82, R84: a word that decodes is the word of the command it decodes to, and that command is well formed. -/
def Obligations.DecodeThenEncodeIsTheWord : Prop :=
  ∀ (w : Word) (i : Instr), decode w = .command i → i.wellFormed = true ∧ encode i = w

/-- R85, R86: which words are illegal, and by which check, the opcode first, then RSV, then IMM8. -/
def Obligations.IllegalWordsByFirstFailedCheck : Prop :=
  ∀ (w : Word) (assigned : Prop),
    (assigned ↔ w.extractLsb' 24 8 ∈ ([0x00, 0x01, 0x10, 0x11, 0x12, 0x13, 0x18, 0x19, 0x1A, 0x20, 0x21, 0x22, 0x23,
      0x24, 0x28, 0x29, 0x30, 0x31] : List Byte)) →
    (decode w = .illegal .unassignedOpcode ↔ ¬assigned) ∧
    (decode w = .illegal .reservedBits ↔ assigned ∧ w.extractLsb' 8 16 ≠ 0) ∧
    (decode w = .illegal .unusedImmediate ↔ assigned ∧ w.extractLsb' 8 16 = 0 ∧
      ((w.extractLsb' 24 8 = 0x10 ∧ w.extractLsb' 1 7 ≠ 0) ∨
       (w.extractLsb' 24 8 ≠ 0x10 ∧ w.extractLsb' 24 8 ≠ 0x11 ∧ w.extractLsb' 0 8 ≠ 0)))

/-- R21, R85: the ENGINE's turn runs the pending command; with nothing pending it has no step and the machine rests. The
schedule that says whose turn it is is the model's own (log 5). -/
def Obligations.StepRunsThePendingCommand : Prop :=
  ∀ (s : State) (rest : List Event), engineNext s rest →
    (∀ w i, s.pending = some w → decode w = .command i → step s = exec i { s with schedule := rest }) ∧
    (s.pending = none → step s = .next { s with schedule := rest })

/-- R85, R202, R203, R205: the ENGINE's turn on an illegal word reports ILLEGAL_CMD with the check's sub-cause and the
whole word, and changes nothing else. -/
def Obligations.StepReportsAnIllegalWord : Prop :=
  ∀ (s : State) (rest : List Event) (w : Word), engineNext s rest → s.pending = some w →
    (decode w = .illegal .unassignedOpcode → step s = .next (failed { s with schedule := rest } .illegalCmd 0 w)) ∧
    (decode w = .illegal .reservedBits → step s = .next (failed { s with schedule := rest } .illegalCmd 1 w)) ∧
    (decode w = .illegal .unusedImmediate → step s = .next (failed { s with schedule := rest } .illegalCmd 2 w))

/-- R204: a CMD write with BUSY = 0 issues the command, and changes nothing else. -/
def Obligations.CmdWriteIssuesTheCommand : Prop :=
  ∀ (s : State) (rest : List Event) (v : Word), s.schedule = .host (.regWrite 0x000 v) :: rest → s.pending = none →
    ∃ t, step s = .next t ∧ t.seq = .busy ∧
      t = { s with
        schedule := rest, lastCmd := v, pending := some v
        done := false, err := false, errCode := .noError, errSub := 0, errInfo := 0 }

/-- R205, R206: whatever a command does, it ends with SEQ = IDLE and with exactly one of DONE and ERR. -/
def Obligations.EveryCommandEndsDoneOrErr : Prop :=
  ∀ (i : Instr) (s t : State), s.done = false → s.err = false → exec i s = .next t →
    t.pending = none ∧
    ((t.done = true ∧ t.err = false ∧ t.errCode = s.errCode ∧ t.errSub = s.errSub ∧ t.errInfo = s.errInfo) ∨
     (t.done = false ∧ t.err = true ∧ t.errCode ≠ .noError))

/-! ### Control commands -/

/-- R190, R206: NOP completes and changes nothing else. -/
def Obligations.NopOnlyCompletes : Prop := ∀ s : State, exec .nop s = .next (finished s)

/-- R191: CLEAR zeroes the tables, the validity bits, HAZ, the positions and the result registers, and keeps the rest:
IBUF, IN_LEN, the bytes of OBUF, CTRL, ARG and LAST_CMD among it. -/
def Obligations.ClearZeroesTheWorkingState : Prop :=
  ∀ s : State, exec .clear s = .next (finished { s with
    freq := Vector.replicate 256 0
    codeLen := Vector.replicate 256 { present := false, len := 0 }
    codeBits := Vector.replicate 256 (Vector.replicate 8 0)
    node := Vector.replicate 511 { leaf := false, left := 0, right := 0, sym := 0, freq := 0 }
    freqValid := false, trieValid := false, codesValid := false, haz := false
    root := 0, nnodes := 0, nleaves := 0, rposByte := 0, rposBit := 0
    outLen := 0, wacc := 0, wcnt := 0, result := 0, dlen := 0, dcount := 0 })

/-! ### Bit-stream commands -/

/-- R101, R103 to R105: where the completed bytes fit, WBIT, WBYTE and WINT append their bits and change the packer and
the completed bytes of OBUF alone; where they do not, they raise OUTPUT_OVERFLOW with OUT_LEN and change nothing else. -/
def Obligations.WriteCommandsAppendTheirBits : Prop :=
  ∀ (i : Instr) (s : State) (bits : List Bool), written i s = some bits →
    (fits s bits.length → ∃ t, exec i s = .next t ∧ t = finished (s.withPackerOf t) ∧ appended s t bits) ∧
    (¬fits s bits.length → exec i s = .next (failed s .outputOverflow 0 s.outLen))

/-- R102, R106: FLUSH stores the partial byte, zero-padded, at OBUF[OUT_LEN]; with no partial byte it does nothing, and
with OBUF full it raises OUTPUT_OVERFLOW. -/
def Obligations.FlushStoresThePartialByte : Prop :=
  ∀ s : State,
    (s.wcnt = 0 → exec .flush s = .next (finished s)) ∧
    (s.wcnt ≠ 0 → s.outLen = s.capOut → exec .flush s = .next (failed s .outputOverflow 0 s.outLen)) ∧
    (s.wcnt ≠ 0 → s.outLen.toNat < s.capOut.toNat → s.packerClean → ∃ t,
      exec .flush s = .next t ∧ t = finished (s.withPackerOf t) ∧
      t.outLen.toNat = s.outLen.toNat + 1 ∧ t.wacc = 0 ∧ t.wcnt = 0 ∧ t.obufByte s.outLen.toNat = s.wacc ∧
      t.packed = s.packed ++ List.replicate (8 - s.wcnt.toNat) false ∧
      ∀ a, a ≠ s.outLen.toNat → t.obufByte a = s.obufByte a)

/-- R100, R107 to R109: where the bits are there, RBIT, RBYTE and RINT put the next 1, 8 or 32 bits, read MSB-first, in
RESULT and move RPOS past them; where they are not, they raise UNDERFLOW with RPOS_BYTE; nothing else changes. -/
def Obligations.ReadCommandsReturnTheNextBits : Prop :=
  ∀ (i : Instr) (n : Nat) (s : State), readWidth i = some n →
    (s.inLen.toNat ≤ s.capIn.toNat → s.rpos + n ≤ 8 * s.inLen.toNat →
      exec i s = .next (finished
        { readerAt s (s.rpos + n) with result := BitVec.ofNat 32 (natOfBits (s.streamBits s.rpos n)) })) ∧
    (8 * s.inLen.toNat < s.rpos + n → exec i s = .next (failed s .underflow 0 s.rposByte))

/-- A list of fields written one after another and flushed (R110). -/
def Sys2Proof.Claims.writeFields : List (Σ n : Nat, BitVec n) → Engine Unit
  | [] => flushBits
  | f :: fs => do
    writeBits f.2
    writeFields fs

/-- Fields of these widths read one after another (R110). -/
def Sys2Proof.Claims.readFields : List Nat → Engine (List Nat)
  | [] => pure []
  | n :: ns => do
    let v ← readBits n
    let vs ← readFields ns
    pure (v.toNat :: vs)

/-- R110: what was written field by field to an empty packer and flushed is read back field by field, in any state whose
input bytes are that output. -/
def Obligations.FieldsWrittenAreReadBack : Prop :=
  ∀ (fs : List (Σ n : Nat, BitVec n)) (s t u : State),
    (∀ f ∈ fs, 1 ≤ f.1 ∧ f.1 ≤ 32) →
    s.outLen = 0 → s.wcnt = 0 → s.wacc = 0 → (writeFields fs).run s = .ok () t →
    u.inBytes = t.outBytes → u.rpos = 0 → u.inLen.toNat ≤ u.capIn.toNat →
    ∃ v, (readFields (fs.map fun f => f.1)).run u = .ok (fs.map fun f => f.2.toNat) v

/-! ### The encoder -/

/-- R131 (and R130): TABULATE counts each byte value of the input; the counts sum to IN_LEN; it changes FREQ and
FREQ_VALID alone. -/
def Obligations.TabulateCountsTheInput : Prop :=
  ∀ s : State, s.inLen.toNat ≤ s.capIn.toNat →
    ∃ t, exec .tabulate s = .next t ∧ t = finished { s with freq := t.freq, freqValid := true } ∧
      (∀ b : Byte, (t.freqOf b).toNat = s.inBytes.count b) ∧ t.freqSum = s.inLen.toNat

/-- R48, R201, R202: a command whose table is not valid raises NOT_READY and changes nothing else. -/
def Obligations.MissingTableIsNotReady : Prop :=
  ∀ s : State,
    (s.freqValid = false → exec .build s = .next (failed s .notReady 1 0)) ∧
    (s.trieValid = false → exec .derive s = .next (failed s .notReady 2 0) ∧
      exec .serialize s = .next (failed s .notReady 2 0) ∧ exec .decode s = .next (failed s .notReady 2 0)) ∧
    (s.codesValid = false → exec .encode s = .next (failed s .notReady 3 0))

/-- R132: BUILD over an all-zero table drops the old trie and raises EMPTY_INPUT, NODE unchanged. -/
def Obligations.BuildWithoutLeavesIsEmptyInput : Prop :=
  ∀ s : State, s.freqValid = true → (∀ b : Byte, s.freqOf b = 0) →
    exec .build s = .next (failed
      { s with trieValid := false, codesValid := false, root := 0, nnodes := 0, nleaves := 0 } .emptyInput 1 0)

/-- R134, and the counts of R137: BUILD puts one leaf per byte value with a non-zero count at the indices 0 to r - 1, in
ascending order, each with its count; NNODES is 2r - 1, ROOT 2r - 2, NLEAVES r; entries from NNODES on keep their
contents, and nothing but the trie and its validity changes. -/
def Obligations.BuildSeedsOneLeafPerPresentByte : Prop :=
  ∀ s : State, s.freqValid = true → s.presentBytes ≠ [] →
    ∃ t, exec .build s = .next t ∧
      t = finished { s with
        node := t.node, root := t.root, nnodes := t.nnodes, nleaves := t.nleaves
        trieValid := true, codesValid := false } ∧
      s.presentBytes.length ≤ 256 ∧ s.presentBytes.Nodup ∧
      t.nleaves.toNat = s.presentBytes.length ∧ t.nnodes.toNat = 2 * s.presentBytes.length - 1 ∧
      t.root.toNat = 2 * s.presentBytes.length - 2 ∧
      (∀ (k : Nat) (b : Byte), s.presentBytes[k]? = some b →
        t.node[k]? = some { leaf := true, left := 0, right := 0, sym := b, freq := s.freqOf b }) ∧
      (∀ i, 2 * s.presentBytes.length - 1 ≤ i → t.node[i]? = s.node[i]?)

/-- The FREQ word of NODE[i] as a number. -/
def Sys2Proof.Claims.freqAt (t : State) (i : Nat) : Nat := ((t.node[i]?).map fun e => e.freq.toNat).getD 0

/-- R133: i comes before j in the order of (frequency, node index). -/
def Sys2Proof.Claims.comesBefore (t : State) (i j : Nat) : Prop :=
  freqAt t i < freqAt t j ∨ (freqAt t i = freqAt t j ∧ i < j)

/-- i is in PQ when internal node n is made, r being the number of leaves: it exists, and no internal node made before
n took it. -/
def Sys2Proof.Claims.inQueue (t : State) (r n i : Nat) : Prop :=
  i < n ∧ ∀ m e, r ≤ m → m < n → t.node[m]? = some e → e.left.toNat ≠ i ∧ e.right.toNat ≠ i

/-- R133, R135, R136: BUILD makes the internal nodes r to 2r - 2 in order; each takes the two members of PQ that come
first, the first as LEFT and the second as RIGHT, and its frequency is their sum. The counts are those of one input, so
they sum below 2^32 (R131). -/
def Obligations.BuildMergesTheTwoFirstOfTheQueue : Prop :=
  ∀ s : State, s.freqValid = true → s.presentBytes ≠ [] → s.freqSum < 2 ^ 32 →
    ∃ t, exec .build s = .next t ∧
      ∀ n, s.presentBytes.length ≤ n → n < 2 * s.presentBytes.length - 1 →
        ∃ e x y, t.node[n]? = some e ∧ e.leaf = false ∧ e.sym = 0 ∧ e.left.toNat = x ∧ e.right.toNat = y ∧
          inQueue t s.presentBytes.length n x ∧ inQueue t s.presentBytes.length n y ∧ comesBefore t x y ∧
          (∀ z, inQueue t s.presentBytes.length n z → z ≠ x → z ≠ y → comesBefore t y z) ∧
          e.freq.toNat = freqAt t x + freqAt t y

/-- R44, R132, R143: what BUILD leaves is a complete trie of depth at most 255, one leaf for each byte value with a
non-zero count. -/
def Obligations.BuildMakesATrieOfThePresentBytes : Prop :=
  ∀ s : State, s.freqValid = true → s.presentBytes ≠ [] →
    ∃ t tr, exec .build s = .next t ∧ t.trie = some tr ∧ tr.leaves.Perm s.presentBytes

/-- R139: after TABULATE and BUILD of a non-empty input, every node's FREQ is the sum of the FREQ of the leaves below it,
and the root's is the sum of the counts, which is IN_LEN; no sum wraps. -/
def Obligations.NodeFrequencySumsItsLeaves : Prop :=
  ∀ s : State, s.inLen.toNat ≤ s.capIn.toNat → s.inLen ≠ 0 →
    ∃ u t, exec .tabulate s = .next u ∧ exec .build u = .next t ∧
      (∀ i, i < t.nnodes.toNat → leafFreqAt t.node Config.maxDepth i = some (freqAt t i)) ∧
      freqAt t t.root.toNat = u.freqSum ∧ freqAt t t.root.toNat = s.inLen.toNat ∧
      ∀ i, i < t.nnodes.toNat → freqAt t i ≤ s.inLen.toNat

/-- R140, R142: over a valid trie with distinct symbols DERIVE records each leaf's path as its symbol's code, clears every
other entry, and changes the code table and CODES_VALID alone. -/
def Obligations.DeriveRecordsThePathOfEachLeaf : Prop :=
  ∀ (s : State) (tr : Trie), s.trieValid = true → s.trie = some tr → tr.leaves.Nodup →
    ∃ t, exec .derive s = .next t ∧
      t = finished { s with codeLen := t.codeLen, codeBits := t.codeBits, codesValid := true } ∧ t.holdsCodes tr

/-- R143: after DERIVE each leaf's symbol has exactly one code, the path to its leaf; LEN is the leaf's depth, at most 255;
and no code is a prefix of another's. -/
def Obligations.DerivedCodesArePrefixFree : Prop :=
  ∀ (s t : State) (tr : Trie), s.trieValid = true → s.trie = some tr → tr.leaves.Nodup → exec .derive s = .next t →
    (∀ b ∈ tr.leaves, ∃ c, (b, c) ∈ tr.codes ∧ (∀ c', (b, c') ∈ tr.codes → c' = c) ∧
      (t.codeLenOf b).present = true ∧ t.code b = c ∧ (t.codeLenOf b).len.toNat = c.length ∧ c.length ≤ 255) ∧
    ∀ b b', b ≠ b' → (t.codeLenOf b).present = true → (t.codeLenOf b').present = true → ¬t.code b <+: t.code b'

/-- R145 to R147: where the header fits, SERIALIZE appends the trie in pre-order, 10r - 1 bits for r leaves, and changes
the packer and the completed bytes of OBUF alone. -/
def Obligations.SerializeAppendsThePreOrderTrie : Prop :=
  ∀ (s : State) (tr : Trie), s.trieValid = true → s.trie = some tr → fits s tr.bits.length →
    ∃ t, exec .serialize s = .next t ∧ t = finished (s.withPackerOf t) ∧ appended s t tr.bits ∧
      tr.bits.length = 10 * tr.leaves.length - 1

/-- R150: where every input byte has a code and the codes fit, ENCODE appends them in input order and changes the packer
and the completed bytes of OBUF alone. -/
def Obligations.EncodeAppendsTheCodesOfTheInput : Prop :=
  ∀ s : State, s.codesValid = true → s.inLen.toNat ≤ s.capIn.toNat →
    (∀ b ∈ s.inBytes, (s.codeLenOf b).present = true) → fits s (s.inBytes.flatMap s.code).length →
    ∃ t, exec .encode s = .next t ∧ t = finished (s.withPackerOf t) ∧ appended s t (s.inBytes.flatMap s.code)

/-- R150, R207: at the first input byte without a code ENCODE raises NO_CODE with its index; the codes before it stay
written. -/
def Obligations.EncodeStopsAtAByteWithoutACode : Prop :=
  ∀ (s : State) (i : Nat), s.codesValid = true → s.inLen.toNat ≤ s.capIn.toNat → i < s.inLen.toNat →
    (∀ b ∈ s.inBytes.take i, (s.codeLenOf b).present = true) → (s.codeLenOf (s.ibufByte i)).present = false →
    fits s ((s.inBytes.take i).flatMap s.code).length →
    ∃ t, exec .encode s = .next t ∧ t = failed (s.withPackerOf t) .noCode 0 (BitVec.ofNat 32 i) ∧
      appended s t ((s.inBytes.take i).flatMap s.code)

/-- R155, R160: COMPRESS of an empty input raises EMPTY_INPUT and changes nothing else when EMPTY_MODE = 1; otherwise it
writes the six-byte sentinel unit, with an all-zero FREQ, FREQ_VALID = 1 and TRIE_VALID = CODES_VALID = 0; where OBUF is
shorter it raises OUTPUT_OVERFLOW with OUT_LEN at the write that does not fit (the final flush with five bytes, else the
length, or the leaf's byte in an OBUF of none), the bytes and bits written before it kept (R207). -/
def Obligations.CompressOfAnEmptyInput : Prop :=
  ∀ s : State, s.inLen = 0 →
    (s.emptyMode = true → exec .compress s = .next (failed s .emptyInput 0 0)) ∧
    (s.emptyMode = false → 6 ≤ s.capOut.toNat → ∃ t, exec .compress s = .next t ∧
      t = finished { s.withPackerOf t with
        freq := Vector.replicate 256 0, freqValid := true, trieValid := false, codesValid := false } ∧
      t.outBytes = [0x80, 0x00, 0x00, 0x00, 0x00, 0x00] ∧ t.wcnt = 0 ∧ t.wacc = 0 ∧
      ∀ a, 6 ≤ a → t.obufByte a = s.obufByte a) ∧
    (s.emptyMode = false → s.capOut.toNat < 6 → ∃ t, exec .compress s = .next t ∧
      t = failed { s.withPackerOf t with
        freq := Vector.replicate 256 0, freqValid := true, trieValid := false, codesValid := false }
        .outputOverflow 0 t.outLen ∧
      (s.capOut.toNat = 5 → t.outBytes = [0x80, 0x00, 0x00, 0x00, 0x00] ∧ t.wacc = 0) ∧
      (1 ≤ s.capOut.toNat → s.capOut.toNat < 5 → t.outBytes = [0x80] ∧ t.wacc = 0) ∧
      (s.capOut.toNat = 0 → t.outBytes = [] ∧ t.wacc = 0x80) ∧
      t.wcnt = 1 ∧ ∀ a, t.outLen.toNat ≤ a → t.obufByte a = s.obufByte a)

/-- s with the tables of w, all of them valid. -/
def Sys2Proof.Claims.tablesOf (s w : State) : State :=
  { s with
    freq := w.freq, node := w.node, root := w.root, nnodes := w.nnodes, nleaves := w.nleaves
    codeLen := w.codeLen, codeBits := w.codeBits, freqValid := true, trieValid := true, codesValid := true }

/-- R155, R66, R156 (b): COMPRESS of a non-empty input leaves the tables that TABULATE, BUILD and DERIVE leave on that input
(w below: FREQ the counts, a trie of exactly its byte values, its codes). The unit is the trie in pre-order, the length and
the codes in input order, 10r - 1 + 32 + P bits. Where it fits in OBUF the whole unit stands there from index 0, zero pad to
a byte; where it does not, COMPRESS raises OUTPUT_OVERFLOW with OUT_LEN, what it wrote before kept (R207). RPOS, RESULT, DLEN
and everything else not named keep their values. -/
def Obligations.CompressWritesTheUnit : Prop :=
  ∀ s : State, s.inLen ≠ 0 → s.inLen.toNat ≤ s.capIn.toNat →
    ∃ u v w t tr bits, exec .tabulate s = .next u ∧ exec .build u = .next v ∧ exec .derive v = .next w ∧
      (∀ b : Byte, (w.freqOf b).toNat = s.inBytes.count b) ∧
      w.trie = some tr ∧ tr.leaves.Nodup ∧ (∀ b, b ∈ tr.leaves ↔ b ∈ s.inBytes) ∧ w.holdsCodes tr ∧
      bits = tr.bits ++ msbBits s.inLen ++ s.inBytes.flatMap w.code ∧
      bits.length = 10 * tr.leaves.length - 1 + 32 + (s.inBytes.map fun b => (w.codeLenOf b).len.toNat).sum ∧
      exec .compress s = .next t ∧
      (bits.length ≤ 8 * s.capOut.toNat →
        t = finished (tablesOf (s.withPackerOf t) w) ∧ t.outLen.toNat = (bits.length + 7) / 8 ∧
        t.outBytes.flatMap msbBits = bits ++ List.replicate ((8 - bits.length % 8) % 8) false ∧
        t.wcnt = 0 ∧ t.wacc = 0) ∧
      (8 * s.capOut.toNat < bits.length →
        t = failed (tablesOf (s.withPackerOf t) w) .outputOverflow 0 t.outLen ∧
        t.packed <+: bits ∧ t.outLen.toNat ≤ s.capOut.toNat) ∧
      ∀ a, t.outLen.toNat ≤ a → t.obufByte a = s.obufByte a

/-- R156 (a): two machines with the same input (and the same output capacity and EMPTY_MODE) whose COMPRESS starts a unit
produce the same bytes and the same outcome, whatever else their states hold. -/
def Obligations.CompressDependsOnlyOnItsInput : Prop :=
  ∀ s s' t t' : State, s.inLen = s'.inLen → s.inBytes = s'.inBytes → s.emptyMode = s'.emptyMode →
    s.capOut = s'.capOut → s.done = false → s'.done = false → ¬(s.inLen = 0 ∧ s.emptyMode = true) →
    exec .compress s = .next t → exec .compress s' = .next t' →
    t.outBytes = t'.outBytes ∧ t.outLen = t'.outLen ∧ t.wacc = t'.wacc ∧ t.wcnt = t'.wcnt ∧ t.done = t'.done

/-! ### The decoder -/

/-- R170, R171, R178: where the stream holds a serialized trie with distinct symbols from RPOS, DESERIALIZE leaves that
trie, rooted at index 0, with NNODES = 2k - 1, NLEAVES = k for k leaves, every frequency 0, and RPOS after the trie's
last bit; entries from NNODES on and everything else keep their contents. -/
def Obligations.DeserializeReadsTheSerializedTrie : Prop :=
  ∀ (s : State) (tr : Trie), s.inLen.toNat ≤ s.capIn.toNat → tr.leaves.Nodup →
    s.rpos + tr.bits.length ≤ 8 * s.inLen.toNat → s.streamBits s.rpos tr.bits.length = tr.bits →
    ∃ t, exec .deserialize s = .next t ∧
      t = finished { readerAt s (s.rpos + tr.bits.length) with
        node := t.node, root := 0, nnodes := BitVec.ofNat 10 (2 * tr.leaves.length - 1)
        nleaves := BitVec.ofNat 9 tr.leaves.length, trieValid := true, codesValid := false } ∧
      t.trie = some tr ∧
      (∀ i e, i < 2 * tr.leaves.length - 1 → t.node[i]? = some e → e.freq = 0) ∧
      (∀ i, 2 * tr.leaves.length - 1 ≤ i → t.node[i]? = s.node[i]?)

/-- A field of a serialized trie that is a leaf's byte; the markers have one bit (R171). -/
def Sys2Proof.Claims.isByteField (f : List Bool) : Bool := f.length == 8

/-- A field that completes the reading of a node: an internal marker, or a leaf's byte (R171). -/
def Sys2Proof.Claims.isNodeField (f : List Bool) : Bool := f == [false] || isByteField f

/-- t is s after a DESERIALIZE that read these fields, stands at bit p and raised CORRUPT_TRIE with this sub-cause: NNODES
and NLEAVES count the nodes read, and NODE changes below NNODES alone (R170, R203, R207). -/
def Sys2Proof.Claims.parseFails (s t : State) (read : List (List Bool)) (p : Nat) (sub : BitVec 4) : Prop :=
  t = failed { readerAt s p with
    node := t.node, root := 0, nnodes := BitVec.ofNat 10 (read.countP isNodeField)
    nleaves := BitVec.ofNat 9 (read.countP isByteField), trieValid := false, codesValid := false }
    .corruptTrie sub (BitVec.ofNat 32 (p / 8)) ∧
  ∀ i, read.countP isNodeField ≤ i → t.node[i]? = s.node[i]?

/-- R172: where IN_LEN ends the stream inside a serialized trie, DESERIALIZE raises CORRUPT_TRIE sub 0. The fields before the
one that cannot be read (a marker, or a byte of which k of 8 bits are there) are read and their nodes allocated; the failing
read consumes nothing, so RPOS is the position of that field and ERRINFO its RPOS_BYTE. Entries from NNODES on and everything
else keep their contents. -/
def Obligations.StreamEndInsideATrieIsCorruptTrie : Prop :=
  ∀ (s : State) (tr : Trie) (read rest : List (List Bool)) (field : List Bool) (k : Nat),
    s.inLen.toNat ≤ s.capIn.toNat → tr.leaves.Nodup → tr.fields = read ++ field :: rest → k < field.length →
    s.rpos + read.flatten.length + k = 8 * s.inLen.toNat →
    s.streamBits s.rpos (read.flatten.length + k) = read.flatten ++ field.take k →
    ∃ t, exec .deserialize s = .next t ∧ parseFails s t read (s.rpos + read.flatten.length) 0

/-- R173: a 256th internal marker, wherever the markers and leaves before it stand, raises CORRUPT_TRIE sub 1, RPOS just
after it; the 255 internal nodes and the leaves before it are allocated, and it is not. Any trie's pre-order (with 256
internal nodes or more, so no trie of distinct symbols) gives the fields; the leaf symbols up to the marker are distinct. -/
def Obligations.ManyInternalNodesAreCorruptTrie : Prop :=
  ∀ (s : State) (tr : Trie) (read rest : List (List Bool)),
    s.inLen.toNat ≤ s.capIn.toNat → tr.fields = read ++ [false] :: rest → read.count [false] = 255 →
    (read.filter isByteField).Nodup → s.rpos + (read.flatten.length + 1) ≤ 8 * s.inLen.toNat →
    s.streamBits s.rpos (read.flatten.length + 1) = read.flatten ++ [false] →
    ∃ t, exec .deserialize s = .next t ∧ parseFails s t read (s.rpos + (read.flatten.length + 1)) 1

/-- R174: the first leaf of a serialized trie whose byte repeats an earlier leaf's raises CORRUPT_TRIE sub 2, RPOS just after
the byte; the nodes before it are allocated and it is not. -/
def Obligations.RepeatedLeafSymbolIsCorruptTrie : Prop :=
  ∀ (s : State) (tr : Trie) (read rest : List (List Bool)) (b : Byte),
    s.inLen.toNat ≤ s.capIn.toNat → tr.fields = read ++ msbBits b :: rest → msbBits b ∈ read →
    (read.filter isByteField).Nodup → read.count [false] ≤ 255 →
    s.rpos + (read.flatten.length + 8) ≤ 8 * s.inLen.toNat →
    s.streamBits s.rpos (read.flatten.length + 8) = read.flatten ++ msbBits b →
    ∃ t, exec .deserialize s = .next t ∧ parseFails s t read (s.rpos + (read.flatten.length + 8)) 2

/-- R175 to R177: where the stream holds the codes of ARG symbols from RPOS and the decoded bytes fit, DECODE appends the
symbols as bytes, sets DLEN and DCOUNT to ARG, moves RPOS past the codes, and changes nothing else. -/
def Obligations.DecodeAppendsTheDecodedSymbols : Prop :=
  ∀ (s : State) (tr : Trie) (ps : List (Byte × List Bool)),
    s.trieValid = true → s.trie = some tr → (∀ p ∈ ps, p ∈ tr.codes) → ps.length = s.arg.toNat →
    s.inLen.toNat ≤ s.capIn.toNat → s.rpos + (ps.flatMap fun p => p.2).length ≤ 8 * s.inLen.toNat →
    s.streamBits s.rpos (ps.flatMap fun p => p.2).length = ps.flatMap (fun p => p.2) → fits s (8 * ps.length) →
    ∃ t, exec .decode s = .next t ∧
      t = finished { (readerAt s (s.rpos + (ps.flatMap fun p => p.2).length)).withPackerOf t with
        dlen := s.arg, dcount := s.arg } ∧
      appended s t (ps.flatMap fun p => msbBits p.1)

/-- R175, R176, R207: where the stream ends inside the walk of a later symbol, DECODE raises UNDERFLOW at the end of the
stream; the symbols before it stay emitted and counted, and the bits of the failed walk stay consumed. -/
def Obligations.DecodeKeepsWhatItEmittedBeforeUnderflow : Prop :=
  ∀ (s : State) (tr : Trie) (ps : List (Byte × List Bool)) (q : Byte × List Bool) (m : Nat),
    s.trieValid = true → s.trie = some tr → (∀ p ∈ ps, p ∈ tr.codes) → q ∈ tr.codes →
    ps.length < s.arg.toNat → m < q.2.length → s.inLen.toNat ≤ s.capIn.toNat →
    s.rpos + (ps.flatMap fun p => p.2).length + m = 8 * s.inLen.toNat →
    s.streamBits s.rpos ((ps.flatMap fun p => p.2).length + m) = ps.flatMap (fun p => p.2) ++ q.2.take m →
    fits s (8 * ps.length) →
    ∃ t, exec .decode s = .next t ∧
      t = failed { (readerAt s (8 * s.inLen.toNat)).withPackerOf t with
        dlen := s.arg, dcount := BitVec.ofNat 32 ps.length } .underflow 0 s.inLen ∧
      appended s t (ps.flatMap fun p => msbBits p.1)

/-- R180: where IBUF holds a compressed unit from bit 0 (a trie with distinct symbols, the length N, the codes of N
symbols) and N bytes fit, EXPAND writes the symbols from OBUF[0], whatever follows the payload (R67). -/
def Obligations.ExpandDecodesTheUnit : Prop :=
  ∀ (s : State) (tr : Trie) (n : Word) (ps : List (Byte × List Bool)) (bits : List Bool),
    bits = tr.bits ++ msbBits n ++ ps.flatMap (fun p => p.2) → tr.leaves.Nodup → (∀ p ∈ ps, p ∈ tr.codes) →
    ps.length = n.toNat → n.toNat ≤ s.capOut.toNat → s.inLen.toNat ≤ s.capIn.toNat →
    bits.length ≤ 8 * s.inLen.toNat → s.streamBits 0 bits.length = bits →
    ∃ t, exec .expand s = .next t ∧
      t = finished { (readerAt s bits.length).withPackerOf t with
        node := t.node, root := 0, nnodes := BitVec.ofNat 10 (2 * tr.leaves.length - 1)
        nleaves := BitVec.ofNat 9 tr.leaves.length, trieValid := true, codesValid := false
        dlen := n, dcount := n } ∧
      t.trie = some tr ∧ t.outLen = n ∧ t.outBytes = ps.map (fun p => p.1) ∧ t.wcnt = 0 ∧ t.wacc = 0 ∧
      ∀ a, n.toNat ≤ a → t.obufByte a = s.obufByte a

/-- R181, first half: EXPAND either ends with DONE and exactly DLEN whole bytes in OBUF, or with ERR. -/
def Obligations.ExpandEndsWholeOrWithErr : Prop :=
  ∀ s t : State, s.done = false → s.err = false → exec .expand s = .next t →
    (t.done = true ∧ t.err = false ∧ t.outLen = t.dlen ∧ t.dcount = t.dlen ∧ t.wcnt = 0) ∨
    (t.done = false ∧ t.err = true)

/-- R156 (c): EXPAND of the bytes a successful COMPRESS wrote gives back the input, the empty one included, in every
instance with room for the input. -/
def Obligations.ExpandUndoesCompress : Prop :=
  ∀ s t u : State, s.inLen.toNat ≤ s.capIn.toNat → s.done = false → exec .compress s = .next t → t.done = true →
    u.inBytes = t.outBytes → u.inLen.toNat ≤ u.capIn.toNat → s.inLen.toNat ≤ u.capOut.toNat →
    ∃ v, exec .expand u = .next v ∧ v.done = true ∧ v.err = u.err ∧ v.outBytes = s.inBytes ∧
      v.dlen = s.inLen ∧ v.dcount = s.inLen ∧ v.wcnt = 0

/-- R181, second half: EXPAND of a unit that COMPRESS wrote, cut to fewer bytes, ends with ERR: CORRUPT_TRIE or
UNDERFLOW. -/
def Obligations.TruncatedUnitDoesNotExpand : Prop :=
  ∀ (s t u : State) (k : Nat), s.inLen.toNat ≤ s.capIn.toNat → s.done = false → exec .compress s = .next t →
    t.done = true → k < t.outLen.toNat → u.inBytes = t.outBytes.take k → u.inLen.toNat ≤ u.capIn.toNat →
    s.inLen.toNat ≤ u.capOut.toNat →
    ∃ v, exec .expand u = .next v ∧ v.err = true ∧ v.done = u.done ∧
      (v.errCode = .corruptTrie ∨ v.errCode = .underflow)

/-! ### Rules about every command -/

/-- R244, R252, R28, R29, R32: no command changes IBUF, IN_LEN, CTRL, ARG, LAST_CMD or the capacities, or anything of the
HOST's own side. -/
def Obligations.NoCommandTouchesTheHostsState : Prop :=
  ∀ (i : Instr) (s t : State), exec i s = .next t →
    t.ibuf = s.ibuf ∧ t.inLen = s.inLen ∧ t.emptyMode = s.emptyMode ∧ t.ieDone = s.ieDone ∧ t.ieErr = s.ieErr ∧
    t.ieHaz = s.ieHaz ∧ t.arg = s.arg ∧ t.lastCmd = s.lastCmd ∧ t.capIn = s.capIn ∧ t.capOut = s.capOut ∧
    t.resetCount = s.resetCount ∧ t.draws = s.draws ∧ t.schedule = s.schedule ∧ t.portData = s.portData

/-- R30, R33 to R39, R42 to R45, R48, R209: each register and table changes only under the commands its rule names. -/
def Obligations.EachTableHasItsOwnWriters : Prop :=
  ∀ (i : Instr) (s t : State), exec i s = .next t →
    (i ∉ [.rbit, .rbyte, .rint, .clear] → t.result = s.result) ∧
    (i ∉ [.tabulate, .compress, .clear] → t.freq = s.freq ∧ t.freqValid = s.freqValid) ∧
    (i ∉ [.build, .deserialize, .compress, .expand, .clear] → t.node = s.node ∧ t.root = s.root ∧
      t.nnodes = s.nnodes ∧ t.nleaves = s.nleaves ∧ t.trieValid = s.trieValid) ∧
    (i ∉ [.derive, .compress, .clear] → t.codeLen = s.codeLen ∧ t.codeBits = s.codeBits) ∧
    (i ∉ [.build, .derive, .deserialize, .compress, .expand, .clear] → t.codesValid = s.codesValid) ∧
    (i ∉ [.rbit, .rbyte, .rint, .deserialize, .decode, .expand, .clear] →
      t.rposByte = s.rposByte ∧ t.rposBit = s.rposBit) ∧
    (i ∉ [.decode, .expand, .clear] → t.dlen = s.dlen ∧ t.dcount = s.dcount) ∧
    (i ≠ .clear → t.haz = s.haz) ∧
    (i ∈ [.nop, .rbit, .rbyte, .rint, .tabulate, .build, .derive, .deserialize] → t = t.withPackerOf s) ∧
    (i = .clear → t.obuf = s.obuf)

/-- R247, R111, R62: a command other than COMPRESS, EXPAND and CLEAR only appends to the packer, and no byte of OBUF below
the old OUT_LEN or at or past the new one changes; under every command OUT_LEN stays within OBUF. -/
def Obligations.PackerOnlyGrows : Prop :=
  ∀ (i : Instr) (s t : State), s.outLen.toNat ≤ s.capOut.toNat → exec i s = .next t →
    t.outLen.toNat ≤ t.capOut.toNat ∧
    (∀ a, t.outLen.toNat ≤ a → s.outLen.toNat ≤ a → t.obufByte a = s.obufByte a) ∧
    (i ∉ [.compress, .expand, .clear] → s.packed <+: t.packed ∧ s.outLen.toNat ≤ t.outLen.toNat ∧
      ∀ a, a < s.outLen.toNat → t.obufByte a = s.obufByte a)

/-- R201 "raised by": the errors each command can end with. -/
def Sys2Proof.Claims.raisedBy : Instr → List ErrCode
  | .nop | .clear | .tabulate => []
  | .wbit _ | .wbyte _ | .wint | .flush => [.outputOverflow]
  | .rbit | .rbyte | .rint => [.underflow]
  | .build => [.notReady, .emptyInput]
  | .derive => [.notReady]
  | .serialize => [.notReady, .outputOverflow]
  | .encode => [.notReady, .noCode, .outputOverflow]
  | .deserialize => [.corruptTrie]
  | .decode => [.notReady, .underflow, .outputOverflow]
  | .compress => [.emptyInput, .outputOverflow]
  | .expand => [.corruptTrie, .underflow, .outputOverflow]

/-- R201: a command ends with no error but those the table of error codes names it for; COMPRESS, which runs the bodies of
BUILD and ENCODE, can meet neither NOT_READY nor NO_CODE. -/
def Obligations.CommandsRaiseOnlyTheirOwnErrors : Prop :=
  ∀ (i : Instr) (s t : State), s.err = false → exec i s = .next t → t.err = true → t.errCode ∈ raisedBy i

/-! ### The invariant -/

/-- Every reset leaves the invariant, in every instance with capacities of at least 1 (R6). -/
def Obligations.ResetMeetsTheInvariant : Prop :=
  State.reset.Inv ∧
  ∀ (capIn capOut : Word) (n : Nat), 1 ≤ capIn.toNat → 1 ≤ capOut.toNat → (State.afterReset capIn capOut n).Inv

/-- R26, R32, R33, R35, R48, R204 to R206: every step of the HOST, the ENGINE or the reset input keeps what the registers
and buffers always satisfy. -/
def Obligations.StepKeepsThePortInvariant : Prop :=
  ∀ s t : State, s.PortInv → step s = .next t → t.PortInv

/-- R26, R44, R48: every step keeps the whole invariant: a valid bit always vouches for its table. -/
def Obligations.StepKeepsTheInvariant : Prop :=
  ∀ s t : State, s.Inv → step s = .next t → t.Inv

/-- R250 (every issued command completes) and 93_implementation_defined.md section 2 (nothing is a fault): from a state
that meets the invariant no step stops. -/
def Obligations.InvariantStatesNeverStop : Prop :=
  ∀ s : State, s.Inv → safeStep s

/-! ### The HOST's ports -/

/-- R24, R42 to R45: the offset of every register and of every table word, each written out; every one is aligned and names
its word alone, an aligned mapped offset is that of the word it names, and every other aligned offset is unmapped. -/
def Obligations.RegisterMapIsOneToOne : Prop :=
  (∀ r : Reg, targetOffset (.reg r) = match r with
    | .cmd => 0x000 | .status => 0x004 | .ctrl => 0x008 | .arg => 0x00C | .result => 0x010 | .errInfo => 0x014
    | .inLen => 0x018 | .outLen => 0x01C | .rposByte => 0x020 | .rposBit => 0x024 | .wstate => 0x028
    | .trieInfo => 0x02C | .nleaves => 0x030 | .dlen => 0x034 | .dcount => 0x038 | .id => 0x03C | .capIn => 0x040
    | .capOut => 0x044) ∧
  (∀ i : Fin 256, targetOffset (.freq i) = 0x0400 + 4 * i.val ∧ targetOffset (.codeLen i) = 0x0800 + 4 * i.val) ∧
  (∀ i : Fin 511, targetOffset (.nodeW0 i) = 0x1000 + 8 * i.val ∧ targetOffset (.nodeW1 i) = 0x1000 + 8 * i.val + 4) ∧
  (∀ (i : Fin 256) (k : Fin 8), targetOffset (.codeBits i k) = 0x2000 + 32 * i.val + 4 * k.val) ∧
  (∀ x : Target, targetOffset x < 2 ^ 16 ∧ targetOffset x % 4 = 0 ∧ targetAt (targetOffset x) = some x) ∧
  (∀ (off : Nat) (x : Target), off % 4 = 0 → targetAt off = some x → targetOffset x = off) ∧
  ∀ off, off % 4 = 0 → (targetAt off = none ↔
    (0x048 ≤ off ∧ off < 0x0400) ∨ (0x0C00 ≤ off ∧ off < 0x1000) ∨ (0x1FF8 ≤ off ∧ off < 0x2000) ∨ 0x4000 ≤ off)

/-- Every word of the register port but STATUS, as its rule lays it out (R25, R28 to R45). -/
def Sys2Proof.Claims.wordsHoldTheirFields (s : State) : Prop :=
  s.readTarget (.reg .cmd) = s.lastCmd ∧ s.readTarget (.reg .status) = s.statusWord ∧
  (let v := s.readTarget (.reg .ctrl)
   v.getLsbD 0 = s.emptyMode ∧ v.getLsbD 1 = s.ieDone ∧ v.getLsbD 2 = s.ieErr ∧ v.getLsbD 3 = s.ieHaz ∧
     v.extractLsb' 4 28 = 0) ∧
  s.readTarget (.reg .arg) = s.arg ∧ s.readTarget (.reg .result) = s.result ∧
  s.readTarget (.reg .errInfo) = s.errInfo ∧ s.readTarget (.reg .inLen) = s.inLen ∧
  s.readTarget (.reg .outLen) = s.outLen ∧ s.readTarget (.reg .rposByte) = s.rposByte ∧
  (let v := s.readTarget (.reg .rposBit)
   v.extractLsb' 0 3 = s.rposBit ∧ v.extractLsb' 3 29 = 0) ∧
  (let v := s.readTarget (.reg .wstate)
   v.extractLsb' 0 8 = s.wacc ∧ v.extractLsb' 8 3 = s.wcnt ∧ v.extractLsb' 11 21 = 0) ∧
  (let v := s.readTarget (.reg .trieInfo)
   v.extractLsb' 0 9 = s.root ∧ v.extractLsb' 9 7 = 0 ∧ v.extractLsb' 16 10 = s.nnodes ∧ v.extractLsb' 26 6 = 0) ∧
  (let v := s.readTarget (.reg .nleaves)
   v.extractLsb' 0 9 = s.nleaves ∧ v.extractLsb' 9 23 = 0) ∧
  s.readTarget (.reg .dlen) = s.dlen ∧ s.readTarget (.reg .dcount) = s.dcount ∧
  s.readTarget (.reg .id) = 0x48554631 ∧ s.readTarget (.reg .capIn) = s.capIn ∧
  s.readTarget (.reg .capOut) = s.capOut ∧
  (∀ i : Fin 256, s.readTarget (.freq i) = s.freq[i]) ∧
  (∀ i : Fin 256, let v := s.readTarget (.codeLen i)
   v.extractLsb' 0 8 = s.codeLen[i].len ∧ v.getLsbD 8 = s.codeLen[i].present ∧ v.extractLsb' 9 23 = 0) ∧
  (∀ i : Fin Config.maxNodes, let v := s.readTarget (.nodeW0 i)
   v.getLsbD 31 = s.node[i].leaf ∧ v.extractLsb' 26 5 = 0 ∧ v.extractLsb' 17 9 = s.node[i].left ∧
     v.extractLsb' 8 9 = s.node[i].right ∧ v.extractLsb' 0 8 = s.node[i].sym ∧
     s.readTarget (.nodeW1 i) = s.node[i].freq) ∧
  (∀ (i : Fin 256) (k : Fin 8), s.readTarget (.codeBits i k) = s.codeBits[i][k]) ∧
  ∀ (i : Fin 256) (j : Fin 256), j.val < s.codeLen[i].len.toNat →
    (s.code (BitVec.ofNat 8 i.val))[j.val]? = some ((s.readTarget (.codeBits i ⟨j.val / 32, by omega⟩)).getLsbD (31 - j.val % 32))

/-- R23, R71: with BUSY = 0 an aligned read returns the word its offset names (the offsets: RegisterMapIsOneToOne), or 0
where it is unmapped, and changes no state of the HCC. The words, field by field (R25, R28 to R45; STATUS:
StatusWordHoldsItsFields): each field at its bits, every other bit 0. -/
def Obligations.IdleReadReturnsTheWord : Prop :=
  ∀ (s : State) (rest : List Event) (off : BitVec 16), s.schedule = .host (.regRead off) :: rest →
    s.pending = none → off.toNat % 4 = 0 →
    (∀ x, targetOffset x = off.toNat →
      step s = .next { s with schedule := rest, portData := some (.word (s.readTarget x)) }) ∧
    ((∀ x, targetOffset x ≠ off.toNat) → step s = .next { s with schedule := rest, portData := some (.word 0) }) ∧
    wordsHoldTheirFields s

/-- R75: with BUSY = 1 a read of STATUS, ID, CAP_IN or CAP_OUT is exact; any other aligned register-port read and any
buffer read returns the next unspecified draw (log 4), and no read changes a state of the HCC. -/
def Obligations.BusyReadIsExactOrUnspecified : Prop :=
  ∀ (s : State) (rest : List Event), s.pending.isSome = true →
    (∀ off : BitVec 16, s.schedule = .host (.regRead off) :: rest → off.toNat % 4 = 0 →
      (off = 0x004 → step s = .next { s with schedule := rest, portData := some (.word s.statusWord) }) ∧
      (off = 0x03C → step s = .next { s with schedule := rest, portData := some (.word 0x48554631) }) ∧
      (off = 0x040 → step s = .next { s with schedule := rest, portData := some (.word s.capIn) }) ∧
      (off = 0x044 → step s = .next { s with schedule := rest, portData := some (.word s.capOut) }) ∧
      (off ∉ [0x004, 0x03C, 0x040, 0x044] → step s = .next
        { s with schedule := rest, portData := some (.word (Config.busyWord s.draws)), draws := s.draws + 1 })) ∧
    (∀ a, s.schedule = .host (.ibufRead a) :: rest ∨ s.schedule = .host (.obufRead a) :: rest → step s = .next
      { s with schedule := rest, portData := some (.byte (Config.busyByte s.draws)), draws := s.draws + 1 })

/-- R69, R209: a misaligned register-port access is not performed: a read returns 0, a write has no effect, and either
sets HAZ. That a misaligned read returns 0 while BUSY = 1 too is the model's reading of R69 over R241 (log 4). -/
def Obligations.MisalignedAccessSetsHaz : Prop :=
  ∀ (s : State) (rest : List Event) (off : BitVec 16) (v : Word), off.toNat % 4 ≠ 0 →
    (s.schedule = .host (.regRead off) :: rest →
      step s = .next { s with schedule := rest, haz := true, portData := some (.word 0) }) ∧
    (s.schedule = .host (.regWrite off v) :: rest → step s = .next { s with schedule := rest, haz := true })

/-- R240, R209: with BUSY = 1 a write to CMD, CTRL, ARG, IN_LEN or an IBUF byte is dropped and sets HAZ. -/
def Obligations.BusyWriteIsDroppedWithHaz : Prop :=
  ∀ (s : State) (rest : List Event) (v : Word), s.pending.isSome = true →
    (∀ off : BitVec 16, off ∈ [0x000, 0x008, 0x00C, 0x018] → s.schedule = .host (.regWrite off v) :: rest →
      step s = .next { s with schedule := rest, haz := true }) ∧
    (∀ a b, a < s.capIn.toNat → s.schedule = .host (.ibufWrite a b) :: rest →
      step s = .next { s with schedule := rest, haz := true })

/-- R28, R29, R32: with BUSY = 0 a write to CTRL, ARG or IN_LEN stores its value, IN_LEN at most IBUF_BYTES. -/
def Obligations.IdleWriteStoresTheRegister : Prop :=
  ∀ (s : State) (rest : List Event) (v : Word), s.pending = none →
    (s.schedule = .host (.regWrite 0x008 v) :: rest → step s = .next { s with
      schedule := rest, emptyMode := v.getLsbD 0, ieDone := v.getLsbD 1, ieErr := v.getLsbD 2, ieHaz := v.getLsbD 3 }) ∧
    (s.schedule = .host (.regWrite 0x00C v) :: rest → step s = .next { s with schedule := rest, arg := v }) ∧
    (s.schedule = .host (.regWrite 0x018 v) :: rest → ∃ t, step s = .next t ∧
      t = { s with schedule := rest, inLen := t.inLen } ∧ t.inLen.toNat = min v.toNat s.capIn.toNat)

/-- R27: a STATUS write, busy or not, clears DONE, ERR and HAZ where the bit written is 1, and nothing else. -/
def Obligations.StatusWriteClearsTheBitsWritten : Prop :=
  ∀ (s : State) (rest : List Event) (v : Word), s.schedule = .host (.regWrite 0x004 v) :: rest →
    step s = .next { s with
      schedule := rest
      done := if v.getLsbD 1 then false else s.done
      err := if v.getLsbD 2 then false else s.err
      haz := if v.getLsbD 6 then false else s.haz }

/-- R46, R23: a write to any other aligned offset, a read-only register, a table window or an unmapped one, has no effect
and sets no HAZ; R62: neither has a write to OBUF. -/
def Obligations.ReadOnlyWordsIgnoreWrites : Prop :=
  ∀ (s : State) (rest : List Event),
    (∀ (off : BitVec 16) (v : Word), off.toNat % 4 = 0 → off ∉ [0x000, 0x004, 0x008, 0x00C, 0x018] →
      s.schedule = .host (.regWrite off v) :: rest → step s = .next { s with schedule := rest }) ∧
    (∀ a b, s.schedule = .host (.obufWrite a b) :: rest → step s = .next { s with schedule := rest })

/-- R61, R62, R70: with BUSY = 0 the HOST writes and reads IBUF bytes and reads OBUF bytes; past the capacity a read
returns 0 and a write has no effect, and neither sets HAZ. -/
def Obligations.IdleBufferAccess : Prop :=
  ∀ (s : State) (rest : List Event) (a : Nat) (b : Byte), s.pending = none →
    (s.schedule = .host (.ibufWrite a b) :: rest → a < s.capIn.toNat → ∃ t, step s = .next t ∧
      t = { s with schedule := rest, ibuf := t.ibuf } ∧
      ∀ x, t.ibufByte x = if x = a then b else s.ibufByte x) ∧
    (s.schedule = .host (.ibufWrite a b) :: rest → s.capIn.toNat ≤ a → step s = .next { s with schedule := rest }) ∧
    (s.schedule = .host (.ibufRead a) :: rest → step s = .next { s with
      schedule := rest, portData := some (.byte (if a < s.capIn.toNat then s.ibufByte a else 0)) }) ∧
    (s.schedule = .host (.obufRead a) :: rest → step s = .next { s with
      schedule := rest, portData := some (.byte (if a < s.capOut.toNat then s.obufByte a else 0)) })

/-- R26, R201: the fields of the STATUS word, each at its bits, the reserved bits 0. -/
def Obligations.StatusWordHoldsItsFields : Prop :=
  ∀ s : State,
    s.statusWord.getLsbD 0 = s.pending.isSome ∧ s.statusWord.getLsbD 1 = s.done ∧ s.statusWord.getLsbD 2 = s.err ∧
    s.statusWord.getLsbD 3 = s.freqValid ∧ s.statusWord.getLsbD 4 = s.trieValid ∧
    s.statusWord.getLsbD 5 = s.codesValid ∧ s.statusWord.getLsbD 6 = s.haz ∧ s.statusWord.getLsbD 7 = false ∧
    s.statusWord.extractLsb' 8 8 = (match s.errCode with
      | .noError => 0 | .underflow => 1 | .corruptTrie => 2 | .emptyInput => 3 | .illegalCmd => 4 | .notReady => 5
      | .outputOverflow => 6 | .noCode => 7) ∧
    s.statusWord.extractLsb' 16 4 = s.errSub ∧ s.statusWord.extractLsb' 20 12 = 0

/-- R47: IRQ is the level (DONE and IE_DONE) or (ERR and IE_ERR) or (HAZ and IE_HAZ) of the state, so it is as every step
leaves those bits. -/
def Obligations.IrqFollowsStatusAndEnables : Prop :=
  ∀ s : State, s.irq = true ↔
    (s.statusWord.getLsbD 1 = true ∧ s.ctrlWord.getLsbD 1 = true) ∨
    (s.statusWord.getLsbD 2 = true ∧ s.ctrlWord.getLsbD 2 = true) ∨
    (s.statusWord.getLsbD 6 = true ∧ s.ctrlWord.getLsbD 3 = true)
end

