-- ==== Sys2Proof/Laws/Bits.lean ====
section
/-! SUPPORT. Bit sequences and the numbers they denote (R8, R65), and the one-bit assignment. -/

namespace Sys2Proof.Machine

@[simp] theorem length_msbBits {n : Nat} (v : BitVec n) : (msbBits v).length = n := by simp [msbBits]

@[simp] theorem natOfBits_nil : natOfBits [] = 0 := rfl

theorem natOfBits_snoc (l : List Bool) (b : Bool) : natOfBits (l ++ [b]) = 2 * natOfBits l + b.toNat := by
  simp [natOfBits]

/-- Reading on from a value, as the loop of ReadBits does (R100). -/
theorem natOfBits_foldl (l : List Bool) (v : Nat) :
    l.foldl (fun v b => 2 * v + b.toNat) v = v * 2 ^ l.length + natOfBits l := by
  induction l generalizing v with
  | nil => simp
  | cons b l ih =>
    have h0 : natOfBits (b :: l) = b.toNat * 2 ^ l.length + natOfBits l := by
      show l.foldl _ (2 * 0 + b.toNat) = _
      rw [ih]; simp
    rw [List.foldl_cons, ih, h0, List.length_cons, Nat.pow_succ, Nat.add_mul]
    ring_nf

theorem natOfBits_cons (b : Bool) (l : List Bool) : natOfBits (b :: l) = b.toNat * 2 ^ l.length + natOfBits l := by
  show l.foldl _ (2 * 0 + b.toNat) = _
  rw [natOfBits_foldl]; simp

theorem natOfBits_lt (l : List Bool) : natOfBits l < 2 ^ l.length := by
  induction l with
  | nil => simp
  | cons b l ih =>
    rw [natOfBits_cons, List.length_cons, Nat.pow_succ]
    cases b <;> simp <;> omega

/-- A bit sequence is known by its length and its number. -/
theorem natOfBits_inj {l m : List Bool} (hlen : l.length = m.length) (h : natOfBits l = natOfBits m) : l = m := by
  induction l generalizing m with
  | nil => cases m <;> simp_all
  | cons b l ih =>
    cases m with
    | nil => simp at hlen
    | cons c m =>
      simp only [List.length_cons, Nat.add_right_cancel_iff] at hlen
      rw [natOfBits_cons, natOfBits_cons, hlen] at h
      have h1 := natOfBits_lt l
      have h2 := natOfBits_lt m
      rw [hlen] at h1
      have hbc : b = c := by cases b <;> cases c <;> simp at h ⊢ <;> omega
      subst hbc
      rw [ih hlen (by omega)]

theorem natOfBits_take_msbBits {n : Nat} (v : BitVec n) (k : Nat) (hk : k ≤ n) :
    natOfBits ((List.range k).map fun j => v.getMsbD j) = v.toNat / 2 ^ (n - k) := by
  induction k with
  | zero => simp [Nat.div_eq_of_lt v.isLt]
  | succ k ih =>
    rw [List.range_succ, List.map_append, List.map_singleton, natOfBits_snoc, ih (by omega)]
    have hbit : v.getMsbD k = v.toNat.testBit (n - 1 - k) := by
      simp [BitVec.getMsbD_eq_getLsbD, BitVec.getLsbD, show k < n by omega]
    have hm : n - k = (n - (k + 1)) + 1 := by omega
    rw [hbit, hm, Nat.pow_succ, ← Nat.div_div_eq_div_mul, show n - 1 - k = n - (k + 1) by omega,
      Nat.testBit_eq_decide_div_mod_eq]
    have := Nat.mod_two_eq_zero_or_one (v.toNat / 2 ^ (n - (k + 1)))
    rcases this with h | h <;> simp [h] <;> omega

/-- A field's bit sequence denotes its value (R65). -/
@[simp] theorem natOfBits_msbBits {n : Nat} (v : BitVec n) : natOfBits (msbBits v) = v.toNat := by
  have := natOfBits_take_msbBits v n (Nat.le_refl n)
  simpa [msbBits] using this

/-- The value read from a bit sequence is written as that sequence (R65, R110). -/
theorem msbBits_ofNat {n : Nat} {bits : List Bool} (h : bits.length = n) :
    msbBits (BitVec.ofNat n (natOfBits bits)) = bits := by
  apply natOfBits_inj
  · simp [h]
  · rw [natOfBits_msbBits, BitVec.toNat_ofNat, Nat.mod_eq_of_lt]
    exact h ▸ natOfBits_lt bits

theorem getLsbD_setBit {n : Nat} (x : BitVec n) (i j : Nat) (b : Bool) (hi : i < n) :
    (setBit x i b).getLsbD j = if j = i then b else x.getLsbD j := by
  by_cases hj : j < n
  · unfold setBit
    cases b <;> by_cases h : j = i <;>
      simp [h, hi, hj] <;> omega
  · have : j ≠ i := by omega
    simp [this, BitVec.getLsbD_of_ge _ _ (Nat.le_of_not_lt hj)]

/-- The fields of a serialized trie are its bits. -/
@[simp] theorem Trie.flatten_fields (tr : Trie) : tr.fields.flatten = tr.bits := by
  induction tr with
  | leaf b => simp [Trie.fields, Trie.bits]
  | node l r hl hr => simp [Trie.fields, Trie.bits, hl, hr]

end Sys2Proof.Machine
end

