-- ==== Sys2Proof/Laws/Engine.lean ====
section
/-! SUPPORT. How the ENGINE's pseudocode runs: one equation per primitive of the monad, and what a command's end can be. -/

namespace Sys2Proof.Machine

variable {α β : Type}

@[simp] theorem run_pure (a : α) (s : State) : (pure a : Engine α) s = .ok a s := rfl

@[simp] theorem run_get (s : State) : (get : Engine State) s = .ok s s := rfl

@[simp] theorem run_set (t s : State) : (set t : Engine PUnit) s = .ok ⟨⟩ t := rfl

@[simp] theorem run_modify (f : State → State) (s : State) : (modify f : Engine PUnit) s = .ok ⟨⟩ (f s) := rfl

@[simp] theorem run_raise (e : ErrCode) (sub : BitVec 4) (info : Word) (s : State) :
    (raise e sub info : Engine α) s = .error (.error e sub info) s := rfl

@[simp] theorem run_stop (f : Fault) (s : State) : (stop f : Engine α) s = .error (.stop f) s := rfl

/-- A sequence of two statements: the second runs on what the first left, and a raise of the first ends both. -/
theorem run_bind (x : Engine α) (k : α → Engine β) (s : State) :
    (x >>= k) s = match x s with
      | .ok a t => k a t
      | .error r t => .error r t := by
  simp only [bind, EStateM.bind]
  cases x s <;> rfl

/-- Statements whose value is only passed on. -/
theorem run_map (f : α → β) (x : Engine α) (s : State) :
    (f <$> x) s = match x s with
      | .ok a t => .ok (f a) t
      | .error r t => .error r t := by
  simp only [Functor.map, EStateM.map]
  cases x s <;> rfl

theorem run_bind_ok {x : Engine α} {k : α → Engine β} {s t : State} {a : α} (h : x s = .ok a t) :
    (x >>= k) s = k a t := by
  rw [run_bind, h]

theorem run_bind_error {x : Engine α} {k : α → Engine β} {s t : State} {r : Raise} (h : x s = .error r t) :
    (x >>= k) s = .error r t := by
  rw [run_bind, h]

/-- A sequence that ends well ran both statements well. -/
theorem bind_ok_inv {x : Engine α} {k : α → Engine β} {s u : State} {b : β} (h : (x >>= k) s = .ok b u) :
    ∃ a t, x s = .ok a t ∧ k a t = .ok b u := by
  rw [run_bind] at h
  cases hx : x s with
  | ok a t => exact ⟨a, t, rfl, by simpa [hx] using h⟩
  | error r t => simp [hx] at h

/-- A sequence that ends early ended early in one of its statements. -/
theorem bind_error_inv {x : Engine α} {k : α → Engine β} {s u : State} {r : Raise} (h : (x >>= k) s = .error r u) :
    x s = .error r u ∨ ∃ a t, x s = .ok a t ∧ k a t = .error r u := by
  rw [run_bind] at h
  cases hx : x s with
  | ok a t => exact .inr ⟨a, t, rfl, by simpa [hx] using h⟩
  | error r' t => left; simpa [hx] using h

theorem runCommand_of_ok {body : Engine Unit} {s t : State} (h : body s = .ok () t) :
    runCommand body s = .next t.complete := by
  simp only [runCommand, EStateM.run, h]

theorem runCommand_of_error {body : Engine Unit} {s t : State} {e : ErrCode} {sub : BitVec 4} {info : Word}
    (h : body s = .error (.error e sub info) t) : runCommand body s = .next (t.raiseError e sub info) := by
  simp only [runCommand, EStateM.run, h]

theorem runCommand_of_stop {body : Engine Unit} {s t : State} {f : Fault} (h : body s = .error (.stop f) t) :
    runCommand body s = .fault f := by
  simp only [runCommand, EStateM.run, h]

/-- A command that answers a next state either ran to its end or raised (R205, R206). -/
theorem runCommand_next {body : Engine Unit} {s u : State} (h : runCommand body s = .next u) :
    (∃ t, body s = .ok () t ∧ u = t.complete) ∨
    ∃ e sub info t, body s = .error (.error e sub info) t ∧ u = t.raiseError e sub info := by
  unfold runCommand at h
  cases hb : body s with
  | ok a t => left; exact ⟨t, rfl, by simpa [EStateM.run, hb] using h.symm⟩
  | error r t =>
    cases r with
    | error e sub info => right; exact ⟨e, sub, info, t, rfl, by simpa [EStateM.run, hb] using h.symm⟩
    | stop f => simp [EStateM.run, hb] at h

/-- No command body is refused. -/
theorem runCommand_not_refused (body : Engine Unit) (s : State) (r : Refusal) : runCommand body s ≠ .refused r := by
  unfold runCommand
  split <;> simp

end Sys2Proof.Machine
end

