-- ==== Sys2Proof/Laws/Memory.lean ====
section
/-! SUPPORT. The laws of a buffer's contents: read after write, and that every operation keeps the canonical form. -/

namespace Sys2Proof.Machine

@[simp] theorem Memory.lookup_nil (a : Nat) : Memory.lookup [] a = none := rfl

theorem Memory.lookup_store_same (m : Memory) (a : Nat) (b : Byte) : (Memory.store m a b).lookup a = some b := by
  induction m with
  | nil => simp [Memory.store, Memory.lookup]
  | cons c m ih =>
    obtain ⟨k, v⟩ := c
    unfold Memory.store
    split
    · simp [Memory.lookup]
    · split
      · simp [Memory.lookup]
      · rename_i h1 h2
        have : k ≠ a := fun h => h2 h.symm
        simpa [Memory.lookup, this] using ih

theorem Memory.lookup_store_other (m : Memory) {a x : Nat} (b : Byte) (h : x ≠ a) :
    (Memory.store m a b).lookup x = m.lookup x := by
  induction m with
  | nil => simp [Memory.store, Memory.lookup, Ne.symm h]
  | cons c m ih =>
    obtain ⟨k, v⟩ := c
    unfold Memory.store
    split
    · simp [Memory.lookup, Ne.symm h]
    · split
      · rename_i h1 h2
        subst h2
        simp [Memory.lookup, Ne.symm h]
      · by_cases hk : k = x <;> simp [Memory.lookup, hk, ih]

/-- A byte's address is listed in a stored buffer only if it was listed or is the one stored to. -/
theorem Memory.mem_store {m : Memory} {a : Nat} {b : Byte} {c : Host.Cell} (h : c ∈ Memory.store m a b) :
    c = (a, b) ∨ c ∈ m := by
  induction m with
  | nil => left; simpa [Memory.store] using h
  | cons d m ih =>
    obtain ⟨k, v⟩ := d
    unfold Memory.store at h
    split at h
    · simpa using h
    · split at h
      · rcases List.mem_cons.mp h with h | h
        · exact .inl h
        · exact .inr (List.mem_cons_of_mem _ h)
      · rcases List.mem_cons.mp h with h | h
        · exact .inr (h ▸ List.mem_cons_self)
        · rcases ih h with h | h
          · exact .inl h
          · exact .inr (List.mem_cons_of_mem _ h)

theorem Memory.store_wf {m : Memory} (a : Nat) (b : Byte) (h : m.wf) : (Memory.store m a b).wf := by
  induction m with
  | nil => simp [Memory.store, Memory.wf]
  | cons d m ih =>
    obtain ⟨k, v⟩ := d
    have hd : ∀ c ∈ m, k < c.1 := (List.pairwise_cons.mp h).1
    have hm : Memory.wf m := (List.pairwise_cons.mp h).2
    unfold Memory.store
    split
    · rename_i hlt
      refine List.pairwise_cons.mpr ⟨fun c hc => ?_, h⟩
      rcases List.mem_cons.mp hc with hc | hc
      · subst hc; exact hlt
      · exact Nat.lt_trans hlt (hd c hc)
    · split
      · rename_i hnlt heq
        subst heq
        exact List.pairwise_cons.mpr ⟨hd, hm⟩
      · rename_i hnlt hne
        refine List.pairwise_cons.mpr ⟨fun c hc => ?_, ih hm⟩
        rcases Memory.mem_store hc with hc | hc
        · subst hc; simp only; omega
        · exact hd c hc

theorem Memory.store_below {m : Memory} {a n : Nat} (b : Byte) (h : m.below n) (ha : a < n) :
    (Memory.store m a b).below n := by
  intro c hc
  rcases Memory.mem_store hc with hc | hc
  · subst hc; exact ha
  · exact h c hc

theorem afterReset_memory_wf (capIn capOut : Word) (n : Nat) :
    (State.afterReset capIn capOut n).ibuf.wf ∧ (State.afterReset capIn capOut n).obuf.wf :=
  ⟨List.Pairwise.nil, List.Pairwise.nil⟩

/-- OBUF after a byte is stored (R62). -/
theorem obufByte_obufWrite (s : State) (i : Nat) (b : Byte) (a : Nat) :
    (s.obufWrite i b).obufByte a = if a = i then b else s.obufByte a := by
  unfold State.obufByte State.obufWrite
  split
  · rename_i h; subst h; simp [Memory.lookup_store_same]
  · rename_i h; simp [Memory.lookup_store_other _ _ h]

/-- Equal contents in the canonical form are equal data. -/
theorem Memory.ext_lookup {m m' : Memory} (h : m.wf) (h' : m'.wf) (hl : ∀ a, m.lookup a = m'.lookup a) : m = m' := by
  have none_of_lt : ∀ (m : Memory) (k : Nat), (∀ c ∈ m, k < c.1) → m.lookup k = none := by
    intro m k hk
    induction m with
    | nil => rfl
    | cons c m ih =>
      obtain ⟨k', v⟩ := c
      have : k' ≠ k := by have := hk (k', v) List.mem_cons_self; simp only at this; omega
      simp only [Memory.lookup, this, if_false]
      exact ih fun c hc => hk c (List.mem_cons_of_mem _ hc)
  induction m generalizing m' with
  | nil =>
    cases m' with
    | nil => rfl
    | cons c m' => obtain ⟨k, v⟩ := c; have := hl k; simp [Memory.lookup] at this
  | cons c m ih =>
    obtain ⟨k, v⟩ := c
    cases m' with
    | nil => have := hl k; simp [Memory.lookup] at this
    | cons c' m' =>
      obtain ⟨k', v'⟩ := c'
      have hd := (List.pairwise_cons.mp h).1
      have hd' := (List.pairwise_cons.mp h').1
      have hkk : k = k' := by
        rcases Nat.lt_trichotomy k k' with hlt | heq | hgt
        · have h1 := hl k
          have : Memory.lookup ((k', v') :: m') k = none :=
            none_of_lt _ _ fun c hc => by
              rcases List.mem_cons.mp hc with hc | hc
              · subst hc; exact hlt
              · exact Nat.lt_trans hlt (hd' c hc)
          rw [this] at h1
          simp [Memory.lookup] at h1
        · exact heq
        · have h1 := hl k'
          have : Memory.lookup ((k, v) :: m) k' = none :=
            none_of_lt _ _ fun c hc => by
              rcases List.mem_cons.mp hc with hc | hc
              · subst hc; exact hgt
              · exact Nat.lt_trans hgt (hd c hc)
          rw [this] at h1
          simp [Memory.lookup] at h1
      subst hkk
      have hv : v = v' := by have := hl k; simpa [Memory.lookup] using this
      subst hv
      congr 1
      refine ih (List.pairwise_cons.mp h).2 (List.pairwise_cons.mp h').2 fun a => ?_
      by_cases hka : k = a
      · subst hka
        rw [none_of_lt m k hd, none_of_lt m' k hd']
      · have := hl a
        simpa [Memory.lookup, hka] using this

end Sys2Proof.Machine
end

