-- ==== Sys2Proof/Laws/Packer.lean ====
section
/-! SUPPORT. Everything the packer's primitives can do (R101, R102): what is appended, where OUT_LEN and WCNT stand
afterwards, which bytes of OBUF change, and the raise where a byte does not fit. -/

namespace Sys2Proof.Machine

/-- The number of bits written to the packer since it was last reset. -/
def State.wpos (s : State) : Nat := 8 * s.outLen.toNat + s.wcnt.toNat

theorem emitByte_outLen {s : State} (b : Byte) (h : s.outLen.toNat + 1 < 2 ^ 32) :
    (s.emitByte b).outLen.toNat = s.outLen.toNat + 1 := by
  simp only [State.emitByte, BitVec.toNat_add, BitVec.ofNat_eq_ofNat, BitVec.toNat_ofNat]
  omega

theorem obufByte_emitByte (s : State) (b : Byte) (a : Nat) :
    (s.emitByte b).obufByte a = if a = s.outLen.toNat then b else s.obufByte a :=
  obufByte_obufWrite s s.outLen.toNat b a

theorem outBytes_emitByte {s : State} (b : Byte) (h : s.outLen.toNat + 1 < 2 ^ 32) :
    (s.emitByte b).outBytes = s.outBytes ++ [b] := by
  simp only [State.outBytes, emitByte_outLen b h, List.range_succ, List.map_append, List.map_singleton]
  congr 1
  · apply List.map_congr_left
    intro a ha
    have := List.mem_range.mp ha
    rw [obufByte_emitByte, if_neg (by omega)]
  · rw [obufByte_emitByte, if_pos rfl]

/-- The pending bits after one more is put behind them. -/
theorem take_setBit (acc : Byte) (k : Nat) (b : Bool) (hk : k < 8) :
    (msbBits (setBit acc (7 - k) b)).take (k + 1) = (msbBits acc).take k ++ [b] := by
  have hl : ∀ (x : Byte) (m : Nat), m ≤ 8 → (msbBits x).take m = (List.range m).map fun j => x.getLsbD (7 - j) := by
    intro x m hm
    simp only [msbBits, ← List.map_take, List.take_range, Nat.min_eq_left hm]
    apply List.map_congr_left
    intro j hj
    have := List.mem_range.mp hj
    simp [BitVec.getMsbD_eq_getLsbD, show j < 8 by omega]
  rw [hl _ _ (by omega), hl _ _ (by omega), List.range_succ, List.map_append, List.map_singleton]
  congr 1
  · apply List.map_congr_left
    intro j hj
    have := List.mem_range.mp hj
    rw [getLsbD_setBit _ _ _ _ (by omega), if_neg (by omega)]
  · rw [getLsbD_setBit _ _ _ _ (by omega), if_pos rfl]

theorem pushBit_of_full {s : State} (b : Bool) (h : s.wcnt = 7) :
    s.pushBit b = s.emitByte (setBit s.wacc (7 - s.wcnt.toNat) b) := by
  unfold State.pushBit
  exact if_pos h

theorem pushBit_of_not_full {s : State} (b : Bool) (h : s.wcnt ≠ 7) :
    s.pushBit b = { s with wacc := setBit s.wacc (7 - s.wcnt.toNat) b, wcnt := s.wcnt + 1 } := by
  unfold State.pushBit
  exact if_neg h

theorem wcnt_succ {w : BitVec 3} (h : w ≠ 7) : (w + 1).toNat = w.toNat + 1 := by
  have h7 : w.toNat ≠ 7 := fun hc => h (BitVec.eq_of_toNat_eq (by simpa using hc))
  have := w.isLt
  simp only [BitVec.toNat_add, BitVec.ofNat_eq_ofNat, BitVec.toNat_ofNat]
  omega

@[simp] theorem withPackerOf_self (s : State) : s.withPackerOf s = s := rfl

@[simp] theorem withPackerOf_withPackerOf (s p q : State) : (s.withPackerOf p).withPackerOf q = s.withPackerOf q := rfl

/-- A bit pushed changes the packer and OBUF alone. -/
theorem pushBit_frame (s : State) (b : Bool) : s.pushBit b = s.withPackerOf (s.pushBit b) := by
  unfold State.pushBit
  split <;> rfl

theorem pushBit_wpos {s : State} (b : Bool) (h : (s.wpos + 1) / 8 < 2 ^ 32) :
    (s.pushBit b).wpos = s.wpos + 1 := by
  unfold State.wpos at *
  by_cases h7 : s.wcnt = 7
  · have h7' : s.wcnt.toNat = 7 := by rw [h7]; rfl
    rw [pushBit_of_full b h7, emitByte_outLen _ (by omega)]
    show 8 * (s.outLen.toNat + 1) + (0 : BitVec 3).toNat = _
    simp; omega
  · rw [pushBit_of_not_full b h7]
    simp only [wcnt_succ h7]
    omega

theorem pushBit_packed {s : State} (b : Bool) (h : (s.wpos + 1) / 8 < 2 ^ 32) :
    (s.pushBit b).packed = s.packed ++ [b] := by
  have hw := s.wcnt.isLt
  unfold State.wpos at h
  unfold State.packed
  by_cases h7 : s.wcnt = 7
  · have h7' : s.wcnt.toNat = 7 := by rw [h7]; rfl
    have ht := take_setBit s.wacc 7 b (by omega)
    rw [List.take_of_length_le (by simp)] at ht
    rw [pushBit_of_full b h7, outBytes_emitByte _ (by omega), h7', List.flatMap_append, List.append_assoc,
      List.append_assoc, ← ht]
    simp [State.emitByte]
  · rw [pushBit_of_not_full b h7]
    simp only [wcnt_succ h7, take_setBit s.wacc s.wcnt.toNat b (by omega), ← List.append_assoc]
    rfl

theorem pushBit_obufByte {s : State} (b : Bool) (h : (s.wpos + 1) / 8 < 2 ^ 32) {a : Nat}
    (ha : a < s.outLen.toNat ∨ (s.pushBit b).outLen.toNat ≤ a) : (s.pushBit b).obufByte a = s.obufByte a := by
  unfold State.wpos at h
  by_cases h7 : s.wcnt = 7
  · have h7' : s.wcnt.toNat = 7 := by rw [h7]; rfl
    rw [pushBit_of_full b h7] at ha ⊢
    rw [emitByte_outLen _ (by omega)] at ha
    rw [obufByte_emitByte, if_neg (by omega)]
  · rw [pushBit_of_not_full b h7]
    rfl

theorem pushBit_outLen_mono {s : State} (b : Bool) (h : (s.wpos + 1) / 8 < 2 ^ 32) :
    s.outLen.toNat ≤ (s.pushBit b).outLen.toNat := by
  have h1 := pushBit_wpos b h
  have h2 := (s.pushBit b).wcnt.isLt
  have h3 := s.wcnt.isLt
  unfold State.wpos at h1
  omega

@[simp] theorem pushBits_nil (s : State) : s.pushBits [] = s := rfl

@[simp] theorem pushBits_cons (s : State) (b : Bool) (l : List Bool) :
    s.pushBits (b :: l) = (s.pushBit b).pushBits l := rfl

theorem pushBits_append (s : State) (l m : List Bool) : s.pushBits (l ++ m) = (s.pushBits l).pushBits m := by
  simp [State.pushBits]

/-- Bits pushed change the packer and OBUF alone. -/
theorem pushBits_frame (s : State) (l : List Bool) : s.pushBits l = s.withPackerOf (s.pushBits l) := by
  induction l generalizing s with
  | nil => rfl
  | cons b l ih =>
    have h1 := ih (s.pushBit b)
    rw [pushBits_cons]
    generalize (s.pushBit b).pushBits l = u at h1 ⊢
    rw [h1, pushBit_frame s b]
    rfl

theorem pushBits_wpos {s : State} (l : List Bool) (h : (s.wpos + l.length) / 8 < 2 ^ 32) :
    (s.pushBits l).wpos = s.wpos + l.length := by
  induction l generalizing s with
  | nil => rfl
  | cons b l ih =>
    simp only [List.length_cons] at h
    have h1 := pushBit_wpos (s := s) b (by omega)
    rw [pushBits_cons, ih (by rw [h1]; omega), h1, List.length_cons]
    omega

/-- R111: pushing appends to the bit sequence written. -/
theorem pushBits_packed {s : State} (l : List Bool) (h : (s.wpos + l.length) / 8 < 2 ^ 32) :
    (s.pushBits l).packed = s.packed ++ l := by
  induction l generalizing s with
  | nil => simp
  | cons b l ih =>
    simp only [List.length_cons] at h
    have h1 := pushBit_wpos (s := s) b (by omega)
    rw [pushBits_cons, ih (by rw [h1]; omega), pushBit_packed b (by omega), List.append_assoc]
    rfl

theorem pushBits_outLen_mono {s : State} (l : List Bool) (h : (s.wpos + l.length) / 8 < 2 ^ 32) :
    s.outLen.toNat ≤ (s.pushBits l).outLen.toNat := by
  have h1 := pushBits_wpos l h
  have h2 := (s.pushBits l).wcnt.isLt
  have h3 := s.wcnt.isLt
  unfold State.wpos at h1
  omega

/-- Pushing changes OBUF only between the old OUT_LEN and the new one. -/
theorem pushBits_obufByte {s : State} (l : List Bool) (h : (s.wpos + l.length) / 8 < 2 ^ 32) {a : Nat}
    (ha : a < s.outLen.toNat ∨ (s.pushBits l).outLen.toNat ≤ a) : (s.pushBits l).obufByte a = s.obufByte a := by
  induction l generalizing s with
  | nil => rfl
  | cons b l ih =>
    simp only [List.length_cons] at h
    have h1 := pushBit_wpos (s := s) b (by omega)
    have h2 := pushBit_outLen_mono (s := s) b (by omega)
    have h3 := pushBits_outLen_mono (s := s.pushBit b) l (by rw [h1]; omega)
    rw [pushBits_cons] at ha ⊢
    rw [ih (by rw [h1]; omega) (by omega), pushBit_obufByte b (by omega) (by omega)]

/-- Room in OBUF keeps every position within 32 bits. -/
theorem wpos_lt_of_hasRoom {s : State} {n : Nat} (h : s.hasRoom n) : (s.wpos + n) / 8 < 2 ^ 32 := by
  have h1 := s.capOut.isLt
  unfold State.wpos
  have h2 : s.outLen.toNat + (s.wcnt.toNat + n) / 8 ≤ s.capOut.toNat := h
  omega

/-- `WriteBits(n, v)` where its bytes fit (R101). -/
theorem writeBits_ok {n : Nat} {v : BitVec n} {s : State} (h : s.hasRoom n) :
    writeBits v s = .ok ⟨⟩ (s.pushBits (msbBits v)) := by
  simp [writeBits, run_bind, h]

/-- `WriteBits(n, v)` where they do not (R101): OUTPUT_OVERFLOW, and no state changes. -/
theorem writeBits_overflow {n : Nat} {v : BitVec n} {s : State} (h : ¬s.hasRoom n) :
    writeBits v s = .error (.error .outputOverflow 0 s.outLen) s := by
  simp [writeBits, run_bind, h]

/-- Everything `WriteBits` can do. -/
theorem writeBits_cases {n : Nat} (v : BitVec n) (s : State) :
    (s.hasRoom n ∧ writeBits v s = .ok ⟨⟩ (s.pushBits (msbBits v))) ∨
    (¬s.hasRoom n ∧ writeBits v s = .error (.error .outputOverflow 0 s.outLen) s) := by
  by_cases h : s.hasRoom n
  · exact .inl ⟨h, writeBits_ok h⟩
  · exact .inr ⟨h, writeBits_overflow h⟩

/-- Everything `FlushBits` can do (R102). -/
theorem flushBits_cases (s : State) :
    (s.wcnt = 0 ∧ flushBits s = .ok ⟨⟩ s) ∨
    (s.wcnt ≠ 0 ∧ s.outLen = s.capOut ∧ flushBits s = .error (.error .outputOverflow 0 s.outLen) s) ∨
    (s.wcnt ≠ 0 ∧ s.outLen ≠ s.capOut ∧ flushBits s = .ok ⟨⟩ (s.emitByte s.wacc)) := by
  by_cases h : s.wcnt = 0
  · left; simp [flushBits, run_bind, h]
  · right
    by_cases h2 : s.outLen = s.capOut
    · left
      refine ⟨h, h2, ?_⟩
      rw [flushBits, run_bind_ok (run_get s), if_neg h, if_pos h2, run_raise]
    · right
      refine ⟨h, h2, ?_⟩
      rw [flushBits, run_bind_ok (run_get s), if_neg h, if_neg h2, run_set]

/-- Bits written in pieces fit wherever they fit together, and leave room for the rest. -/
theorem hasRoom_pushBits {s : State} {l : List Bool} {n : Nat} (h : s.hasRoom (l.length + n)) :
    (s.pushBits l).hasRoom n := by
  have h0 := wpos_lt_of_hasRoom h
  have h1 := pushBits_wpos (s := s) l (by omega)
  have h2 := (s.pushBits l).wcnt.isLt
  have h3 : (s.pushBits l).capOut = s.capOut := by rw [pushBits_frame]; rfl
  have h4 : s.outLen.toNat + (s.wcnt.toNat + (l.length + n)) / 8 ≤ s.capOut.toNat := h
  unfold State.wpos at h1
  show (s.pushBits l).outLen.toNat + ((s.pushBits l).wcnt.toNat + n) / 8 ≤ (s.pushBits l).capOut.toNat
  rw [h3]
  omega

theorem hasRoom_mono {s : State} {m n : Nat} (hmn : m ≤ n) (h : s.hasRoom n) : s.hasRoom m := by
  have : s.outLen.toNat + (s.wcnt.toNat + n) / 8 ≤ s.capOut.toNat := h
  show s.outLen.toNat + (s.wcnt.toNat + m) / 8 ≤ s.capOut.toNat
  omega

end Sys2Proof.Machine
end

