-- ==== Sys2Proof/Laws/PerInstr.lean ====
section
/-! SUPPORT. What is proved of each command as syntax: the family `CommandWord`, the three fields of its command word (R81)
and the reading of well-formedness as "no IMM8 bit it does not use" (R82). -/

namespace Sys2Proof.Laws

open Sys2Proof

theorem opField_word (op b : Byte) : opField (op ++ 0#16 ++ b) = op := by
  unfold opField
  ext i hi
  simp only [BitVec.getElem_extractLsb', BitVec.getLsbD_append]
  have h1 : ¬24 + i < 8 := by omega
  have h2 : ¬24 + i - 8 < 16 := by omega
  have h3 : 24 + i - 8 - 16 = i := by omega
  simp [h1, h2, h3, hi]

theorem rsvField_word (op b : Byte) : rsvField (op ++ 0#16 ++ b) = 0 := by
  unfold rsvField
  ext i hi
  simp only [BitVec.getElem_extractLsb', BitVec.getLsbD_append]
  have h1 : ¬8 + i < 8 := by omega
  simp [h1, show ¬16 ≤ i by omega]

theorem imm8Field_word (op b : Byte) : imm8Field (op ++ 0#16 ++ b) = b := by
  unfold imm8Field
  ext i hi
  simp only [BitVec.getElem_extractLsb', BitVec.getLsbD_append]
  simp [hi]

/-- R81, R82: the fields of the command's word, and what makes the command well formed. -/
def CommandWord.Statement (i : Instr) : Prop :=
  (opField (Sys2Proof.encode i) = opcode i ∧ rsvField (Sys2Proof.encode i) = 0 ∧
    imm8Field (Sys2Proof.encode i) = imm8Of i) ∧
  (i.wellFormed = true ↔ imm8Of i &&& ~~~immUsed i = 0)

theorem fields_word (i : Instr) :
    opField (Sys2Proof.encode i) = opcode i ∧ rsvField (Sys2Proof.encode i) = 0 ∧
      imm8Field (Sys2Proof.encode i) = imm8Of i :=
  ⟨opField_word _ _, rsvField_word _ _, imm8Field_word _ _⟩

theorem CommandWord.nop : CommandWord.Statement .nop := ⟨fields_word _, by decide⟩

theorem CommandWord.clear : CommandWord.Statement .clear := ⟨fields_word _, by decide⟩

theorem CommandWord.wbit (imm8 : Byte) : CommandWord.Statement (.wbit imm8) := by
  refine ⟨fields_word _, ?_⟩
  simp only [Instr.wellFormed, imm8Of, immUsed, beq_iff_eq]
  revert imm8
  decide

theorem CommandWord.wbyte (imm8 : Byte) : CommandWord.Statement (.wbyte imm8) := by
  refine ⟨fields_word _, ?_⟩
  simp [Instr.wellFormed, imm8Of, immUsed]

theorem CommandWord.wint : CommandWord.Statement .wint := ⟨fields_word _, by decide⟩

theorem CommandWord.flush : CommandWord.Statement .flush := ⟨fields_word _, by decide⟩

theorem CommandWord.rbit : CommandWord.Statement .rbit := ⟨fields_word _, by decide⟩

theorem CommandWord.rbyte : CommandWord.Statement .rbyte := ⟨fields_word _, by decide⟩

theorem CommandWord.rint : CommandWord.Statement .rint := ⟨fields_word _, by decide⟩

theorem CommandWord.tabulate : CommandWord.Statement .tabulate := ⟨fields_word _, by decide⟩

theorem CommandWord.build : CommandWord.Statement .build := ⟨fields_word _, by decide⟩

theorem CommandWord.derive : CommandWord.Statement .derive := ⟨fields_word _, by decide⟩

theorem CommandWord.serialize : CommandWord.Statement .serialize := ⟨fields_word _, by decide⟩

theorem CommandWord.encode : CommandWord.Statement .encode := ⟨fields_word _, by decide⟩

theorem CommandWord.deserialize : CommandWord.Statement .deserialize := ⟨fields_word _, by decide⟩

theorem CommandWord.decode : CommandWord.Statement .decode := ⟨fields_word _, by decide⟩

theorem CommandWord.compress : CommandWord.Statement .compress := ⟨fields_word _, by decide⟩

theorem CommandWord.expand : CommandWord.Statement .expand := ⟨fields_word _, by decide⟩

end Sys2Proof.Laws
end

