-- ==== Sys2Proof/Laws/State.lean ====
section
/-! SUPPORT. What each named update of the state leaves in each field, one equation per field, so that no proof unfolds a
record update: `simp` takes a conjunction apart into its equations. -/

namespace Sys2Proof.Machine

variable {n : Nat}

/-- R204. -/
@[simp] theorem issue_fields (s : State) (v : Word) :
    (s.issue v).capIn = s.capIn ∧ (s.issue v).capOut = s.capOut ∧ (s.issue v).pending = some v ∧
    (s.issue v).lastCmd = v ∧ (s.issue v).done = false ∧ (s.issue v).err = false ∧
    (s.issue v).freqValid = s.freqValid ∧ (s.issue v).trieValid = s.trieValid ∧
    (s.issue v).codesValid = s.codesValid ∧ (s.issue v).haz = s.haz ∧ (s.issue v).errCode = .noError ∧
    (s.issue v).errSub = 0 ∧ (s.issue v).emptyMode = s.emptyMode ∧ (s.issue v).ieDone = s.ieDone ∧
    (s.issue v).ieErr = s.ieErr ∧ (s.issue v).ieHaz = s.ieHaz ∧ (s.issue v).arg = s.arg ∧
    (s.issue v).result = s.result ∧ (s.issue v).errInfo = 0 ∧ (s.issue v).inLen = s.inLen ∧
    (s.issue v).outLen = s.outLen ∧ (s.issue v).rposByte = s.rposByte ∧ (s.issue v).rposBit = s.rposBit ∧
    (s.issue v).wacc = s.wacc ∧ (s.issue v).wcnt = s.wcnt ∧ (s.issue v).root = s.root ∧
    (s.issue v).nnodes = s.nnodes ∧ (s.issue v).nleaves = s.nleaves ∧ (s.issue v).dlen = s.dlen ∧
    (s.issue v).dcount = s.dcount ∧ (s.issue v).freq = s.freq ∧ (s.issue v).codeLen = s.codeLen ∧
    (s.issue v).codeBits = s.codeBits ∧ (s.issue v).node = s.node ∧ (s.issue v).ibuf = s.ibuf ∧
    (s.issue v).obuf = s.obuf ∧ (s.issue v).resetCount = s.resetCount ∧ (s.issue v).draws = s.draws ∧
    (s.issue v).schedule = s.schedule ∧ (s.issue v).portData = s.portData := by
  and_intros <;> rfl

/-- R205. -/
@[simp] theorem raiseError_fields (s : State) (e : ErrCode) (sub : BitVec 4) (info : Word) :
    (s.raiseError e sub info).capIn = s.capIn ∧ (s.raiseError e sub info).capOut = s.capOut ∧
    (s.raiseError e sub info).pending = none ∧ (s.raiseError e sub info).lastCmd = s.lastCmd ∧
    (s.raiseError e sub info).done = s.done ∧ (s.raiseError e sub info).err = true ∧
    (s.raiseError e sub info).freqValid = s.freqValid ∧ (s.raiseError e sub info).trieValid = s.trieValid ∧
    (s.raiseError e sub info).codesValid = s.codesValid ∧ (s.raiseError e sub info).haz = s.haz ∧
    (s.raiseError e sub info).errCode = e ∧ (s.raiseError e sub info).errSub = sub ∧
    (s.raiseError e sub info).emptyMode = s.emptyMode ∧ (s.raiseError e sub info).ieDone = s.ieDone ∧
    (s.raiseError e sub info).ieErr = s.ieErr ∧ (s.raiseError e sub info).ieHaz = s.ieHaz ∧
    (s.raiseError e sub info).arg = s.arg ∧ (s.raiseError e sub info).result = s.result ∧
    (s.raiseError e sub info).errInfo = info ∧ (s.raiseError e sub info).inLen = s.inLen ∧
    (s.raiseError e sub info).outLen = s.outLen ∧ (s.raiseError e sub info).rposByte = s.rposByte ∧
    (s.raiseError e sub info).rposBit = s.rposBit ∧ (s.raiseError e sub info).wacc = s.wacc ∧
    (s.raiseError e sub info).wcnt = s.wcnt ∧ (s.raiseError e sub info).root = s.root ∧
    (s.raiseError e sub info).nnodes = s.nnodes ∧ (s.raiseError e sub info).nleaves = s.nleaves ∧
    (s.raiseError e sub info).dlen = s.dlen ∧ (s.raiseError e sub info).dcount = s.dcount ∧
    (s.raiseError e sub info).freq = s.freq ∧ (s.raiseError e sub info).codeLen = s.codeLen ∧
    (s.raiseError e sub info).codeBits = s.codeBits ∧ (s.raiseError e sub info).node = s.node ∧
    (s.raiseError e sub info).ibuf = s.ibuf ∧ (s.raiseError e sub info).obuf = s.obuf ∧
    (s.raiseError e sub info).resetCount = s.resetCount ∧ (s.raiseError e sub info).draws = s.draws ∧
    (s.raiseError e sub info).schedule = s.schedule ∧ (s.raiseError e sub info).portData = s.portData := by
  and_intros <;> rfl

/-- R206. -/
@[simp] theorem complete_fields (s : State) :
    s.complete.capIn = s.capIn ∧ s.complete.capOut = s.capOut ∧ s.complete.pending = none ∧
    s.complete.lastCmd = s.lastCmd ∧ s.complete.done = true ∧ s.complete.err = s.err ∧
    s.complete.freqValid = s.freqValid ∧ s.complete.trieValid = s.trieValid ∧ s.complete.codesValid = s.codesValid ∧
    s.complete.haz = s.haz ∧ s.complete.errCode = s.errCode ∧ s.complete.errSub = s.errSub ∧
    s.complete.emptyMode = s.emptyMode ∧ s.complete.ieDone = s.ieDone ∧ s.complete.ieErr = s.ieErr ∧
    s.complete.ieHaz = s.ieHaz ∧ s.complete.arg = s.arg ∧ s.complete.result = s.result ∧
    s.complete.errInfo = s.errInfo ∧ s.complete.inLen = s.inLen ∧ s.complete.outLen = s.outLen ∧
    s.complete.rposByte = s.rposByte ∧ s.complete.rposBit = s.rposBit ∧ s.complete.wacc = s.wacc ∧
    s.complete.wcnt = s.wcnt ∧ s.complete.root = s.root ∧ s.complete.nnodes = s.nnodes ∧
    s.complete.nleaves = s.nleaves ∧ s.complete.dlen = s.dlen ∧ s.complete.dcount = s.dcount ∧
    s.complete.freq = s.freq ∧ s.complete.codeLen = s.codeLen ∧ s.complete.codeBits = s.codeBits ∧
    s.complete.node = s.node ∧ s.complete.ibuf = s.ibuf ∧ s.complete.obuf = s.obuf ∧
    s.complete.resetCount = s.resetCount ∧ s.complete.draws = s.draws ∧ s.complete.schedule = s.schedule ∧
    s.complete.portData = s.portData := by
  and_intros <;> rfl

/-- R34. -/
@[simp] theorem setRpos_fields (s : State) (p : Nat) :
    (s.setRpos p).capIn = s.capIn ∧ (s.setRpos p).capOut = s.capOut ∧ (s.setRpos p).pending = s.pending ∧
    (s.setRpos p).lastCmd = s.lastCmd ∧ (s.setRpos p).done = s.done ∧ (s.setRpos p).err = s.err ∧
    (s.setRpos p).freqValid = s.freqValid ∧ (s.setRpos p).trieValid = s.trieValid ∧
    (s.setRpos p).codesValid = s.codesValid ∧ (s.setRpos p).haz = s.haz ∧ (s.setRpos p).errCode = s.errCode ∧
    (s.setRpos p).errSub = s.errSub ∧ (s.setRpos p).emptyMode = s.emptyMode ∧ (s.setRpos p).ieDone = s.ieDone ∧
    (s.setRpos p).ieErr = s.ieErr ∧ (s.setRpos p).ieHaz = s.ieHaz ∧ (s.setRpos p).arg = s.arg ∧
    (s.setRpos p).result = s.result ∧ (s.setRpos p).errInfo = s.errInfo ∧ (s.setRpos p).inLen = s.inLen ∧
    (s.setRpos p).outLen = s.outLen ∧ (s.setRpos p).rposByte = BitVec.ofNat 32 (p / 8) ∧
    (s.setRpos p).rposBit = BitVec.ofNat 3 (p % 8) ∧ (s.setRpos p).wacc = s.wacc ∧ (s.setRpos p).wcnt = s.wcnt ∧
    (s.setRpos p).root = s.root ∧ (s.setRpos p).nnodes = s.nnodes ∧ (s.setRpos p).nleaves = s.nleaves ∧
    (s.setRpos p).dlen = s.dlen ∧ (s.setRpos p).dcount = s.dcount ∧ (s.setRpos p).freq = s.freq ∧
    (s.setRpos p).codeLen = s.codeLen ∧ (s.setRpos p).codeBits = s.codeBits ∧ (s.setRpos p).node = s.node ∧
    (s.setRpos p).ibuf = s.ibuf ∧ (s.setRpos p).obuf = s.obuf ∧ (s.setRpos p).resetCount = s.resetCount ∧
    (s.setRpos p).draws = s.draws ∧ (s.setRpos p).schedule = s.schedule ∧ (s.setRpos p).portData = s.portData := by
  and_intros <;> rfl

/-- R30. -/
@[simp] theorem setResult_fields (s : State) (v : BitVec n) :
    (s.setResult v).capIn = s.capIn ∧ (s.setResult v).capOut = s.capOut ∧ (s.setResult v).pending = s.pending ∧
    (s.setResult v).lastCmd = s.lastCmd ∧ (s.setResult v).done = s.done ∧ (s.setResult v).err = s.err ∧
    (s.setResult v).freqValid = s.freqValid ∧ (s.setResult v).trieValid = s.trieValid ∧
    (s.setResult v).codesValid = s.codesValid ∧ (s.setResult v).haz = s.haz ∧ (s.setResult v).errCode = s.errCode ∧
    (s.setResult v).errSub = s.errSub ∧ (s.setResult v).emptyMode = s.emptyMode ∧ (s.setResult v).ieDone = s.ieDone ∧
    (s.setResult v).ieErr = s.ieErr ∧ (s.setResult v).ieHaz = s.ieHaz ∧ (s.setResult v).arg = s.arg ∧
    (s.setResult v).result = v.zeroExtend 32 ∧ (s.setResult v).errInfo = s.errInfo ∧
    (s.setResult v).inLen = s.inLen ∧ (s.setResult v).outLen = s.outLen ∧ (s.setResult v).rposByte = s.rposByte ∧
    (s.setResult v).rposBit = s.rposBit ∧ (s.setResult v).wacc = s.wacc ∧ (s.setResult v).wcnt = s.wcnt ∧
    (s.setResult v).root = s.root ∧ (s.setResult v).nnodes = s.nnodes ∧ (s.setResult v).nleaves = s.nleaves ∧
    (s.setResult v).dlen = s.dlen ∧ (s.setResult v).dcount = s.dcount ∧ (s.setResult v).freq = s.freq ∧
    (s.setResult v).codeLen = s.codeLen ∧ (s.setResult v).codeBits = s.codeBits ∧ (s.setResult v).node = s.node ∧
    (s.setResult v).ibuf = s.ibuf ∧ (s.setResult v).obuf = s.obuf ∧ (s.setResult v).resetCount = s.resetCount ∧
    (s.setResult v).draws = s.draws ∧ (s.setResult v).schedule = s.schedule ∧ (s.setResult v).portData = s.portData := by
  and_intros <;> rfl

/-- R10. -/
@[simp] theorem obufWrite_fields (s : State) (i : Nat) (b : Byte) :
    (s.obufWrite i b).capIn = s.capIn ∧ (s.obufWrite i b).capOut = s.capOut ∧ (s.obufWrite i b).pending = s.pending ∧
    (s.obufWrite i b).lastCmd = s.lastCmd ∧ (s.obufWrite i b).done = s.done ∧ (s.obufWrite i b).err = s.err ∧
    (s.obufWrite i b).freqValid = s.freqValid ∧ (s.obufWrite i b).trieValid = s.trieValid ∧
    (s.obufWrite i b).codesValid = s.codesValid ∧ (s.obufWrite i b).haz = s.haz ∧
    (s.obufWrite i b).errCode = s.errCode ∧ (s.obufWrite i b).errSub = s.errSub ∧
    (s.obufWrite i b).emptyMode = s.emptyMode ∧ (s.obufWrite i b).ieDone = s.ieDone ∧
    (s.obufWrite i b).ieErr = s.ieErr ∧ (s.obufWrite i b).ieHaz = s.ieHaz ∧ (s.obufWrite i b).arg = s.arg ∧
    (s.obufWrite i b).result = s.result ∧ (s.obufWrite i b).errInfo = s.errInfo ∧ (s.obufWrite i b).inLen = s.inLen ∧
    (s.obufWrite i b).outLen = s.outLen ∧ (s.obufWrite i b).rposByte = s.rposByte ∧
    (s.obufWrite i b).rposBit = s.rposBit ∧ (s.obufWrite i b).wacc = s.wacc ∧ (s.obufWrite i b).wcnt = s.wcnt ∧
    (s.obufWrite i b).root = s.root ∧ (s.obufWrite i b).nnodes = s.nnodes ∧ (s.obufWrite i b).nleaves = s.nleaves ∧
    (s.obufWrite i b).dlen = s.dlen ∧ (s.obufWrite i b).dcount = s.dcount ∧ (s.obufWrite i b).freq = s.freq ∧
    (s.obufWrite i b).codeLen = s.codeLen ∧ (s.obufWrite i b).codeBits = s.codeBits ∧
    (s.obufWrite i b).node = s.node ∧ (s.obufWrite i b).ibuf = s.ibuf ∧
    (s.obufWrite i b).obuf = Memory.store s.obuf i b ∧ (s.obufWrite i b).resetCount = s.resetCount ∧
    (s.obufWrite i b).draws = s.draws ∧ (s.obufWrite i b).schedule = s.schedule ∧
    (s.obufWrite i b).portData = s.portData := by
  and_intros <;> rfl

/-- R101, R102. -/
@[simp] theorem emitByte_fields (s : State) (b : Byte) :
    (s.emitByte b).capIn = s.capIn ∧ (s.emitByte b).capOut = s.capOut ∧ (s.emitByte b).pending = s.pending ∧
    (s.emitByte b).lastCmd = s.lastCmd ∧ (s.emitByte b).done = s.done ∧ (s.emitByte b).err = s.err ∧
    (s.emitByte b).freqValid = s.freqValid ∧ (s.emitByte b).trieValid = s.trieValid ∧
    (s.emitByte b).codesValid = s.codesValid ∧ (s.emitByte b).haz = s.haz ∧ (s.emitByte b).errCode = s.errCode ∧
    (s.emitByte b).errSub = s.errSub ∧ (s.emitByte b).emptyMode = s.emptyMode ∧ (s.emitByte b).ieDone = s.ieDone ∧
    (s.emitByte b).ieErr = s.ieErr ∧ (s.emitByte b).ieHaz = s.ieHaz ∧ (s.emitByte b).arg = s.arg ∧
    (s.emitByte b).result = s.result ∧ (s.emitByte b).errInfo = s.errInfo ∧ (s.emitByte b).inLen = s.inLen ∧
    (s.emitByte b).outLen = s.outLen + 1 ∧ (s.emitByte b).rposByte = s.rposByte ∧
    (s.emitByte b).rposBit = s.rposBit ∧ (s.emitByte b).wacc = 0 ∧ (s.emitByte b).wcnt = 0 ∧
    (s.emitByte b).root = s.root ∧ (s.emitByte b).nnodes = s.nnodes ∧ (s.emitByte b).nleaves = s.nleaves ∧
    (s.emitByte b).dlen = s.dlen ∧ (s.emitByte b).dcount = s.dcount ∧ (s.emitByte b).freq = s.freq ∧
    (s.emitByte b).codeLen = s.codeLen ∧ (s.emitByte b).codeBits = s.codeBits ∧ (s.emitByte b).node = s.node ∧
    (s.emitByte b).ibuf = s.ibuf ∧ (s.emitByte b).obuf = Memory.store s.obuf s.outLen.toNat b ∧
    (s.emitByte b).resetCount = s.resetCount ∧ (s.emitByte b).draws = s.draws ∧
    (s.emitByte b).schedule = s.schedule ∧ (s.emitByte b).portData = s.portData := by
  and_intros <;> rfl

/-- R155, R180, R191. -/
@[simp] theorem resetPacker_fields (s : State) :
    s.resetPacker.capIn = s.capIn ∧ s.resetPacker.capOut = s.capOut ∧ s.resetPacker.pending = s.pending ∧
    s.resetPacker.lastCmd = s.lastCmd ∧ s.resetPacker.done = s.done ∧ s.resetPacker.err = s.err ∧
    s.resetPacker.freqValid = s.freqValid ∧ s.resetPacker.trieValid = s.trieValid ∧
    s.resetPacker.codesValid = s.codesValid ∧ s.resetPacker.haz = s.haz ∧ s.resetPacker.errCode = s.errCode ∧
    s.resetPacker.errSub = s.errSub ∧ s.resetPacker.emptyMode = s.emptyMode ∧ s.resetPacker.ieDone = s.ieDone ∧
    s.resetPacker.ieErr = s.ieErr ∧ s.resetPacker.ieHaz = s.ieHaz ∧ s.resetPacker.arg = s.arg ∧
    s.resetPacker.result = s.result ∧ s.resetPacker.errInfo = s.errInfo ∧ s.resetPacker.inLen = s.inLen ∧
    s.resetPacker.outLen = 0 ∧ s.resetPacker.rposByte = s.rposByte ∧ s.resetPacker.rposBit = s.rposBit ∧
    s.resetPacker.wacc = 0 ∧ s.resetPacker.wcnt = 0 ∧ s.resetPacker.root = s.root ∧ s.resetPacker.nnodes = s.nnodes ∧
    s.resetPacker.nleaves = s.nleaves ∧ s.resetPacker.dlen = s.dlen ∧ s.resetPacker.dcount = s.dcount ∧
    s.resetPacker.freq = s.freq ∧ s.resetPacker.codeLen = s.codeLen ∧ s.resetPacker.codeBits = s.codeBits ∧
    s.resetPacker.node = s.node ∧ s.resetPacker.ibuf = s.ibuf ∧ s.resetPacker.obuf = s.obuf ∧
    s.resetPacker.resetCount = s.resetCount ∧ s.resetPacker.draws = s.draws ∧ s.resetPacker.schedule = s.schedule ∧
    s.resetPacker.portData = s.portData := by
  and_intros <;> rfl

/-- R111. -/
@[simp] theorem withPackerOf_fields (s p : State) :
    (s.withPackerOf p).capIn = s.capIn ∧ (s.withPackerOf p).capOut = s.capOut ∧
    (s.withPackerOf p).pending = s.pending ∧ (s.withPackerOf p).lastCmd = s.lastCmd ∧
    (s.withPackerOf p).done = s.done ∧ (s.withPackerOf p).err = s.err ∧ (s.withPackerOf p).freqValid = s.freqValid ∧
    (s.withPackerOf p).trieValid = s.trieValid ∧ (s.withPackerOf p).codesValid = s.codesValid ∧
    (s.withPackerOf p).haz = s.haz ∧ (s.withPackerOf p).errCode = s.errCode ∧ (s.withPackerOf p).errSub = s.errSub ∧
    (s.withPackerOf p).emptyMode = s.emptyMode ∧ (s.withPackerOf p).ieDone = s.ieDone ∧
    (s.withPackerOf p).ieErr = s.ieErr ∧ (s.withPackerOf p).ieHaz = s.ieHaz ∧ (s.withPackerOf p).arg = s.arg ∧
    (s.withPackerOf p).result = s.result ∧ (s.withPackerOf p).errInfo = s.errInfo ∧
    (s.withPackerOf p).inLen = s.inLen ∧ (s.withPackerOf p).outLen = p.outLen ∧
    (s.withPackerOf p).rposByte = s.rposByte ∧ (s.withPackerOf p).rposBit = s.rposBit ∧
    (s.withPackerOf p).wacc = p.wacc ∧ (s.withPackerOf p).wcnt = p.wcnt ∧ (s.withPackerOf p).root = s.root ∧
    (s.withPackerOf p).nnodes = s.nnodes ∧ (s.withPackerOf p).nleaves = s.nleaves ∧
    (s.withPackerOf p).dlen = s.dlen ∧ (s.withPackerOf p).dcount = s.dcount ∧ (s.withPackerOf p).freq = s.freq ∧
    (s.withPackerOf p).codeLen = s.codeLen ∧ (s.withPackerOf p).codeBits = s.codeBits ∧
    (s.withPackerOf p).node = s.node ∧ (s.withPackerOf p).ibuf = s.ibuf ∧ (s.withPackerOf p).obuf = p.obuf ∧
    (s.withPackerOf p).resetCount = s.resetCount ∧ (s.withPackerOf p).draws = s.draws ∧
    (s.withPackerOf p).schedule = s.schedule ∧ (s.withPackerOf p).portData = s.portData := by
  and_intros <;> rfl

/-- R132, R170. -/
@[simp] theorem dropTrie_fields (s : State) :
    s.dropTrie.capIn = s.capIn ∧ s.dropTrie.capOut = s.capOut ∧ s.dropTrie.pending = s.pending ∧
    s.dropTrie.lastCmd = s.lastCmd ∧ s.dropTrie.done = s.done ∧ s.dropTrie.err = s.err ∧
    s.dropTrie.freqValid = s.freqValid ∧ s.dropTrie.trieValid = false ∧ s.dropTrie.codesValid = false ∧
    s.dropTrie.haz = s.haz ∧ s.dropTrie.errCode = s.errCode ∧ s.dropTrie.errSub = s.errSub ∧
    s.dropTrie.emptyMode = s.emptyMode ∧ s.dropTrie.ieDone = s.ieDone ∧ s.dropTrie.ieErr = s.ieErr ∧
    s.dropTrie.ieHaz = s.ieHaz ∧ s.dropTrie.arg = s.arg ∧ s.dropTrie.result = s.result ∧
    s.dropTrie.errInfo = s.errInfo ∧ s.dropTrie.inLen = s.inLen ∧ s.dropTrie.outLen = s.outLen ∧
    s.dropTrie.rposByte = s.rposByte ∧ s.dropTrie.rposBit = s.rposBit ∧ s.dropTrie.wacc = s.wacc ∧
    s.dropTrie.wcnt = s.wcnt ∧ s.dropTrie.root = 0 ∧ s.dropTrie.nnodes = 0 ∧ s.dropTrie.nleaves = 0 ∧
    s.dropTrie.dlen = s.dlen ∧ s.dropTrie.dcount = s.dcount ∧ s.dropTrie.freq = s.freq ∧
    s.dropTrie.codeLen = s.codeLen ∧ s.dropTrie.codeBits = s.codeBits ∧ s.dropTrie.node = s.node ∧
    s.dropTrie.ibuf = s.ibuf ∧ s.dropTrie.obuf = s.obuf ∧ s.dropTrie.resetCount = s.resetCount ∧
    s.dropTrie.draws = s.draws ∧ s.dropTrie.schedule = s.schedule ∧ s.dropTrie.portData = s.portData := by
  and_intros <;> rfl

/-- R130. -/
@[simp] theorem clearFreq_fields (s : State) :
    s.clearFreq.capIn = s.capIn ∧ s.clearFreq.capOut = s.capOut ∧ s.clearFreq.pending = s.pending ∧
    s.clearFreq.lastCmd = s.lastCmd ∧ s.clearFreq.done = s.done ∧ s.clearFreq.err = s.err ∧
    s.clearFreq.freqValid = s.freqValid ∧ s.clearFreq.trieValid = s.trieValid ∧
    s.clearFreq.codesValid = s.codesValid ∧ s.clearFreq.haz = s.haz ∧ s.clearFreq.errCode = s.errCode ∧
    s.clearFreq.errSub = s.errSub ∧ s.clearFreq.emptyMode = s.emptyMode ∧ s.clearFreq.ieDone = s.ieDone ∧
    s.clearFreq.ieErr = s.ieErr ∧ s.clearFreq.ieHaz = s.ieHaz ∧ s.clearFreq.arg = s.arg ∧
    s.clearFreq.result = s.result ∧ s.clearFreq.errInfo = s.errInfo ∧ s.clearFreq.inLen = s.inLen ∧
    s.clearFreq.outLen = s.outLen ∧ s.clearFreq.rposByte = s.rposByte ∧ s.clearFreq.rposBit = s.rposBit ∧
    s.clearFreq.wacc = s.wacc ∧ s.clearFreq.wcnt = s.wcnt ∧ s.clearFreq.root = s.root ∧
    s.clearFreq.nnodes = s.nnodes ∧ s.clearFreq.nleaves = s.nleaves ∧ s.clearFreq.dlen = s.dlen ∧
    s.clearFreq.dcount = s.dcount ∧ s.clearFreq.freq = Vector.replicate 256 0 ∧ s.clearFreq.codeLen = s.codeLen ∧
    s.clearFreq.codeBits = s.codeBits ∧ s.clearFreq.node = s.node ∧ s.clearFreq.ibuf = s.ibuf ∧
    s.clearFreq.obuf = s.obuf ∧ s.clearFreq.resetCount = s.resetCount ∧ s.clearFreq.draws = s.draws ∧
    s.clearFreq.schedule = s.schedule ∧ s.clearFreq.portData = s.portData := by
  and_intros <;> rfl

/-- R140. -/
@[simp] theorem clearCodes_fields (s : State) :
    s.clearCodes.capIn = s.capIn ∧ s.clearCodes.capOut = s.capOut ∧ s.clearCodes.pending = s.pending ∧
    s.clearCodes.lastCmd = s.lastCmd ∧ s.clearCodes.done = s.done ∧ s.clearCodes.err = s.err ∧
    s.clearCodes.freqValid = s.freqValid ∧ s.clearCodes.trieValid = s.trieValid ∧
    s.clearCodes.codesValid = s.codesValid ∧ s.clearCodes.haz = s.haz ∧ s.clearCodes.errCode = s.errCode ∧
    s.clearCodes.errSub = s.errSub ∧ s.clearCodes.emptyMode = s.emptyMode ∧ s.clearCodes.ieDone = s.ieDone ∧
    s.clearCodes.ieErr = s.ieErr ∧ s.clearCodes.ieHaz = s.ieHaz ∧ s.clearCodes.arg = s.arg ∧
    s.clearCodes.result = s.result ∧ s.clearCodes.errInfo = s.errInfo ∧ s.clearCodes.inLen = s.inLen ∧
    s.clearCodes.outLen = s.outLen ∧ s.clearCodes.rposByte = s.rposByte ∧ s.clearCodes.rposBit = s.rposBit ∧
    s.clearCodes.wacc = s.wacc ∧ s.clearCodes.wcnt = s.wcnt ∧ s.clearCodes.root = s.root ∧
    s.clearCodes.nnodes = s.nnodes ∧ s.clearCodes.nleaves = s.nleaves ∧ s.clearCodes.dlen = s.dlen ∧
    s.clearCodes.dcount = s.dcount ∧ s.clearCodes.freq = s.freq ∧
    s.clearCodes.codeLen = Vector.replicate 256 { present := false, len := 0 } ∧
    s.clearCodes.codeBits = Vector.replicate 256 (Vector.replicate 8 0) ∧ s.clearCodes.node = s.node ∧
    s.clearCodes.ibuf = s.ibuf ∧ s.clearCodes.obuf = s.obuf ∧ s.clearCodes.resetCount = s.resetCount ∧
    s.clearCodes.draws = s.draws ∧ s.clearCodes.schedule = s.schedule ∧ s.clearCodes.portData = s.portData := by
  and_intros <;> rfl

/-- R191. -/
@[simp] theorem clearNodes_fields (s : State) :
    s.clearNodes.capIn = s.capIn ∧ s.clearNodes.capOut = s.capOut ∧ s.clearNodes.pending = s.pending ∧
    s.clearNodes.lastCmd = s.lastCmd ∧ s.clearNodes.done = s.done ∧ s.clearNodes.err = s.err ∧
    s.clearNodes.freqValid = s.freqValid ∧ s.clearNodes.trieValid = s.trieValid ∧
    s.clearNodes.codesValid = s.codesValid ∧ s.clearNodes.haz = s.haz ∧ s.clearNodes.errCode = s.errCode ∧
    s.clearNodes.errSub = s.errSub ∧ s.clearNodes.emptyMode = s.emptyMode ∧ s.clearNodes.ieDone = s.ieDone ∧
    s.clearNodes.ieErr = s.ieErr ∧ s.clearNodes.ieHaz = s.ieHaz ∧ s.clearNodes.arg = s.arg ∧
    s.clearNodes.result = s.result ∧ s.clearNodes.errInfo = s.errInfo ∧ s.clearNodes.inLen = s.inLen ∧
    s.clearNodes.outLen = s.outLen ∧ s.clearNodes.rposByte = s.rposByte ∧ s.clearNodes.rposBit = s.rposBit ∧
    s.clearNodes.wacc = s.wacc ∧ s.clearNodes.wcnt = s.wcnt ∧ s.clearNodes.root = s.root ∧
    s.clearNodes.nnodes = s.nnodes ∧ s.clearNodes.nleaves = s.nleaves ∧ s.clearNodes.dlen = s.dlen ∧
    s.clearNodes.dcount = s.dcount ∧ s.clearNodes.freq = s.freq ∧ s.clearNodes.codeLen = s.codeLen ∧
    s.clearNodes.codeBits = s.codeBits ∧
    s.clearNodes.node = Vector.replicate Config.maxNodes { leaf := false, left := 0, right := 0, sym := 0, freq := 0 } ∧
    s.clearNodes.ibuf = s.ibuf ∧ s.clearNodes.obuf = s.obuf ∧ s.clearNodes.resetCount = s.resetCount ∧
    s.clearNodes.draws = s.draws ∧ s.clearNodes.schedule = s.schedule ∧ s.clearNodes.portData = s.portData := by
  and_intros <;> rfl

/-- R42. -/
@[simp] theorem setFreq_fields (s : State) (b : Byte) (v : Word) :
    (s.setFreq b v).capIn = s.capIn ∧ (s.setFreq b v).capOut = s.capOut ∧ (s.setFreq b v).pending = s.pending ∧
    (s.setFreq b v).lastCmd = s.lastCmd ∧ (s.setFreq b v).done = s.done ∧ (s.setFreq b v).err = s.err ∧
    (s.setFreq b v).freqValid = s.freqValid ∧ (s.setFreq b v).trieValid = s.trieValid ∧
    (s.setFreq b v).codesValid = s.codesValid ∧ (s.setFreq b v).haz = s.haz ∧ (s.setFreq b v).errCode = s.errCode ∧
    (s.setFreq b v).errSub = s.errSub ∧ (s.setFreq b v).emptyMode = s.emptyMode ∧ (s.setFreq b v).ieDone = s.ieDone ∧
    (s.setFreq b v).ieErr = s.ieErr ∧ (s.setFreq b v).ieHaz = s.ieHaz ∧ (s.setFreq b v).arg = s.arg ∧
    (s.setFreq b v).result = s.result ∧ (s.setFreq b v).errInfo = s.errInfo ∧ (s.setFreq b v).inLen = s.inLen ∧
    (s.setFreq b v).outLen = s.outLen ∧ (s.setFreq b v).rposByte = s.rposByte ∧ (s.setFreq b v).rposBit = s.rposBit ∧
    (s.setFreq b v).wacc = s.wacc ∧ (s.setFreq b v).wcnt = s.wcnt ∧ (s.setFreq b v).root = s.root ∧
    (s.setFreq b v).nnodes = s.nnodes ∧ (s.setFreq b v).nleaves = s.nleaves ∧ (s.setFreq b v).dlen = s.dlen ∧
    (s.setFreq b v).dcount = s.dcount ∧ (s.setFreq b v).freq = s.freq.set b.toNat v b.isLt ∧
    (s.setFreq b v).codeLen = s.codeLen ∧ (s.setFreq b v).codeBits = s.codeBits ∧ (s.setFreq b v).node = s.node ∧
    (s.setFreq b v).ibuf = s.ibuf ∧ (s.setFreq b v).obuf = s.obuf ∧ (s.setFreq b v).resetCount = s.resetCount ∧
    (s.setFreq b v).draws = s.draws ∧ (s.setFreq b v).schedule = s.schedule ∧ (s.setFreq b v).portData = s.portData := by
  and_intros <;> rfl

/-- R140. -/
@[simp] theorem recordCode_fields (s : State) (b : Byte) (c : List Bool) :
    (s.recordCode b c).capIn = s.capIn ∧ (s.recordCode b c).capOut = s.capOut ∧
    (s.recordCode b c).pending = s.pending ∧ (s.recordCode b c).lastCmd = s.lastCmd ∧
    (s.recordCode b c).done = s.done ∧ (s.recordCode b c).err = s.err ∧ (s.recordCode b c).freqValid = s.freqValid ∧
    (s.recordCode b c).trieValid = s.trieValid ∧ (s.recordCode b c).codesValid = s.codesValid ∧
    (s.recordCode b c).haz = s.haz ∧ (s.recordCode b c).errCode = s.errCode ∧ (s.recordCode b c).errSub = s.errSub ∧
    (s.recordCode b c).emptyMode = s.emptyMode ∧ (s.recordCode b c).ieDone = s.ieDone ∧
    (s.recordCode b c).ieErr = s.ieErr ∧ (s.recordCode b c).ieHaz = s.ieHaz ∧ (s.recordCode b c).arg = s.arg ∧
    (s.recordCode b c).result = s.result ∧ (s.recordCode b c).errInfo = s.errInfo ∧
    (s.recordCode b c).inLen = s.inLen ∧ (s.recordCode b c).outLen = s.outLen ∧
    (s.recordCode b c).rposByte = s.rposByte ∧ (s.recordCode b c).rposBit = s.rposBit ∧
    (s.recordCode b c).wacc = s.wacc ∧ (s.recordCode b c).wcnt = s.wcnt ∧ (s.recordCode b c).root = s.root ∧
    (s.recordCode b c).nnodes = s.nnodes ∧ (s.recordCode b c).nleaves = s.nleaves ∧
    (s.recordCode b c).dlen = s.dlen ∧ (s.recordCode b c).dcount = s.dcount ∧ (s.recordCode b c).freq = s.freq ∧
    (s.recordCode b c).node = s.node ∧ (s.recordCode b c).ibuf = s.ibuf ∧ (s.recordCode b c).obuf = s.obuf ∧
    (s.recordCode b c).resetCount = s.resetCount ∧ (s.recordCode b c).draws = s.draws ∧
    (s.recordCode b c).schedule = s.schedule ∧ (s.recordCode b c).portData = s.portData := by
  and_intros <;> rfl

/-- R209. -/
@[simp] theorem setHaz_fields (s : State) :
    s.setHaz.capIn = s.capIn ∧ s.setHaz.capOut = s.capOut ∧ s.setHaz.pending = s.pending ∧
    s.setHaz.lastCmd = s.lastCmd ∧ s.setHaz.done = s.done ∧ s.setHaz.err = s.err ∧ s.setHaz.freqValid = s.freqValid ∧
    s.setHaz.trieValid = s.trieValid ∧ s.setHaz.codesValid = s.codesValid ∧ s.setHaz.haz = true ∧
    s.setHaz.errCode = s.errCode ∧ s.setHaz.errSub = s.errSub ∧ s.setHaz.emptyMode = s.emptyMode ∧
    s.setHaz.ieDone = s.ieDone ∧ s.setHaz.ieErr = s.ieErr ∧ s.setHaz.ieHaz = s.ieHaz ∧ s.setHaz.arg = s.arg ∧
    s.setHaz.result = s.result ∧ s.setHaz.errInfo = s.errInfo ∧ s.setHaz.inLen = s.inLen ∧
    s.setHaz.outLen = s.outLen ∧ s.setHaz.rposByte = s.rposByte ∧ s.setHaz.rposBit = s.rposBit ∧
    s.setHaz.wacc = s.wacc ∧ s.setHaz.wcnt = s.wcnt ∧ s.setHaz.root = s.root ∧ s.setHaz.nnodes = s.nnodes ∧
    s.setHaz.nleaves = s.nleaves ∧ s.setHaz.dlen = s.dlen ∧ s.setHaz.dcount = s.dcount ∧ s.setHaz.freq = s.freq ∧
    s.setHaz.codeLen = s.codeLen ∧ s.setHaz.codeBits = s.codeBits ∧ s.setHaz.node = s.node ∧ s.setHaz.ibuf = s.ibuf ∧
    s.setHaz.obuf = s.obuf ∧ s.setHaz.resetCount = s.resetCount ∧ s.setHaz.draws = s.draws ∧
    s.setHaz.schedule = s.schedule ∧ s.setHaz.portData = s.portData := by
  and_intros <;> rfl

/-- R27. -/
@[simp] theorem writeStatus_fields (s : State) (v : Word) :
    (s.writeStatus v).capIn = s.capIn ∧ (s.writeStatus v).capOut = s.capOut ∧ (s.writeStatus v).pending = s.pending ∧
    (s.writeStatus v).lastCmd = s.lastCmd ∧ (s.writeStatus v).done = (s.done && !v.getLsbD 1) ∧
    (s.writeStatus v).err = (s.err && !v.getLsbD 2) ∧ (s.writeStatus v).freqValid = s.freqValid ∧
    (s.writeStatus v).trieValid = s.trieValid ∧ (s.writeStatus v).codesValid = s.codesValid ∧
    (s.writeStatus v).haz = (s.haz && !v.getLsbD 6) ∧ (s.writeStatus v).errCode = s.errCode ∧
    (s.writeStatus v).errSub = s.errSub ∧ (s.writeStatus v).emptyMode = s.emptyMode ∧
    (s.writeStatus v).ieDone = s.ieDone ∧ (s.writeStatus v).ieErr = s.ieErr ∧ (s.writeStatus v).ieHaz = s.ieHaz ∧
    (s.writeStatus v).arg = s.arg ∧ (s.writeStatus v).result = s.result ∧ (s.writeStatus v).errInfo = s.errInfo ∧
    (s.writeStatus v).inLen = s.inLen ∧ (s.writeStatus v).outLen = s.outLen ∧
    (s.writeStatus v).rposByte = s.rposByte ∧ (s.writeStatus v).rposBit = s.rposBit ∧
    (s.writeStatus v).wacc = s.wacc ∧ (s.writeStatus v).wcnt = s.wcnt ∧ (s.writeStatus v).root = s.root ∧
    (s.writeStatus v).nnodes = s.nnodes ∧ (s.writeStatus v).nleaves = s.nleaves ∧ (s.writeStatus v).dlen = s.dlen ∧
    (s.writeStatus v).dcount = s.dcount ∧ (s.writeStatus v).freq = s.freq ∧ (s.writeStatus v).codeLen = s.codeLen ∧
    (s.writeStatus v).codeBits = s.codeBits ∧ (s.writeStatus v).node = s.node ∧ (s.writeStatus v).ibuf = s.ibuf ∧
    (s.writeStatus v).obuf = s.obuf ∧ (s.writeStatus v).resetCount = s.resetCount ∧
    (s.writeStatus v).draws = s.draws ∧ (s.writeStatus v).schedule = s.schedule ∧
    (s.writeStatus v).portData = s.portData := by
  and_intros <;> rfl

/-- R28. -/
@[simp] theorem writeCtrl_fields (s : State) (v : Word) :
    (s.writeCtrl v).capIn = s.capIn ∧ (s.writeCtrl v).capOut = s.capOut ∧ (s.writeCtrl v).pending = s.pending ∧
    (s.writeCtrl v).lastCmd = s.lastCmd ∧ (s.writeCtrl v).done = s.done ∧ (s.writeCtrl v).err = s.err ∧
    (s.writeCtrl v).freqValid = s.freqValid ∧ (s.writeCtrl v).trieValid = s.trieValid ∧
    (s.writeCtrl v).codesValid = s.codesValid ∧ (s.writeCtrl v).haz = s.haz ∧ (s.writeCtrl v).errCode = s.errCode ∧
    (s.writeCtrl v).errSub = s.errSub ∧ (s.writeCtrl v).emptyMode = v.getLsbD 0 ∧
    (s.writeCtrl v).ieDone = v.getLsbD 1 ∧ (s.writeCtrl v).ieErr = v.getLsbD 2 ∧
    (s.writeCtrl v).ieHaz = v.getLsbD 3 ∧ (s.writeCtrl v).arg = s.arg ∧ (s.writeCtrl v).result = s.result ∧
    (s.writeCtrl v).errInfo = s.errInfo ∧ (s.writeCtrl v).inLen = s.inLen ∧ (s.writeCtrl v).outLen = s.outLen ∧
    (s.writeCtrl v).rposByte = s.rposByte ∧ (s.writeCtrl v).rposBit = s.rposBit ∧ (s.writeCtrl v).wacc = s.wacc ∧
    (s.writeCtrl v).wcnt = s.wcnt ∧ (s.writeCtrl v).root = s.root ∧ (s.writeCtrl v).nnodes = s.nnodes ∧
    (s.writeCtrl v).nleaves = s.nleaves ∧ (s.writeCtrl v).dlen = s.dlen ∧ (s.writeCtrl v).dcount = s.dcount ∧
    (s.writeCtrl v).freq = s.freq ∧ (s.writeCtrl v).codeLen = s.codeLen ∧ (s.writeCtrl v).codeBits = s.codeBits ∧
    (s.writeCtrl v).node = s.node ∧ (s.writeCtrl v).ibuf = s.ibuf ∧ (s.writeCtrl v).obuf = s.obuf ∧
    (s.writeCtrl v).resetCount = s.resetCount ∧ (s.writeCtrl v).draws = s.draws ∧
    (s.writeCtrl v).schedule = s.schedule ∧ (s.writeCtrl v).portData = s.portData := by
  and_intros <;> rfl

/-- R32. -/
@[simp] theorem writeInLen_fields (s : State) (v : Word) :
    (s.writeInLen v).capIn = s.capIn ∧ (s.writeInLen v).capOut = s.capOut ∧ (s.writeInLen v).pending = s.pending ∧
    (s.writeInLen v).lastCmd = s.lastCmd ∧ (s.writeInLen v).done = s.done ∧ (s.writeInLen v).err = s.err ∧
    (s.writeInLen v).freqValid = s.freqValid ∧ (s.writeInLen v).trieValid = s.trieValid ∧
    (s.writeInLen v).codesValid = s.codesValid ∧ (s.writeInLen v).haz = s.haz ∧
    (s.writeInLen v).errCode = s.errCode ∧ (s.writeInLen v).errSub = s.errSub ∧
    (s.writeInLen v).emptyMode = s.emptyMode ∧ (s.writeInLen v).ieDone = s.ieDone ∧
    (s.writeInLen v).ieErr = s.ieErr ∧ (s.writeInLen v).ieHaz = s.ieHaz ∧ (s.writeInLen v).arg = s.arg ∧
    (s.writeInLen v).result = s.result ∧ (s.writeInLen v).errInfo = s.errInfo ∧ (s.writeInLen v).outLen = s.outLen ∧
    (s.writeInLen v).rposByte = s.rposByte ∧ (s.writeInLen v).rposBit = s.rposBit ∧ (s.writeInLen v).wacc = s.wacc ∧
    (s.writeInLen v).wcnt = s.wcnt ∧ (s.writeInLen v).root = s.root ∧ (s.writeInLen v).nnodes = s.nnodes ∧
    (s.writeInLen v).nleaves = s.nleaves ∧ (s.writeInLen v).dlen = s.dlen ∧ (s.writeInLen v).dcount = s.dcount ∧
    (s.writeInLen v).freq = s.freq ∧ (s.writeInLen v).codeLen = s.codeLen ∧ (s.writeInLen v).codeBits = s.codeBits ∧
    (s.writeInLen v).node = s.node ∧ (s.writeInLen v).ibuf = s.ibuf ∧ (s.writeInLen v).obuf = s.obuf ∧
    (s.writeInLen v).resetCount = s.resetCount ∧ (s.writeInLen v).draws = s.draws ∧
    (s.writeInLen v).schedule = s.schedule ∧ (s.writeInLen v).portData = s.portData := by
  and_intros <;> rfl

/-- R230, R231. -/
@[simp] theorem hardReset_fields (s : State) :
    s.hardReset.capIn = s.capIn ∧ s.hardReset.capOut = s.capOut ∧ s.hardReset.pending = none ∧
    s.hardReset.lastCmd = 0 ∧ s.hardReset.done = false ∧ s.hardReset.err = false ∧ s.hardReset.freqValid = false ∧
    s.hardReset.trieValid = false ∧ s.hardReset.codesValid = false ∧ s.hardReset.haz = false ∧
    s.hardReset.errCode = .noError ∧ s.hardReset.errSub = 0 ∧ s.hardReset.emptyMode = false ∧
    s.hardReset.ieDone = false ∧ s.hardReset.ieErr = false ∧ s.hardReset.ieHaz = false ∧ s.hardReset.arg = 0 ∧
    s.hardReset.result = 0 ∧ s.hardReset.errInfo = 0 ∧ s.hardReset.inLen = 0 ∧ s.hardReset.outLen = 0 ∧
    s.hardReset.rposByte = 0 ∧ s.hardReset.rposBit = 0 ∧ s.hardReset.wacc = 0 ∧ s.hardReset.wcnt = 0 ∧
    s.hardReset.root = 0 ∧ s.hardReset.nnodes = 0 ∧ s.hardReset.nleaves = 0 ∧ s.hardReset.dlen = 0 ∧
    s.hardReset.dcount = 0 ∧ s.hardReset.ibuf = [] ∧ s.hardReset.obuf = [] ∧
    s.hardReset.resetCount = s.resetCount + 1 ∧ s.hardReset.draws = s.draws ∧ s.hardReset.schedule = s.schedule ∧
    s.hardReset.portData = s.portData := by
  and_intros <;> rfl

/-- R171: writing a node changes NODE alone. -/
theorem updateNode_frame (s : State) (i : Nat) (f : Node → Node) :
    s.updateNode i f = { s with node := (s.updateNode i f).node } := by
  unfold State.updateNode
  split <;> rfl

@[simp] theorem updateNode_fields (s : State) (i : Nat) (f : Node → Node) :
    (s.updateNode i f).capIn = s.capIn ∧ (s.updateNode i f).capOut = s.capOut ∧
    (s.updateNode i f).pending = s.pending ∧ (s.updateNode i f).lastCmd = s.lastCmd ∧
    (s.updateNode i f).done = s.done ∧ (s.updateNode i f).err = s.err ∧ (s.updateNode i f).freqValid = s.freqValid ∧
    (s.updateNode i f).trieValid = s.trieValid ∧ (s.updateNode i f).codesValid = s.codesValid ∧
    (s.updateNode i f).haz = s.haz ∧ (s.updateNode i f).errCode = s.errCode ∧ (s.updateNode i f).errSub = s.errSub ∧
    (s.updateNode i f).emptyMode = s.emptyMode ∧ (s.updateNode i f).ieDone = s.ieDone ∧
    (s.updateNode i f).ieErr = s.ieErr ∧ (s.updateNode i f).ieHaz = s.ieHaz ∧ (s.updateNode i f).arg = s.arg ∧
    (s.updateNode i f).result = s.result ∧ (s.updateNode i f).errInfo = s.errInfo ∧
    (s.updateNode i f).inLen = s.inLen ∧ (s.updateNode i f).outLen = s.outLen ∧
    (s.updateNode i f).rposByte = s.rposByte ∧ (s.updateNode i f).rposBit = s.rposBit ∧
    (s.updateNode i f).wacc = s.wacc ∧ (s.updateNode i f).wcnt = s.wcnt ∧ (s.updateNode i f).root = s.root ∧
    (s.updateNode i f).nnodes = s.nnodes ∧ (s.updateNode i f).nleaves = s.nleaves ∧
    (s.updateNode i f).dlen = s.dlen ∧ (s.updateNode i f).dcount = s.dcount ∧ (s.updateNode i f).freq = s.freq ∧
    (s.updateNode i f).codeLen = s.codeLen ∧ (s.updateNode i f).codeBits = s.codeBits ∧
    (s.updateNode i f).ibuf = s.ibuf ∧ (s.updateNode i f).obuf = s.obuf ∧
    (s.updateNode i f).resetCount = s.resetCount ∧ (s.updateNode i f).draws = s.draws ∧
    (s.updateNode i f).schedule = s.schedule ∧ (s.updateNode i f).portData = s.portData := by
  rw [updateNode_frame s i f]
  and_intros <;> rfl

@[simp] theorem setNode_fields (s : State) (i : Nat) (e : Node) :
    (s.setNode i e).capIn = s.capIn ∧ (s.setNode i e).capOut = s.capOut ∧ (s.setNode i e).pending = s.pending ∧
    (s.setNode i e).lastCmd = s.lastCmd ∧ (s.setNode i e).done = s.done ∧ (s.setNode i e).err = s.err ∧
    (s.setNode i e).freqValid = s.freqValid ∧ (s.setNode i e).trieValid = s.trieValid ∧
    (s.setNode i e).codesValid = s.codesValid ∧ (s.setNode i e).haz = s.haz ∧ (s.setNode i e).errCode = s.errCode ∧
    (s.setNode i e).errSub = s.errSub ∧ (s.setNode i e).emptyMode = s.emptyMode ∧ (s.setNode i e).ieDone = s.ieDone ∧
    (s.setNode i e).ieErr = s.ieErr ∧ (s.setNode i e).ieHaz = s.ieHaz ∧ (s.setNode i e).arg = s.arg ∧
    (s.setNode i e).result = s.result ∧ (s.setNode i e).errInfo = s.errInfo ∧ (s.setNode i e).inLen = s.inLen ∧
    (s.setNode i e).outLen = s.outLen ∧ (s.setNode i e).rposByte = s.rposByte ∧ (s.setNode i e).rposBit = s.rposBit ∧
    (s.setNode i e).wacc = s.wacc ∧ (s.setNode i e).wcnt = s.wcnt ∧ (s.setNode i e).root = s.root ∧
    (s.setNode i e).nnodes = s.nnodes ∧ (s.setNode i e).nleaves = s.nleaves ∧ (s.setNode i e).dlen = s.dlen ∧
    (s.setNode i e).dcount = s.dcount ∧ (s.setNode i e).freq = s.freq ∧ (s.setNode i e).codeLen = s.codeLen ∧
    (s.setNode i e).codeBits = s.codeBits ∧ (s.setNode i e).ibuf = s.ibuf ∧ (s.setNode i e).obuf = s.obuf ∧
    (s.setNode i e).resetCount = s.resetCount ∧ (s.setNode i e).draws = s.draws ∧
    (s.setNode i e).schedule = s.schedule ∧ (s.setNode i e).portData = s.portData :=
  updateNode_fields s i _

@[simp] theorem setLeft_fields (s : State) (i c : Nat) :
    (s.setLeft i c).capIn = s.capIn ∧ (s.setLeft i c).capOut = s.capOut ∧ (s.setLeft i c).pending = s.pending ∧
    (s.setLeft i c).lastCmd = s.lastCmd ∧ (s.setLeft i c).done = s.done ∧ (s.setLeft i c).err = s.err ∧
    (s.setLeft i c).freqValid = s.freqValid ∧ (s.setLeft i c).trieValid = s.trieValid ∧
    (s.setLeft i c).codesValid = s.codesValid ∧ (s.setLeft i c).haz = s.haz ∧ (s.setLeft i c).errCode = s.errCode ∧
    (s.setLeft i c).errSub = s.errSub ∧ (s.setLeft i c).emptyMode = s.emptyMode ∧ (s.setLeft i c).ieDone = s.ieDone ∧
    (s.setLeft i c).ieErr = s.ieErr ∧ (s.setLeft i c).ieHaz = s.ieHaz ∧ (s.setLeft i c).arg = s.arg ∧
    (s.setLeft i c).result = s.result ∧ (s.setLeft i c).errInfo = s.errInfo ∧ (s.setLeft i c).inLen = s.inLen ∧
    (s.setLeft i c).outLen = s.outLen ∧ (s.setLeft i c).rposByte = s.rposByte ∧ (s.setLeft i c).rposBit = s.rposBit ∧
    (s.setLeft i c).wacc = s.wacc ∧ (s.setLeft i c).wcnt = s.wcnt ∧ (s.setLeft i c).root = s.root ∧
    (s.setLeft i c).nnodes = s.nnodes ∧ (s.setLeft i c).nleaves = s.nleaves ∧ (s.setLeft i c).dlen = s.dlen ∧
    (s.setLeft i c).dcount = s.dcount ∧ (s.setLeft i c).freq = s.freq ∧ (s.setLeft i c).codeLen = s.codeLen ∧
    (s.setLeft i c).codeBits = s.codeBits ∧ (s.setLeft i c).ibuf = s.ibuf ∧ (s.setLeft i c).obuf = s.obuf ∧
    (s.setLeft i c).resetCount = s.resetCount ∧ (s.setLeft i c).draws = s.draws ∧
    (s.setLeft i c).schedule = s.schedule ∧ (s.setLeft i c).portData = s.portData :=
  updateNode_fields s i _

@[simp] theorem setRight_fields (s : State) (i c : Nat) :
    (s.setRight i c).capIn = s.capIn ∧ (s.setRight i c).capOut = s.capOut ∧ (s.setRight i c).pending = s.pending ∧
    (s.setRight i c).lastCmd = s.lastCmd ∧ (s.setRight i c).done = s.done ∧ (s.setRight i c).err = s.err ∧
    (s.setRight i c).freqValid = s.freqValid ∧ (s.setRight i c).trieValid = s.trieValid ∧
    (s.setRight i c).codesValid = s.codesValid ∧ (s.setRight i c).haz = s.haz ∧
    (s.setRight i c).errCode = s.errCode ∧ (s.setRight i c).errSub = s.errSub ∧
    (s.setRight i c).emptyMode = s.emptyMode ∧ (s.setRight i c).ieDone = s.ieDone ∧
    (s.setRight i c).ieErr = s.ieErr ∧ (s.setRight i c).ieHaz = s.ieHaz ∧ (s.setRight i c).arg = s.arg ∧
    (s.setRight i c).result = s.result ∧ (s.setRight i c).errInfo = s.errInfo ∧ (s.setRight i c).inLen = s.inLen ∧
    (s.setRight i c).outLen = s.outLen ∧ (s.setRight i c).rposByte = s.rposByte ∧
    (s.setRight i c).rposBit = s.rposBit ∧ (s.setRight i c).wacc = s.wacc ∧ (s.setRight i c).wcnt = s.wcnt ∧
    (s.setRight i c).root = s.root ∧ (s.setRight i c).nnodes = s.nnodes ∧ (s.setRight i c).nleaves = s.nleaves ∧
    (s.setRight i c).dlen = s.dlen ∧ (s.setRight i c).dcount = s.dcount ∧ (s.setRight i c).freq = s.freq ∧
    (s.setRight i c).codeLen = s.codeLen ∧ (s.setRight i c).codeBits = s.codeBits ∧ (s.setRight i c).ibuf = s.ibuf ∧
    (s.setRight i c).obuf = s.obuf ∧ (s.setRight i c).resetCount = s.resetCount ∧ (s.setRight i c).draws = s.draws ∧
    (s.setRight i c).schedule = s.schedule ∧ (s.setRight i c).portData = s.portData :=
  updateNode_fields s i _

/-- R171: an allocation writes NODE[NNODES] and counts it. -/
theorem allocate_frame (s : State) (e : Node) :
    s.allocate e = { s with node := (s.setNode s.nnodes.toNat e).node, nnodes := BitVec.ofNat 10 (s.nnodes.toNat + 1) } := by
  unfold State.allocate State.setNode
  rw [updateNode_frame]

end Sys2Proof.Machine
end

