-- ==== Sys2Proof/Laws/Port.lean ====
section
/-! SUPPORT. The guard of the HOST's writes (R209, R240), IN_LEN's write (R32), and the two cases of a buffer read (R75). -/

namespace Sys2Proof.Machine

theorem unlessBusy_idle {s : State} (t : State) (h : s.pending = none) : s.unlessBusy t = t := by
  simp [State.unlessBusy, State.busy, h]

theorem unlessBusy_busy {s : State} (t : State) (h : s.pending.isSome = true) : s.unlessBusy t = s.setHaz := by
  simp [State.unlessBusy, State.busy, h]

/-- Everything a guarded write can do. -/
theorem unlessBusy_cases (s t : State) :
    (s.pending = none ∧ s.unlessBusy t = t) ∨ (s.pending.isSome = true ∧ s.unlessBusy t = s.setHaz) := by
  cases h : s.pending with
  | none => exact .inl ⟨rfl, unlessBusy_idle t h⟩
  | some w => exact .inr ⟨rfl, unlessBusy_busy t (by simp [h])⟩

theorem writeInLen_toNat (s : State) (v : Word) : (s.writeInLen v).inLen.toNat = min v.toNat s.capIn.toNat := by
  simp only [State.writeInLen]
  split <;> omega

/-- Everything a buffer read can do: the HOST gets a byte, and no state of the HCC changes (R71). -/
theorem bufferRead_cases (s : State) (b : Byte) :
    (s.pending = none ∧ s.bufferRead b = { s with portData := some (.byte b) }) ∨
    (s.pending.isSome = true ∧ s.bufferRead b =
      { s with portData := some (.byte (Config.busyByte s.draws)), draws := s.draws + 1 }) := by
  cases h : s.pending with
  | none => left; simp [State.bufferRead, State.busy, h]
  | some w => right; simp [State.bufferRead, State.busy, h]

end Sys2Proof.Machine
end

