-- ==== Sys2Proof/Laws/Unpacker.lean ====
section
/-! SUPPORT. Everything the unpacker's primitives can do (R100, R171): their value and the state they leave where the bits
are there, and the raise where they are not. -/

namespace Sys2Proof.Machine

@[simp] theorem setRpos_rpos_self (s : State) : s.setRpos s.rpos = s := by
  have h1 : (8 * s.rposByte.toNat + s.rposBit.toNat) / 8 = s.rposByte.toNat := by
    have := s.rposBit.isLt; omega
  have h2 : (8 * s.rposByte.toNat + s.rposBit.toNat) % 8 = s.rposBit.toNat := by
    have := s.rposBit.isLt; omega
  simp [State.setRpos, State.rpos, h1, h2]

theorem rpos_setRpos (s : State) {p : Nat} (h : p / 8 < 2 ^ 32) : (s.setRpos p).rpos = p := by
  simp only [State.rpos, State.setRpos, BitVec.toNat_ofNat, Nat.mod_eq_of_lt h]
  omega

@[simp] theorem setRpos_setRpos (s : State) (p q : Nat) : (s.setRpos p).setRpos q = s.setRpos q := rfl

@[simp] theorem streamBit_setRpos (s : State) (p q : Nat) : (s.setRpos p).streamBit q = s.streamBit q := rfl

@[simp] theorem streamBits_setRpos (s : State) (p q n : Nat) : (s.setRpos p).streamBits q n = s.streamBits q n := rfl

@[simp] theorem length_streamBits (s : State) (p n : Nat) : (s.streamBits p n).length = n := by simp [State.streamBits]

theorem streamBits_succ (s : State) (p n : Nat) :
    s.streamBits p (n + 1) = s.streamBit p :: s.streamBits (p + 1) n := by
  simp only [State.streamBits, List.range_succ_eq_map, List.map_cons, List.map_map, Nat.add_zero]
  congr 1
  apply List.map_congr_left
  intro j _
  simp only [Function.comp_apply]
  congr 1
  omega

theorem streamBits_add (s : State) (p n m : Nat) :
    s.streamBits p (n + m) = s.streamBits p n ++ s.streamBits (p + n) m := by
  induction n generalizing p with
  | zero => simp [State.streamBits]
  | succ n ih =>
    rw [show n + 1 + m = (n + m) + 1 by omega, streamBits_succ, streamBits_succ, ih, List.cons_append,
      show p + 1 + n = p + (n + 1) by omega]

theorem ibufRead_ok {s : State} {i : Nat} (h : i < s.capIn.toNat) : ibufRead i s = .ok (s.ibufByte i) s := by
  simp [ibufRead, run_bind, h]

/-- The bit at RPOS is read and RPOS moves past it. -/
theorem nextBit_ok {s : State} (h : s.rpos / 8 < s.capIn.toNat) :
    nextBit s = .ok (s.streamBit s.rpos) (s.setRpos (s.rpos + 1)) := by
  simp [nextBit, run_bind, run_map, ibufRead_ok h, State.streamBit]

theorem readLoop_ok (k v : Nat) {s : State} (hb : s.rpos + k ≤ 8 * s.inLen.toNat)
    (hcap : s.inLen.toNat ≤ s.capIn.toNat) :
    readLoop k v s = .ok (v * 2 ^ k + natOfBits (s.streamBits s.rpos k)) (s.setRpos (s.rpos + k)) := by
  induction k generalizing v s with
  | zero => simp [readLoop, State.streamBits]
  | succ k ih =>
    have h32 := s.inLen.isLt
    have hr : (s.setRpos (s.rpos + 1)).rpos = s.rpos + 1 := rpos_setRpos s (by omega)
    have hb' : (s.setRpos (s.rpos + 1)).rpos + k ≤ 8 * (s.setRpos (s.rpos + 1)).inLen.toNat := by
      rw [hr]
      show s.rpos + 1 + k ≤ 8 * s.inLen.toNat
      omega
    rw [readLoop, run_bind_ok (nextBit_ok (by omega)), ih _ hb' hcap, hr, streamBits_setRpos, streamBits_succ,
      natOfBits_cons, length_streamBits, setRpos_setRpos]
    congr 1
    · rw [Nat.pow_succ, Nat.add_mul]; ring
    · congr 1; omega

/-- `ReadBits(n)` where n bits remain (R100): the next n bits as a number, RPOS advanced by n, nothing else changed. -/
theorem readBits_ok {n : Nat} {s : State} (hb : s.hasBits n) (hcap : s.inLen.toNat ≤ s.capIn.toNat) :
    readBits n s = .ok (BitVec.ofNat n (natOfBits (s.streamBits s.rpos n))) (s.setRpos (s.rpos + n)) := by
  have h : readLoop n 0 s = _ := readLoop_ok n 0 hb hcap
  simp [readBits, run_bind, run_map, hb, h]

/-- `ReadBits(n)` where fewer remain (R100): UNDERFLOW, and no state changes. -/
theorem readBits_underflow {n : Nat} {s : State} (hb : ¬s.hasBits n) :
    readBits n s = .error (.error .underflow 0 s.rposByte) s := by
  simp [readBits, run_bind, hb]

/-- A `ReadBits` that succeeds found its bits and its buffer bytes. -/
theorem readBits_ok_inv {n : Nat} {s t : State} {v : BitVec n} (h : readBits n s = .ok v t) : s.hasBits n := by
  by_cases hb : s.hasBits n
  · exact hb
  · simp [readBits_underflow hb] at h

theorem msbBits_readBits {n : Nat} (s : State) (p : Nat) :
    msbBits (BitVec.ofNat n (natOfBits (s.streamBits p n))) = s.streamBits p n :=
  msbBits_ofNat (length_streamBits s p n)

end Sys2Proof.Machine
end

