-- ==== Sys2Proof/Laws/Tables.lean ====
section
/-! SUPPORT. What a read of a table word gives after a write to it (R42 to R45), and everything the prerequisite checks, a
node read and `TrieRead` can do (R48, R171, R172). -/

namespace Sys2Proof.Machine

/-! ### The tables -/

theorem freqOf_setFreq (s : State) (b c : Byte) (v : Word) :
    (s.setFreq b v).freqOf c = if c = b then v else s.freqOf c := by
  have hb : b.toNat = c.toNat ↔ c = b := ⟨fun h => (BitVec.eq_of_toNat_eq h).symm, fun h => h ▸ rfl⟩
  simp only [State.freqOf, State.setFreq, Vector.getElem_set, hb]

@[simp] theorem freqOf_clearFreq (s : State) (b : Byte) : s.clearFreq.freqOf b = 0 := by
  simp [State.freqOf, State.clearFreq]

@[simp] theorem codeLenOf_clearCodes (s : State) (b : Byte) :
    s.clearCodes.codeLenOf b = { present := false, len := 0 } := by
  simp [State.codeLenOf, State.clearCodes]

theorem codeLenOf_recordCode (s : State) (b x : Byte) (c : List Bool) :
    (s.recordCode b c).codeLenOf x =
      if x = b then { present := true, len := BitVec.ofNat 8 c.length } else s.codeLenOf x := by
  have hb : b.toNat = x.toNat ↔ x = b := ⟨fun h => (BitVec.eq_of_toNat_eq h).symm, fun h => h ▸ rfl⟩
  simp only [State.codeLenOf, State.recordCode, Vector.getElem_set, hb]

theorem codeBitsOf_recordCode_other (s : State) {b x : Byte} (c : List Bool) (h : x ≠ b) :
    (s.recordCode b c).codeBitsOf x = s.codeBitsOf x := by
  have hb : b.toNat ≠ x.toNat := fun e => h (BitVec.eq_of_toNat_eq e).symm
  simp only [State.codeBitsOf, State.recordCode, Vector.getElem_set, if_neg hb]

theorem codeBitsOf_recordCode_same (s : State) (b : Byte) (c : List Bool) :
    (s.recordCode b c).codeBitsOf b = c.zipIdx.foldl (fun ws p => setCodeBit ws p.2 p.1) (s.codeBitsOf b) := by
  simp only [State.codeBitsOf, State.recordCode, Vector.getElem_set_self]

/-- A code bit after one code bit is written (R45). -/
theorem codeBit_setCodeBit (ws : Vector Word 8) {i : Nat} (j : Nat) (b : Bool) (hi : i < 256) :
    codeBit (setCodeBit ws i b) j = if j = i then b else codeBit ws j := by
  have h8 : i / 32 < 8 := by omega
  unfold codeBit setCodeBit
  rw [dif_pos h8]
  by_cases hj : j / 32 < 8
  · simp only [dif_pos hj, Vector.getElem_set]
    by_cases hw : i / 32 = j / 32
    · simp only [hw, if_true]
      rw [getLsbD_setBit _ _ _ _ (by omega)]
      by_cases hji : j = i
      · subst hji; simp
      · have : 31 - j % 32 ≠ 31 - i % 32 := by omega
        simp [hji, this]
    · have hji : j ≠ i := fun e => hw (by rw [e])
      simp [hw, hji]
  · have hji : j ≠ i := by omega
    simp [hj, hji]

/-- NODE[j] after a part of NODE[i] is changed (R171). -/
theorem getElem?_updateNode (s : State) (i j : Nat) (f : Node → Node) :
    (s.updateNode i f).node[j]? = if j = i then s.node[j]?.map f else s.node[j]? := by
  unfold State.updateNode
  split
  · rename_i hi
    simp only [Vector.getElem?_set]
    by_cases h : i = j
    · subst h; simp [hi]
    · simp [h, Ne.symm h]
  · rename_i hi
    by_cases h : j = i
    · subst h
      have : s.node[j]? = none := by simp; omega
      simp [this]
    · simp [h]

/-- NODE[j] after NODE[i] is written (R44). -/
theorem getElem?_setNode (s : State) {i : Nat} (j : Nat) (e : Node) (hi : i < Config.maxNodes) :
    (s.setNode i e).node[j]? = if j = i then some e else s.node[j]? := by
  rw [State.setNode, getElem?_updateNode]
  by_cases h : j = i
  · subst h; simp [hi]
  · simp [h]

/-! ### Checks and table reads of the pseudocode -/

/-- Everything a node read can do (R44). -/
theorem nodeAt_cases (i : Nat) (s : State) :
    (∃ e, s.node[i]? = some e ∧ nodeAt i s = .ok e s) ∨
    (Config.maxNodes ≤ i ∧ nodeAt i s = .error (.stop .noSuchNode) s) := by
  by_cases h : i < Config.maxNodes
  · left
    refine ⟨s.node[i], by simp, ?_⟩
    simp [nodeAt, run_bind, h]
  · right
    refine ⟨by omega, ?_⟩
    simp [nodeAt, run_bind, h]

theorem nodeAt_ok {i : Nat} {s : State} {e : Node} (h : s.node[i]? = some e) : nodeAt i s = .ok e s := by
  obtain ⟨e', he, hr⟩ | ⟨hi, -⟩ := nodeAt_cases i s
  · rw [hr]; simp_all
  · simp [Vector.getElem?_eq_none hi] at h

theorem needFreq_run (s : State) :
    needFreq s = if s.freqValid then .ok () s else .error (.error .notReady 1 0) s := by
  simp only [needFreq, run_bind, run_get]
  split <;> simp

theorem needTrie_run (s : State) :
    needTrie s = if s.trieValid then .ok () s else .error (.error .notReady 2 0) s := by
  simp only [needTrie, run_bind, run_get]
  split <;> simp

theorem needCodes_run (s : State) :
    needCodes s = if s.codesValid then .ok () s else .error (.error .notReady 3 0) s := by
  simp only [needCodes, run_bind, run_get]
  split <;> simp

/-- `TrieRead(n)` where n bits remain is `ReadBits(n)` (R171). -/
theorem trieRead_ok {n : Nat} {s : State} (h : s.hasBits n) : trieRead n s = readBits n s := by
  simp [trieRead, run_bind, h]

/-- `TrieRead(n)` where fewer remain (R172): CORRUPT_TRIE, and nothing is consumed. -/
theorem trieRead_short {n : Nat} {s : State} (h : ¬s.hasBits n) :
    trieRead n s = .error (.error .corruptTrie 0 s.rposByte) s := by
  simp [trieRead, run_bind, h]

end Sys2Proof.Machine
end

