-- ==== Sys2Proof/Machine/HostProgram.lean ====
section
/-! DEFINITION. The HOST's program notation (R88), its pseudo-instructions (R89), and a HOST that runs such a program on
the machine, as one move of `step` after another (R72, R253). -/

namespace Sys2Proof.Machine

/-- R88: the statements. A label is a statement's index. The test of an `if` is on the last read's value: the bits of
`mask` read `value` (log 10). -/
inductive Stmt where
  | command (i : Instr)
  | wr (r : Reg) (v : Word)
  | rd (t : Target)
  | ib (a : Nat) (b : Byte)
  | rib (a : Nat)
  | rob (a : Nat)
  | ifGoto (mask value : Word) (label : Nat)
  deriving DecidableEq, Repr

/-- R24, R88: the port access a statement performs; none for the HOST's own control flow. -/
def stmtAccess : Stmt → Option HostAccess
  | .command i => some (.regWrite (BitVec.ofNat 16 (regOffset .cmd)) (encode i))
  | .wr r v => some (.regWrite (BitVec.ofNat 16 (regOffset r)) v)
  | .rd t => some (.regRead (BitVec.ofNat 16 (targetOffset t)))
  | .ib a b => some (.ibufWrite a b)
  | .rib a => some (.ibufRead a)
  | .rob a => some (.obufRead a)
  | .ifGoto _ _ _ => none

/-- R89: the pseudo-instructions. READOUT and COPYOUT carry what the HOST has read: OUT_LEN, and the bytes of OBUF. -/
inductive Pseudo where
  | setArg (v : Word)
  | loadIn (bytes : List Byte)
  | wait
  | run (i : Instr)
  | ack
  | readOut (outLen : Nat)
  | copyOut (bytes : List Byte)
  deriving DecidableEq, Repr

/-- R89: `ib 0, <b0>` ... `ib n-1, <bn-1>`, then `wr IN_LEN, n`. -/
def loadInStmts (bytes : List Byte) : List Stmt :=
  bytes.zipIdx.map (fun p => .ib p.2 p.1) ++ [.wr .inLen (BitVec.ofNat 32 bytes.length)]

/-- R89: `w: rd STATUS`, `if bit0 = 1 goto w`, w being the statement's own index. -/
def waitStmts (label : Nat) : List Stmt := [.rd (.reg .status), .ifGoto 1 1 label]

/-- R89: `rd OUT_LEN`, then `rob 0` ... `rob OUT_LEN-1`. -/
def readOutStmts (outLen : Nat) : List Stmt := .rd (.reg .outLen) :: (List.range outLen).map .rob

/-- R89: the expansion of a pseudo-instruction that stands at a statement index. -/
def expandPseudo (label : Nat) : Pseudo → List Stmt
  | .setArg v => [.wr .arg v]
  | .loadIn bytes => loadInStmts bytes
  | .wait => waitStmts label
  | .run i => .command i :: waitStmts (label + 1)
  | .ack => [.wr .status 0x46]
  | .readOut outLen => readOutStmts outLen
  | .copyOut bytes => readOutStmts bytes.length ++ loadInStmts bytes

/-- A HOST with a program, and the machine it drives. -/
structure HostRun where
  program : List Stmt
  next : Nat
  machine : State
  deriving DecidableEq, Repr

/-- The last read's value as a word (R88 "the last read result"). -/
def lastRead (s : State) : Word :=
  match s.portData with
  | some (.word v) => v
  | some (.byte b) => b.zeroExtend 32
  | none => Config.unreadWord

/-- The HOST's turn: its next statement, the access being one step of the machine. A finished program does nothing. -/
def HostRun.hostTurn (h : HostRun) : Host.Outcome HostRun Fault Refusal :=
  match h.program[h.next]? with
  | none => .next h
  | some (.ifGoto mask value label) =>
    .next { h with next := if lastRead h.machine &&& mask = value then label else h.next + 1 }
  | some stmt =>
    match stmtAccess stmt with
    | none => .next h
    | some a =>
      match step { h.machine with schedule := [.host a] } with
      | .next t => .next { h with next := h.next + 1, machine := t }
      | .fault f => .fault f
      | .refused r => .refused r

/-- The ENGINE's turn. -/
def HostRun.engineTurn (h : HostRun) : Host.Outcome HostRun Fault Refusal :=
  match step { h.machine with schedule := [.engine] } with
  | .next t => .next { h with machine := t }
  | .fault f => .fault f
  | .refused r => .refused r

/-- R253: the run has ended. -/
def HostRun.ended (h : HostRun) : Bool := h.program.length ≤ h.next && !h.machine.busy

/-- The run along a list of turns, true for the HOST's (R72: one total order of steps). -/
def HostRun.turns (h : HostRun) : List Bool → Host.Outcome HostRun Fault Refusal
  | [] => .next h
  | host :: rest =>
    match (if host then h.hostTurn else h.engineTurn) with
    | .next h' => h'.turns rest
    | .fault f => .fault f
    | .refused r => .refused r

end Sys2Proof.Machine
end

