-- ==== Sys2Proof/Tests/Slice0.lean ====
section
/-! SUPPORT. The author's own tests: the ill-formed terms and illegal words the checks refuse, words written out from the
opcode map, one or two steps of every command with the values of 95_test_vectors.md, and for every statement with hypotheses
a state and operands that meet them together. -/

open Sys2Proof Sys2Proof.Machine Sys2Proof.Claims

namespace Sys2Proof.Tests

-- One theorem after another: a thread for each kernel evaluation at once would pass the memory limit.
set_option Elab.async false

/-! ### Helpers -/

/-- A machine after reset with these capacities, its input loaded. -/
def loaded (capIn capOut : Word) (inp : List Byte) : State :=
  { State.afterReset capIn capOut 0 with
    ibuf := inp.zipIdx.map fun p => (p.2, p.1)
    inLen := BitVec.ofNat 32 inp.length }

/-- The outcome is a next state of which f holds. -/
def ends (o : Host.Outcome State Fault Refusal) (f : State → Bool) : Bool :=
  match o with
  | .next t => f t
  | _ => false

theorem next_of_ends {o : Host.Outcome State Fault Refusal} {f : State → Bool} (h : ends o f = true) :
    ∃ t, o = .next t ∧ f t = true := by
  cases o with
  | next t => exact ⟨t, rfl, h⟩
  | fault _ => simp [ends] at h
  | refused _ => simp [ends] at h

/-- One command, as an issue and the ENGINE's turn, from a state with nothing scheduled. -/
def run (w : Word) (s : State) : Host.Outcome State Fault Refusal := step (s.withFetchWord 32 w.toNat)

/-- Both words of a node all zero. -/
def noNode : Node := { leaf := false, left := 0, right := 0, sym := 0, freq := 0 }

/-- "ab" in IBUF with its trie (V-E10) and codes valid: NODE[0] = leaf 61, NODE[1] = leaf 62, NODE[2] = (0, 1). -/
def abReady (capOut : Word) : State :=
  { loaded 16 capOut [0x61, 0x62] with
    freqValid := true, trieValid := true, codesValid := true
    freq := ((Vector.replicate 256 0).set 0x61 1).set 0x62 1
    node := (((Vector.replicate 511 noNode).set 0 (leafNode 0x61 1)).set 1 (leafNode 0x62 1)).set 2 (internalNode 2 0 1)
    root := 2, nnodes := 3, nleaves := 2
    codeLen := ((Vector.replicate 256 { present := false, len := 0 }).set 0x61 { present := true, len := 1 }).set 0x62
      { present := true, len := 1 }
    codeBits := (Vector.replicate 256 (Vector.replicate 8 0)).set 0x62 ((Vector.replicate 8 0).set 0 0x80000000) }

def abTrie : Trie := .node (.leaf 0x61) (.leaf 0x62)

/-- The unit of "ab" (V-E10). -/
def abUnit : List Byte := [0x58, 0x6C, 0x40, 0x00, 0x00, 0x00, 0x48]

/-- The unit of "ABRACADABRA" (V-E6). -/
def abraUnit : List Byte := [0x50, 0x4A, 0x1D, 0x11, 0x42, 0xA9, 0x00, 0x00, 0x00, 0x05, 0xB7, 0x45, 0x6E]

def abra : List Byte := [0x41, 0x42, 0x52, 0x41, 0x43, 0x41, 0x44, 0x41, 0x42, 0x52, 0x41]

/-- The machine with one pending command word, the ENGINE moving next. -/
def pendingWord (w : Word) : State := { State.reset with pending := some w, lastCmd := w }

/-- The machine at reset, the HOST moving next. -/
def hostMoves (a : HostAccess) : State := { State.reset with schedule := [.host a] }

/-- The same with a command pending. -/
def hostMovesBusy (a : HostAccess) : State := { pendingWord 0 with schedule := [.host a] }

/-! ### Well-formedness and decoding -/

theorem test_wbit_operand_two_is_ill_formed : Instr.wellFormed (.wbit 2) = false := by decide

theorem test_wbit_operand_high_bit_is_ill_formed : Instr.wellFormed (.wbit 0x81) = false := by decide

/-- The words of 30_encoding.md R84, as the opcode table numbers their bits. -/
theorem test_words_of_the_map :
    decodeTableWord 32 0x00000000 = some .nop ∧ decodeTableWord 32 0x01000000 = some .clear ∧
    decodeTableWord 32 0x10000001 = some (.wbit 1) ∧ decodeTableWord 32 0x110000A5 = some (.wbyte 0xA5) ∧
    decodeTableWord 32 0x12000000 = some .wint ∧ decodeTableWord 32 0x13000000 = some .flush ∧
    decodeTableWord 32 0x18000000 = some .rbit ∧ decodeTableWord 32 0x19000000 = some .rbyte ∧
    decodeTableWord 32 0x1A000000 = some .rint ∧ decodeTableWord 32 0x20000000 = some .tabulate ∧
    decodeTableWord 32 0x21000000 = some .build ∧ decodeTableWord 32 0x22000000 = some .derive ∧
    decodeTableWord 32 0x23000000 = some .serialize ∧ decodeTableWord 32 0x24000000 = some .encode ∧
    decodeTableWord 32 0x28000000 = some .deserialize ∧ decodeTableWord 32 0x29000000 = some .decode ∧
    decodeTableWord 32 0x30000000 = some .compress ∧ decodeTableWord 32 0x31000000 = some .expand := by decide

/-- V-X1, bit by bit: OP 00010001, RSV 0, IMM8 11111111. -/
theorem test_wbyte_bits : decode 0b00010001000000000000000011111111 = .command (.wbyte 0xFF) := by decide

/-- V-X1. -/
theorem test_illegal_words :
    decode 0xFF000000 = .illegal .unassignedOpcode ∧ decode 0x02000000 = .illegal .unassignedOpcode ∧
    decode 0xFF00FF00 = .illegal .unassignedOpcode ∧ decode 0x11000100 = .illegal .reservedBits ∧
    decode 0x3000FF00 = .illegal .reservedBits ∧ decode 0x10000002 = .illegal .unusedImmediate ∧
    decode 0x00000001 = .illegal .unusedImmediate ∧ decode 0x12000001 = .illegal .unusedImmediate := by decide

/-- V-X1: the report of an illegal word. -/
theorem test_illegal_report : ends (run 0x3000FF00 State.reset) (fun t =>
    t.statusWord == 0x00010404 && t.errInfo == 0x3000FF00 && t.lastCmd == 0x3000FF00) = true := by decide +kernel

/-! ### Commands, one step each -/

/-- V-C1 in small: ERRCODE and ERRINFO cleared by the issue, DONE set. -/
theorem test_nop : ends (run 0x00000000 { State.reset with err := true, errCode := .underflow, errInfo := 11 })
    (fun t => t.statusWord == 2 && t.errInfo == 0) = true := by decide +kernel

/-- V-C2 in small. -/
theorem test_clear : ends (run 0x01000000 { abReady 4 with outLen := 2, wcnt := 3, haz := true }) (fun t =>
    t.statusWord == 2 && t.outLen == 0 && t.wcnt == 0 && t.inLen == 2 && t.root == 0 && t.readTarget (.nodeW0 0) == 0 &&
    t.readTarget (.nodeW1 2) == 0 && t.freqOf 0x61 == 0) = true := by decide +kernel

/-- V-B1: the third of WBIT 1, WBIT 0, WBIT 1. -/
theorem test_wbit : ends (run 0x10000001 { State.reset with wacc := 0x80, wcnt := 2 }) (fun t =>
    t.wacc == 0xA0 && t.wcnt == 3 && t.outLen == 0 && t.statusWord == 2) = true := by decide +kernel

/-- V-B3: the bit that would complete a byte past the capacity. -/
theorem test_wbit_overflow : ends (run 0x10000000 { loaded 1 1 [] with wacc := 0xFE, wcnt := 7, outLen := 1 }) (fun t =>
    t.statusWord == 0x604 && t.errInfo == 1 && t.wacc == 0xFE && t.wcnt == 7 && t.outLen == 1) = true := by decide +kernel

/-- V-B2: a byte that straddles. -/
theorem test_wbyte : ends (run 0x11000041 { State.reset with wacc := 0x80, wcnt := 1 }) (fun t =>
    t.outBytes == [0xA0] && t.wacc == 0x80 && t.wcnt == 1) = true := by decide +kernel

/-- V-B5b: 33 bits complete exactly the four bytes of OBUF. -/
theorem test_wint : ends (run 0x12000000 { loaded 4 4 [] with arg := 11, wacc := 0x80, wcnt := 1 }) (fun t =>
    t.outBytes == [0x80, 0, 0, 5] && t.wacc == 0x80 && t.wcnt == 1 && t.done) = true := by decide +kernel

/-- V-B1. -/
theorem test_flush : ends (run 0x13000000 { State.reset with wacc := 0xA0, wcnt := 3 }) (fun t =>
    t.outBytes == [0xA0] && t.wacc == 0 && t.wcnt == 0) = true := by decide +kernel

/-- V-B5b. -/
theorem test_flush_overflow : ends (run 0x13000000 { loaded 4 4 [] with outLen := 4, wacc := 0x80, wcnt := 1 }) (fun t =>
    t.statusWord == 0x604 && t.errInfo == 4 && t.wcnt == 1) = true := by decide +kernel

/-- V-B9b: bit 12 of A5 3C. -/
theorem test_rbit : ends (run 0x18000000 { loaded 16 1 [0xA5, 0x3C] with rposByte := 1, rposBit := 4 }) (fun t =>
    t.result == 1 && t.rpos == 13) = true := by decide +kernel

/-- V-B6: a byte across a byte boundary. -/
theorem test_rbyte : ends (run 0x19000000 { loaded 16 1 [0xA5, 0x3C] with rposBit := 4 }) (fun t =>
    t.result == 0x53 && t.rpos == 12) = true := by decide +kernel

/-- V-B7. -/
theorem test_rint : ends (run 0x1A000000 { loaded 16 1 [0xDE, 0xAD, 0xBE, 0xEF, 0x01] with rposBit := 4 }) (fun t =>
    t.result == 0xEADBEEF0 && t.rpos == 36) = true := by decide +kernel

/-- V-B8. -/
theorem test_rint_underflow : ends (run 0x1A000000 (loaded 16 1 [1, 2, 3])) (fun t =>
    t.statusWord == 0x104 && t.errInfo == 0 && t.rpos == 0 && t.result == 0) = true := by decide +kernel

/-- V-E1. -/
theorem test_tabulate : ends (run 0x20000000 (loaded 16 1 abra)) (fun t =>
    t.statusWord == 0xA && t.freqOf 0x41 == 5 && t.freqOf 0x42 == 2 && t.freqOf 0x43 == 1 && t.freqOf 0x44 == 1 &&
    t.freqOf 0x52 == 2 && t.freqOf 0x00 == 0) = true := by decide +kernel

/-- V-E2: the tie at frequency 2 goes to the lowest indices. -/
theorem test_build : ends (run 0x21000000 { State.reset with
      freqValid := true
      freq := (((((Vector.replicate 256 0).set 0x41 5).set 0x42 2).set 0x43 1).set 0x44 1).set 0x52 2 }) (fun t =>
    t.statusWord == 0x1A && t.readReg .trieInfo == 0x00090008 && t.nleaves == 5 &&
    (t.node.toList.take 9).map nodeWord0 == [0x80000041, 0x80000042, 0x80000043, 0x80000044, 0x80000052, 0x00040300,
      0x00020400, 0x000A0600, 0x00000700] &&
    (t.node.toList.take 9).map (·.freq) == [5, 2, 1, 1, 2, 2, 4, 6, 11]) = true := by decide +kernel

/-- V-E14, V-E15. -/
theorem test_build_errors :
    ends (run 0x21000000 State.reset) (fun t => t.statusWord == 0x00010504) = true ∧
    ends (run 0x21000000 { State.reset with freqValid := true, freq := .replicate 256 0, root := 3 }) (fun t =>
      t.statusWord == 0x0001030C && t.readReg .trieInfo == 0) = true := by decide +kernel

/-- V-E10: the codes of "ab" are `0` and `1`. -/
theorem test_derive : ends (run 0x22000000 { abReady 4 with codesValid := false }) (fun t =>
    t.statusWord == 0x3A && t.code 0x61 == [false] && t.code 0x62 == [true] &&
    t.readTarget (.codeLen 0x62) == 0x101 && t.readTarget (.codeBits 0x62 0) == 0x80000000 &&
    t.readTarget (.codeLen 0x63) == 0) = true := by decide +kernel

/-- V-E10: the header bits `0 1 01100001 1 01100010` of "ab". -/
theorem test_serialize : ends (run 0x23000000 (abReady 4)) (fun t =>
    t.outBytes == [0x58, 0x6C] && t.wacc == 0x40 && t.wcnt == 3) = true := by decide +kernel

/-- V-E16: the codes of a and b are written, c has none. -/
theorem test_encode_no_code : ends (run 0x24000000 { abReady 4 with ibuf := [(0, 0x61), (1, 0x62), (2, 0x63)], inLen := 3 })
    (fun t => t.statusWord == 0x73C && t.errInfo == 2 && t.wacc == 0x40 && t.wcnt == 2 && t.outLen == 0) = true := by
  decide +kernel

/-- V-E18 in small: four codes `0` of an old trie. -/
theorem test_encode : ends (run 0x24000000 { abReady 4 with ibuf := [(0, 0x61), (1, 0x61), (2, 0x61), (3, 0x61)], inLen := 4 })
    (fun t => t.wacc == 0 && t.wcnt == 4 && t.done) = true := by decide +kernel

/-- V-D1 up to the trie. -/
theorem test_deserialize : ends (run 0x28000000 (loaded 16 1 abraUnit)) (fun t =>
    t.statusWord == 0x12 && t.readReg .trieInfo == 0x00090000 && t.nleaves == 5 && t.rpos == 49 &&
    (t.node.toList.take 9).map nodeWord0 == [0x00020200, 0x80000041, 0x00060600, 0x00080500, 0x80000043, 0x80000044,
      0x000E0800, 0x80000042, 0x80000052]) = true := by decide +kernel

/-- V-D5. -/
theorem test_deserialize_duplicate : ends (run 0x28000000 (loaded 16 1 [0x50, 0x68, 0x20])) (fun t =>
    t.statusWord == 0x00020204 && t.errInfo == 2 && t.rpos == 19 && t.nnodes == 2 && t.nleaves == 1) = true := by
  decide +kernel

/-- V-D8: `0 1` at bit 51 of the unit of "ab". -/
theorem test_decode : ends (run 0x29000000 { abReady 4 with
      ibuf := (loaded 16 4 abUnit).ibuf, inLen := 7, rposByte := 6, rposBit := 3, arg := 2 }) (fun t =>
    t.outBytes == [0x61, 0x62] && t.rpos == 53 && t.dlen == 2 && t.dcount == 2) = true := by decide +kernel

/-- V-D13: decoded bytes behind one pending bit. -/
theorem test_decode_unaligned : ends (run 0x29000000 { abReady 4 with
      ibuf := (loaded 16 4 abUnit).ibuf, inLen := 7, rposByte := 6, rposBit := 3, arg := 2, wacc := 0x80, wcnt := 1 })
    (fun t => t.outBytes == [0xB0, 0xB1] && t.wacc == 0 && t.wcnt == 1) = true := by decide +kernel

/-- V-E6. -/
theorem test_compress : ends (run 0x30000000 (loaded 16 16 abra)) (fun t =>
    t.outBytes == abraUnit && t.statusWord == 0x3A && t.rpos == 0 && t.wcnt == 0) = true := by decide +kernel

/-- V-E17 with OBUF_BYTES = 12: the final flush fails. -/
theorem test_compress_overflow : ends (run 0x30000000 (loaded 16 12 abra)) (fun t =>
    t.statusWord == 0x63C && t.errInfo == 12 && t.outLen == 12 && t.wacc == 0x6E && t.wcnt == 7) = true := by decide +kernel

/-- V-D1. -/
theorem test_expand : ends (run 0x31000000 (loaded 16 16 abraUnit)) (fun t =>
    t.outBytes == abra && t.statusWord == 0x12 && t.rpos == 104 && t.dlen == 11 && t.dcount == 11) = true := by decide +kernel

/-- V-D4 with L = 11. -/
theorem test_expand_truncated : ends (run 0x31000000 (loaded 16 16 (abraUnit.take 11))) (fun t =>
    t.statusWord == 0x114 && t.errInfo == 11 && t.rpos == 88 && t.outBytes == [0x41, 0x42, 0x52] && t.dcount == 3) = true := by
  decide +kernel

/-! ### The HOST's ports -/

/-- V-X2 (3): a misaligned read returns 0 and sets HAZ. -/
theorem test_misaligned_read : ends (step (hostMoves (.regRead 0x006))) (fun t =>
    t.haz && t.portData == some (.word 0)) = true := by decide +kernel

/-- V-X2 (5): a second command is dropped with HAZ. -/
theorem test_busy_command : ends (step (hostMovesBusy (.regWrite 0 0x30000000))) (fun t =>
    t.haz && t.pending == some 0 && t.lastCmd == 0) = true := by decide +kernel

/-- V-X2 (4): a write to FREQ[0] does nothing. -/
theorem test_table_write : step (hostMoves (.regWrite 0x400 0xFFFFFFFF)) = .next State.reset := rfl

/-- V-X4: a reset while busy. -/
theorem test_reset_while_busy : ends (step { pendingWord 0x30000000 with schedule := [.reset], inLen := 2 }) (fun t =>
    t.statusWord == 0 && t.inLen == 0 && t.lastCmd == 0 && t.pending == none) = true := by decide +kernel

/-- V-X3 (5), (6): ERR masked, then HAZ. -/
theorem test_irq :
    ({ State.reset with err := true, errCode := .underflow, ieHaz := true } : State).irq = false ∧
    ({ State.reset with haz := true, ieHaz := true } : State).irq = true := by decide

/-- R28, R35, R36, R44: words put together by hand from their fields (NODE[2] and TRIEINFO of "ab" as in V-E10). -/
theorem test_register_words :
    (abReady 4).readTarget (.reg .trieInfo) = 0x00030002 ∧ (abReady 4).readTarget (.nodeW0 2) = 0x00000100 ∧
    ({ State.reset with wacc := 0xA0, wcnt := 3 } : State).readTarget (.reg .wstate) = 0x3A0 ∧
    ({ State.reset with emptyMode := true, ieHaz := true } : State).readTarget (.reg .ctrl) = 0x9 := by decide +kernel

/-- R89: LOADIN and WAIT, and the words their statements write. -/
theorem test_pseudo :
    expandPseudo 0 (.loadIn [0x61, 0x62]) = [.ib 0 0x61, .ib 1 0x62, .wr .inLen 2] ∧
    expandPseudo 5 .wait = [.rd (.reg .status), .ifGoto 1 1 5] ∧
    stmtAccess (.command .expand) = some (.regWrite 0 0x31000000) ∧
    stmtAccess (.rd (.nodeW1 510)) = some (.regRead 0x1FF4) := by decide

/-- V-X2 (1): the HOST's polling loop of WAIT sees BUSY, and goes on once the ENGINE has run. -/
theorem test_wait : (match HostRun.turns { program := expandPseudo 0 (.run .nop), next := 0, machine := State.reset }
      [true, true, true, false, true, true] with
    | .next h => h.ended && lastRead h.machine == 2
    | _ => false) = true := by decide +kernel

theorem test_store_keeps_order : Memory.store [(1, 0xAA), (3, 0xBB)] 2 0xCC = [(1, 0xAA), (2, 0xCC), (3, 0xBB)] := by decide

/-! ### Witnesses: reset, decoding and the step -/

theorem witness_ResetLeavesTheStatedValues : State.reset = State.afterReset 4096 4096 0 := rfl

theorem witness_ResetDiscardsThePendingCommand : ∃ (s : State) (rest : List Event),
    s.schedule = .reset :: rest ∧ s.pending = some 0x30000000 :=
  ⟨{ pendingWord 0x30000000 with schedule := [.reset] }, [], rfl, rfl⟩

theorem witness_EncodeThenDecodeIsTheCommand :
    (∀ i ∈ [Instr.nop, .wbit 0, .wbit 1, .wbyte 0, .wbyte 0xFF, .expand], i.wellFormed = true) := by decide

theorem witness_DecodeThenEncodeIsTheWord :
    decode 0x10000001 = .command (.wbit 1) ∧ decode 0x110000FF = .command (.wbyte 0xFF) := by decide

theorem witness_IllegalWordsByFirstFailedCheck :
    let ops : List Byte := [0x00, 0x01, 0x10, 0x11, 0x12, 0x13, 0x18, 0x19, 0x1A, 0x20, 0x21, 0x22, 0x23, 0x24, 0x28, 0x29,
      0x30, 0x31]
    (False ↔ BitVec.extractLsb' 24 8 (0xFF00FF01 : Word) ∈ ops) ∧ (True ↔ BitVec.extractLsb' 24 8 (0x11000100 : Word) ∈ ops) ∧
    (True ↔ BitVec.extractLsb' 24 8 (0x10000002 : Word) ∈ ops) ∧ (True ↔ BitVec.extractLsb' 24 8 (0x31000001 : Word) ∈ ops) := by
  decide

theorem witness_StepRunsThePendingCommand :
    (engineNext (pendingWord 0x24000000) [] ∧ (pendingWord 0x24000000).pending = some 0x24000000 ∧
      decode 0x24000000 = .command .encode) ∧
    (engineNext { State.reset with schedule := [.engine, .reset] } [.reset] ∧ State.reset.pending = none) :=
  ⟨⟨.inl ⟨rfl, rfl⟩, rfl, by decide⟩, .inr rfl, rfl⟩

theorem witness_StepReportsAnIllegalWord :
    ∀ w ∈ [(0xFF00FF00 : Word), 0x3000FF01, 0x10000002], engineNext (pendingWord w) [] ∧ (pendingWord w).pending = some w :=
  fun _ _ => ⟨.inl ⟨rfl, rfl⟩, rfl⟩

theorem witness_CmdWriteIssuesTheCommand : ∃ (s : State) (v : Word),
    s.schedule = .host (.regWrite 0x000 v) :: [.engine] ∧ s.pending = none :=
  ⟨{ State.reset with schedule := [.host (.regWrite 0 0x30000000), .engine] }, 0x30000000, rfl, rfl⟩

/-- One command ends with DONE, the other with ERR. -/
theorem witness_EveryCommandEndsDoneOrErr : ∃ s t u : State, s.done = false ∧ s.err = false ∧
    exec .nop s = .next t ∧ t.done = true ∧ exec .rbit s = .next u ∧ u.err = true := by
  obtain ⟨t, ht, h1⟩ := next_of_ends (o := exec .nop State.reset) (f := fun t => t.done) (by decide +kernel)
  obtain ⟨u, hu, h2⟩ := next_of_ends (o := exec .rbit State.reset) (f := fun t => t.err) (by decide +kernel)
  exact ⟨State.reset, t, u, rfl, rfl, ht, h1, hu, h2⟩

/-! ### Witnesses: bit-stream commands -/

/-- The last bits that fit and the first that do not, for each of the three. -/
theorem witness_WriteCommandsAppendTheirBits :
    (written (.wbit 1) { loaded 1 1 [] with wcnt := 7 } = some [true] ∧ fits { loaded 1 1 [] with wcnt := 7 } 1) ∧
    (written (.wbit 1) { loaded 1 1 [] with wcnt := 7, outLen := 1 } = some [true] ∧
      ¬fits { loaded 1 1 [] with wcnt := 7, outLen := 1 } 1) ∧
    (written (.wbyte 0x80) (loaded 1 1 []) = some [true, false, false, false, false, false, false, false] ∧
      fits (loaded 1 1 []) 8 ∧ ¬fits { loaded 1 1 [] with outLen := 1 } 8) ∧
    ((written .wint (loaded 1 4 [])).map List.length = some 32 ∧ fits (loaded 1 4 []) 32 ∧ ¬fits (loaded 1 3 []) 32) := by
  unfold fits
  decide +kernel

theorem witness_FlushStoresThePartialByte :
    State.reset.wcnt = 0 ∧
    (let s := { loaded 1 1 [] with wcnt := 1, outLen := 1 }; s.wcnt ≠ 0 ∧ s.outLen = s.capOut) ∧
    (let s := { loaded 1 1 [] with wcnt := 7, wacc := 0xFE }; s.wcnt ≠ 0 ∧ s.outLen.toNat < s.capOut.toNat ∧ s.packerClean) := by
  unfold State.packerClean
  decide +kernel

/-- Exactly the bits asked for, and one too few. -/
theorem witness_ReadCommandsReturnTheNextBits :
    (let s := loaded 4 1 [1, 2, 3, 4]; readWidth .rint = some 32 ∧ s.inLen.toNat ≤ s.capIn.toNat ∧
      s.rpos + 32 ≤ 8 * s.inLen.toNat) ∧
    (let s := { loaded 4 1 [1, 2, 3, 4] with rposBit := 1 }; 8 * s.inLen.toNat < s.rpos + 32) ∧
    (let s := loaded 1 1 [1]; readWidth .rbyte = some 8 ∧ s.inLen.toNat ≤ s.capIn.toNat ∧ s.rpos + 8 ≤ 8 * s.inLen.toNat) ∧
    (let s := loaded 1 1 []; readWidth .rbit = some 1 ∧ 8 * s.inLen.toNat < s.rpos + 1) := by
  decide +kernel

/-- V-B10 in small: a bit and a byte written, flushed and read back. -/
theorem witness_FieldsWrittenAreReadBack : ∃ (fs : List (Σ n : Nat, BitVec n)) (s t u : State),
    (∀ f ∈ fs, 1 ≤ f.1 ∧ f.1 ≤ 32) ∧ fs.length = 2 ∧
    s.outLen = 0 ∧ s.wcnt = 0 ∧ s.wacc = 0 ∧ (writeFields fs).run s = .ok () t ∧
    u.inBytes = t.outBytes ∧ u.rpos = 0 ∧ u.inLen.toNat ≤ u.capIn.toNat := by
  have h : (match (writeFields [⟨1, 1#1⟩, ⟨8, 0xC3#8⟩]).run (loaded 4 4 []) with
    | .ok _ t => (loaded 4 4 [0xE1, 0x80]).inBytes == t.outBytes
    | .error _ _ => false) = true := by decide +kernel
  cases hr : (writeFields [⟨1, 1#1⟩, ⟨8, 0xC3#8⟩]).run (loaded 4 4 []) with
  | error _ _ => rw [hr] at h; cases h
  | ok _ t =>
    rw [hr] at h
    exact ⟨[⟨1, 1#1⟩, ⟨8, 0xC3#8⟩], loaded 4 4 [], t, loaded 4 4 [0xE1, 0x80], by simp, rfl, rfl, rfl, rfl, hr,
      eq_of_beq h, rfl, by decide⟩

/-! ### Witnesses: the encoder -/

/-- IN_LEN at the capacity. -/
theorem witness_TabulateCountsTheInput : let s := loaded 2 1 [0x61, 0x62]; s.inLen.toNat = s.capIn.toNat := by decide

theorem witness_MissingTableIsNotReady :
    State.reset.freqValid = false ∧ State.reset.trieValid = false ∧ State.reset.codesValid = false := by decide

/-- All counts zero, with a trie of an earlier input still valid. -/
theorem witness_BuildWithoutLeavesIsEmptyInput : let s := { abReady 4 with freq := Vector.replicate 256 0 };
    s.freqValid = true ∧ s.trieValid = true ∧ ∀ b : Byte, s.freqOf b = 0 :=
  ⟨rfl, rfl, fun b => by simp [State.freqOf]⟩

/-- A machine whose input held every byte value once. -/
def allPresent : State := { State.reset with freqValid := true, freq := Vector.replicate 256 1 }

theorem allPresent_present : allPresent.presentBytes = allBytes :=
  List.filter_eq_self.mpr fun b _ => by simp [State.freqOf, allPresent]

/-- Byte value 0 alone, and every byte value. -/
theorem witness_BuildSeedsOneLeafPerPresentByte :
    (let s := { State.reset with freqValid := true, freq := (Vector.replicate 256 0).set 0 7 };
      s.freqValid = true ∧ s.presentBytes ≠ []) ∧
    (allPresent.freqValid = true ∧ allPresent.presentBytes ≠ [] ∧ allPresent.presentBytes.length = 256) := by
  rw [allPresent_present]
  refine ⟨⟨rfl, List.ne_nil_of_mem (a := 0) ?_⟩, rfl, by simp [allBytes], by simp [allBytes]⟩
  exact List.mem_filter.mpr ⟨List.mem_map.mpr ⟨0, by simp, rfl⟩, by decide +kernel⟩

/-- Every byte value, so that n takes its whole range, 256 to 510. -/
theorem witness_BuildMergesTheTwoFirstOfTheQueue :
    allPresent.freqValid = true ∧ allPresent.presentBytes ≠ [] ∧ allPresent.freqSum < 2 ^ 32 ∧
      allPresent.presentBytes.length ≤ 510 ∧ 510 < 2 * allPresent.presentBytes.length - 1 := by
  rw [allPresent_present]
  refine ⟨rfl, by simp [allBytes], ?_, by simp [allBytes], by simp [allBytes]⟩
  have h : ∀ b, (allPresent.freqOf b).toNat = 1 := fun b => by simp [State.freqOf, allPresent]
  rw [State.freqSum, funext h, List.map_const', List.sum_replicate_nat]
  simp [allBytes]

theorem witness_BuildMakesATrieOfThePresentBytes : allPresent.freqValid = true ∧ allPresent.presentBytes ≠ [] := by
  rw [allPresent_present]
  exact ⟨rfl, by simp [allBytes]⟩

theorem witness_NodeFrequencySumsItsLeaves :
    let s := loaded 2 1 [0x61, 0x62]; s.inLen.toNat ≤ s.capIn.toNat ∧ s.inLen ≠ 0 := by decide

theorem witness_DeriveRecordsThePathOfEachLeaf :
    (abReady 4).trieValid = true ∧ (abReady 4).trie = some abTrie ∧ abTrie.leaves.Nodup ∧
    ({ abReady 4 with root := 0, nnodes := 1 } : State).trie = some (.leaf 0x61) := by decide +kernel

/-- Two distinct present symbols after the step. -/
theorem witness_DerivedCodesArePrefixFree : ∃ (s t : State) (tr : Trie), s.trieValid = true ∧ s.trie = some tr ∧
    tr.leaves.Nodup ∧ exec .derive s = .next t ∧ (t.codeLenOf 0x61).present = true ∧ (t.codeLenOf 0x62).present = true := by
  obtain ⟨t, ht, h⟩ := next_of_ends (o := exec .derive (abReady 4))
    (f := fun t => (t.codeLenOf 0x61).present && (t.codeLenOf 0x62).present) (by decide +kernel)
  rw [Bool.and_eq_true] at h
  exact ⟨abReady 4, t, abTrie, rfl, by decide +kernel, by decide, ht, h.1, h.2⟩

/-- 19 header bits complete exactly the two bytes of OBUF. -/
theorem witness_SerializeAppendsThePreOrderTrie :
    let s := abReady 2; s.trieValid = true ∧ s.trie = some abTrie ∧ fits s abTrie.bits.length := by
  unfold fits
  decide +kernel

theorem witness_EncodeAppendsTheCodesOfTheInput :
    let s := { abReady 1 with wcnt := 6 }
    s.codesValid = true ∧ s.inLen.toNat ≤ s.capIn.toNat ∧ (∀ b ∈ s.inBytes, (s.codeLenOf b).present = true) ∧
      fits s (s.inBytes.flatMap s.code).length ∧ (s.inBytes.flatMap s.code).length = 2 := by
  unfold fits
  decide +kernel

/-- V-E16. -/
theorem witness_EncodeStopsAtAByteWithoutACode :
    let s := { abReady 4 with ibuf := [(0, 0x61), (1, 0x62), (2, 0x63)], inLen := 3 }
    s.codesValid = true ∧ s.inLen.toNat ≤ s.capIn.toNat ∧ 2 < s.inLen.toNat ∧
      (∀ b ∈ s.inBytes.take 2, (s.codeLenOf b).present = true) ∧ (s.codeLenOf (s.ibufByte 2)).present = false ∧
      fits s ((s.inBytes.take 2).flatMap s.code).length := by
  unfold fits
  decide +kernel

/-- EMPTY_MODE = 1; room for exactly six bytes; for five; for four; for one; for none. -/
theorem witness_CompressOfAnEmptyInput :
    (loaded 1 6 []).inLen = 0 ∧ ({ loaded 1 6 [] with emptyMode := true } : State).emptyMode = true ∧
    ((loaded 1 6 []).emptyMode = false ∧ 6 ≤ (loaded 1 6 []).capOut.toNat) ∧
    ((loaded 1 5 []).emptyMode = false ∧ (loaded 1 5 []).capOut.toNat = 5) ∧
    ((loaded 1 4 []).capOut.toNat < 5 ∧ 1 ≤ (loaded 1 1 []).capOut.toNat ∧ (loaded 1 0 []).capOut.toNat = 0) := by decide

/-- "ab", whose unit has 53 bits (V-E10): OBUF of exactly seven bytes, and of six. -/
theorem witness_CompressWritesTheUnit : ∀ cap ∈ [(7 : Word), 6], let s := loaded 2 cap [0x61, 0x62];
    s.inLen ≠ 0 ∧ s.inLen.toNat = s.capIn.toNat ∧
    ends (exec .compress s) (fun t => (t.done == (cap == 7)) && (t.code 0x61 ++ t.code 0x62).length + 19 + 32 == 53) = true := by
  intro cap h
  simp only [List.mem_cons, List.not_mem_nil, or_false] at h
  rcases h with rfl | rfl <;> decide +kernel

/-- Two machines with one input: one fresh, one with another input capacity, tables and packer state. -/
theorem witness_CompressDependsOnlyOnItsInput : ∃ s s' t t' : State, s.inLen = s'.inLen ∧ s.inBytes = s'.inBytes ∧
    s.emptyMode = s'.emptyMode ∧ s.capOut = s'.capOut ∧ s.done = false ∧ s'.done = false ∧
    ¬(s.inLen = 0 ∧ s.emptyMode = true) ∧ exec .compress s = .next t ∧ exec .compress s' = .next t' ∧
    s.capIn ≠ s'.capIn ∧ s.wcnt ≠ s'.wcnt := by
  obtain ⟨t, ht, -⟩ := next_of_ends (o := exec .compress (loaded 2 16 [0x61, 0x62])) (f := fun _ => true) (by decide +kernel)
  obtain ⟨t', ht', -⟩ := next_of_ends (o := exec .compress { abReady 16 with wcnt := 3 }) (f := fun _ => true) (by decide +kernel)
  exact ⟨_, _, t, t', by decide +kernel, by decide +kernel, by decide +kernel, by decide +kernel, by decide +kernel,
    by decide +kernel, by decide +kernel, ht, ht', by decide +kernel, by decide +kernel⟩

/-! ### Witnesses: the decoder -/

theorem witness_DeserializeReadsTheSerializedTrie : let s := loaded 16 1 abUnit;
    s.inLen.toNat ≤ s.capIn.toNat ∧ abTrie.leaves.Nodup ∧ s.rpos + abTrie.bits.length ≤ 8 * s.inLen.toNat ∧
      s.streamBits s.rpos abTrie.bits.length = abTrie.bits := by decide +kernel

/-- The stream ends at once, and five bits into the byte of the second leaf. -/
theorem witness_StreamEndInsideATrieIsCorruptTrie :
    (let s := loaded 16 1 [];
      s.inLen.toNat ≤ s.capIn.toNat ∧ abTrie.leaves.Nodup ∧ abTrie.fields = [] ++ [false] :: abTrie.fields.drop 1 ∧
      0 < [false].length ∧ s.rpos + 0 + 0 = 8 * s.inLen.toNat ∧ s.streamBits s.rpos 0 = [] ++ [false].take 0) ∧
    (let s := loaded 16 1 [0x58, 0x6C];
      let read := [[false], [true], msbBits (0x61 : Byte), [true]];
      let field := msbBits (0x62 : Byte);
      s.inLen.toNat ≤ s.capIn.toNat ∧ abTrie.fields = read ++ field :: [] ∧ 5 < field.length ∧
      s.rpos + read.flatten.length + 5 = 8 * s.inLen.toNat ∧
      s.streamBits s.rpos (read.flatten.length + 5) = read.flatten ++ field.take 5) := by decide +kernel

/-- A trie of n internal nodes below one another by their left child, the leaf b in every other place. -/
def leftComb (b : Byte) : Nat → Trie
  | 0 => .leaf b
  | n + 1 => .node (leftComb b n) (.leaf b)

theorem leftComb_fields (b : Byte) (n : Nat) :
    ∃ rest, (leftComb b n).fields = List.replicate n [false] ++ rest := by
  induction n with
  | zero => exact ⟨_, rfl⟩
  | succ n ih =>
    obtain ⟨rest, h⟩ := ih
    exact ⟨rest ++ (Trie.leaf b).fields, by simp [leftComb, Trie.fields, h, List.replicate_succ]⟩

/-- A leaf between the markers: `0`, the leaf 41, then 255 markers more. -/
theorem witness_ManyInternalNodesAreCorruptTrie : ∃ (s : State) (tr : Trie) (read rest : List (List Bool)),
    s.inLen.toNat ≤ s.capIn.toNat ∧ tr.fields = read ++ [false] :: rest ∧ read.count [false] = 255 ∧
    (read.filter isByteField).Nodup ∧ read.countP isByteField = 1 ∧
    s.rpos + (read.flatten.length + 1) ≤ 8 * s.inLen.toNat ∧
    s.streamBits s.rpos (read.flatten.length + 1) = read.flatten ++ [false] := by
  obtain ⟨rest, h⟩ := leftComb_fields 0 255
  refine ⟨loaded 40 1 ([0x50, 0x40] ++ List.replicate 32 0), .node (.leaf 0x41) (leftComb 0 255),
    [[false], [true], msbBits (0x41 : Byte)] ++ List.replicate 254 [false], rest, by decide, ?_, ?_⟩
  · rw [Trie.fields, h, List.replicate_succ' (n := 254)]
    simp only [Trie.fields, List.cons_append, List.nil_append, List.append_assoc]
  · decide +kernel

/-- V-D5. -/
theorem witness_RepeatedLeafSymbolIsCorruptTrie :
    let s := loaded 16 1 [0x50, 0x68, 0x20]
    let tr : Trie := .node (.leaf 0x41) (.leaf 0x41)
    let read := [[false], [true], msbBits (0x41 : Byte), [true]]
    s.inLen.toNat ≤ s.capIn.toNat ∧ tr.fields = read ++ msbBits (0x41 : Byte) :: [] ∧ msbBits (0x41 : Byte) ∈ read ∧
      (read.filter isByteField).Nodup ∧ read.count [false] ≤ 255 ∧
      s.rpos + (read.flatten.length + 8) ≤ 8 * s.inLen.toNat ∧
      s.streamBits s.rpos (read.flatten.length + 8) = read.flatten ++ msbBits (0x41 : Byte) := by decide +kernel

/-- V-D8. -/
theorem witness_DecodeAppendsTheDecodedSymbols :
    let s := { abReady 2 with ibuf := (loaded 16 4 abUnit).ibuf, inLen := 7, rposByte := 6, rposBit := 3, arg := 2 }
    let ps : List (Byte × List Bool) := [(0x61, [false]), (0x62, [true])]
    s.trieValid = true ∧ s.trie = some abTrie ∧ (∀ p ∈ ps, p ∈ abTrie.codes) ∧ ps.length = s.arg.toNat ∧
      s.inLen.toNat ≤ s.capIn.toNat ∧ s.rpos + (ps.flatMap fun p => p.2).length ≤ 8 * s.inLen.toNat ∧
      s.streamBits s.rpos (ps.flatMap fun p => p.2).length = ps.flatMap (fun p => p.2) ∧ fits s (8 * ps.length) := by
  unfold fits
  decide +kernel

/-- Two bits of the stream are left, and three symbols asked for. -/
theorem witness_DecodeKeepsWhatItEmittedBeforeUnderflow :
    let s := { abReady 2 with ibuf := [(0, 0x01)], inLen := 1, rposBit := 6, arg := 3 }
    let ps : List (Byte × List Bool) := [(0x61, [false]), (0x62, [true])]
    let q : Byte × List Bool := (0x62, [true])
    s.trieValid = true ∧ s.trie = some abTrie ∧ (∀ p ∈ ps, p ∈ abTrie.codes) ∧ q ∈ abTrie.codes ∧ ps.length < s.arg.toNat ∧
      0 < q.2.length ∧ s.inLen.toNat ≤ s.capIn.toNat ∧
      s.rpos + (ps.flatMap fun p => p.2).length + 0 = 8 * s.inLen.toNat ∧
      s.streamBits s.rpos ((ps.flatMap fun p => p.2).length + 0) = ps.flatMap (fun p => p.2) ++ q.2.take 0 ∧
      fits s (8 * ps.length) := by
  unfold fits
  decide +kernel

/-- V-E10's unit of "ab", OBUF of exactly two bytes. -/
theorem witness_ExpandDecodesTheUnit :
    let s := loaded 16 2 abUnit
    let ps : List (Byte × List Bool) := [(0x61, [false]), (0x62, [true])]
    let bits := abTrie.bits ++ msbBits (2 : Word) ++ ps.flatMap (fun p => p.2)
    abTrie.leaves.Nodup ∧ (∀ p ∈ ps, p ∈ abTrie.codes) ∧ ps.length = (2 : Word).toNat ∧ (2 : Word).toNat ≤ s.capOut.toNat ∧
      s.inLen.toNat ≤ s.capIn.toNat ∧ bits.length ≤ 8 * s.inLen.toNat ∧ s.streamBits 0 bits.length = bits := by decide +kernel

/-- V-D1, and V-D14's one-byte input FF. -/
theorem witness_ExpandEndsWholeOrWithErr : ∃ s t s' t' : State, s.done = false ∧ s.err = false ∧ exec .expand s = .next t ∧
    t.done = true ∧ s'.done = false ∧ s'.err = false ∧ exec .expand s' = .next t' ∧ t'.err = true := by
  obtain ⟨t, ht, h⟩ := next_of_ends (o := exec .expand (loaded 16 2 abUnit)) (f := fun t => t.done) (by decide +kernel)
  obtain ⟨t', ht', h'⟩ := next_of_ends (o := exec .expand (loaded 16 2 [0xFF])) (f := fun t => t.err) (by decide +kernel)
  exact ⟨_, t, _, t', rfl, rfl, ht, h, rfl, rfl, ht', h'⟩

theorem witness_ExpandUndoesCompress : ∃ s t u : State, s.inLen.toNat ≤ s.capIn.toNat ∧ s.done = false ∧
    exec .compress s = .next t ∧ t.done = true ∧ u.inBytes = t.outBytes ∧ u.inLen.toNat ≤ u.capIn.toNat ∧
    s.inLen.toNat ≤ u.capOut.toNat := by
  obtain ⟨t, ht, h⟩ := next_of_ends (o := exec .compress (loaded 2 16 [0x61, 0x62]))
    (f := fun t => t.done && (loaded 7 2 abUnit).inBytes == t.outBytes) (by decide +kernel)
  rw [Bool.and_eq_true] at h
  exact ⟨_, t, loaded 7 2 abUnit, by decide, rfl, ht, h.1, eq_of_beq h.2, by decide, by decide⟩

/-- The unit of "ab" cut inside the trie, and by its last byte. -/
theorem witness_TruncatedUnitDoesNotExpand : ∀ k ∈ [0, 2, 6], ∃ s t u : State, s.inLen.toNat ≤ s.capIn.toNat ∧
    s.done = false ∧ exec .compress s = .next t ∧ t.done = true ∧ k < t.outLen.toNat ∧ u.inBytes = t.outBytes.take k ∧
    u.inLen.toNat ≤ u.capIn.toNat ∧ s.inLen.toNat ≤ u.capOut.toNat := by
  obtain ⟨t, ht, h⟩ := next_of_ends (o := exec .compress (loaded 2 16 [0x61, 0x62]))
    (f := fun t => t.done && t.outLen == 7 && abUnit == t.outBytes) (by decide +kernel)
  simp only [Bool.and_eq_true, beq_iff_eq] at h
  intro k hk
  refine ⟨_, t, loaded 7 2 (abUnit.take k), by decide, rfl, ht, h.1.1, ?_, ?_, ?_, ?_⟩
  · rw [h.1.2]; revert k; decide
  · rw [← h.2]; revert k; decide +kernel
  · revert k; decide
  · revert k; decide

/-! ### Witnesses: rules about every command -/

theorem witness_NoCommandTouchesTheHostsState : ∃ s t : State, exec .compress s = .next t ∧ t.err = false := by
  obtain ⟨t, ht, h⟩ := next_of_ends (o := exec .compress (loaded 2 16 [0x61, 0x62])) (f := fun t => !t.err) (by decide +kernel)
  exact ⟨_, t, ht, by simpa using h⟩

/-- A command of each clause's exempt list, and one outside all of them. -/
theorem witness_EachTableHasItsOwnWriters :
    ∀ i ∈ [Instr.rbyte, .tabulate, .build, .derive, .decode, .clear, .flush], ∃ t, exec i (abReady 4) = .next t := by
  have h : ∀ i ∈ [Instr.rbyte, .tabulate, .build, .derive, .decode, .clear, .flush],
      ends (exec i (abReady 4)) (fun _ => true) = true := by decide +kernel
  intro i hi
  obtain ⟨t, ht, -⟩ := next_of_ends (h i hi)
  exact ⟨t, ht⟩

/-- OUT_LEN at the capacity. -/
theorem witness_PackerOnlyGrows : ∃ s t : State, s.outLen.toNat = s.capOut.toNat ∧ exec (.wbit 1) s = .next t ∧
    t.wcnt = 1 := by
  obtain ⟨t, ht, h⟩ := next_of_ends (o := exec (.wbit 1) { loaded 1 1 [] with outLen := 1 }) (f := fun t => t.wcnt == 1)
    (by decide +kernel)
  exact ⟨_, t, by decide, ht, eq_of_beq h⟩

theorem witness_CommandsRaiseOnlyTheirOwnErrors : ∀ i ∈ [Instr.rbit, .build, .deserialize, .expand],
    ∃ s t : State, s.err = false ∧ exec i s = .next t ∧ t.err = true := by
  have h : ∀ i ∈ [Instr.rbit, .build, .deserialize, .expand], ends (exec i State.reset) (fun t => t.err) = true := by
    decide +kernel
  intro i hi
  obtain ⟨t, ht, ht'⟩ := next_of_ends (h i hi)
  exact ⟨_, t, rfl, ht, ht'⟩

/-! ### Witnesses: the invariant -/

/-- A machine after DERIVE of the one-byte input "a" (V-E7) and a TABULATE of an empty one (R243): every table valid,
NODE[0] = leaf 61, the zero-length code, and ENCODE issued. -/
def leafReady : State :=
  { loaded 16 16 [0x61] with
    pending := some 0x24000000, lastCmd := 0x24000000
    freqValid := true, trieValid := true, codesValid := true
    freq := Vector.replicate 256 0
    node := (Vector.replicate 511 noNode).set 0 (leafNode 0x61 1)
    root := 0, nnodes := 1, nleaves := 1
    codeLen := (Vector.replicate 256 { present := false, len := 0 }).set 0x61 { present := true, len := 0 }
    codeBits := Vector.replicate 256 (Vector.replicate 8 0) }

theorem leafReady_port : leafReady.PortInv where
  capIn_pos := by decide
  capOut_pos := by decide
  inLen_le := by decide
  outLen_le := by decide
  wacc_low := by intro i _; simp [leafReady, loaded, State.afterReset]
  not_both := by decide
  busy_issued := by intro w hw; cases hw; decide
  no_error := by decide
  err_code := by decide
  done_code := by decide
  codes_trie := fun _ => rfl
  ibuf_wf := by decide
  obuf_wf := by decide

theorem leafReady_trie : leafReady.trie = some (.leaf 0x61) := by decide +kernel

theorem leafReady_tables : leafReady.TableInv where
  freq_sum := fun _ => by simp [State.freqSum, State.freqOf, leafReady, List.map_const']
  trie_ok := fun _ => ⟨.leaf 0x61, leafReady_trie, by decide, by decide, by decide⟩
  node_shape := by
    intro _ i h hi
    have : i = 0 := by
      have : leafReady.nnodes.toNat = 1 := by decide
      omega
    subst this
    simp [leafReady, leafNode]
  codes_ok := by
    intro _ t ht
    obtain rfl : Trie.leaf 0x61 = t := Option.some.inj (leafReady_trie.symm.trans ht)
    refine ⟨?_, ?_, ?_⟩
    · intro b c hbc
      obtain ⟨rfl, rfl⟩ : b = 0x61 ∧ c = [] := by simpa [Trie.codes] using hbc
      decide +kernel
    · intro b hb
      have : (0x61 : Nat) ≠ b.toNat := fun e => hb (by
        simp only [Trie.leaves, List.mem_singleton]
        exact BitVec.eq_of_toNat_eq e.symm)
      simp [State.codeLenOf, leafReady, this]
    · intro b j _
      simp [State.codeBitsOf, leafReady, codeBit]

theorem witness_ResetMeetsTheInvariant : 1 ≤ (1 : Word).toNat ∧ 1 ≤ (0xFFFFFFFF : Word).toNat := by decide

theorem witness_StepKeepsThePortInvariant : ∃ s t : State, s.PortInv ∧ step s = .next t := by
  obtain ⟨t, ht, -⟩ := next_of_ends (o := step leafReady) (f := fun _ => true) (by decide +kernel)
  exact ⟨_, t, leafReady_port, ht⟩

theorem witness_StepKeepsTheInvariant : ∃ s t : State, s.Inv ∧ s.codesValid = true ∧ step s = .next t := by
  obtain ⟨t, ht, -⟩ := next_of_ends (o := step leafReady) (f := fun _ => true) (by decide +kernel)
  exact ⟨_, t, ⟨leafReady_port, leafReady_tables⟩, rfl, ht⟩

theorem witness_InvariantStatesNeverStop : ∃ s : State, s.Inv ∧ s.pending.isSome = true :=
  ⟨leafReady, ⟨leafReady_port, leafReady_tables⟩, rfl⟩

/-! ### Witnesses: the HOST's ports -/

/-- The first and the last word of each window. -/
theorem witness_RegisterMapIsOneToOne :
    targetAt 0x000 = some (.reg .cmd) ∧ targetAt 0x044 = some (.reg .capOut) ∧ targetAt 0x400 = some (.freq 0) ∧
    targetAt 0x7FC = some (.freq 255) ∧ targetAt 0x800 = some (.codeLen 0) ∧ targetAt 0xBFC = some (.codeLen 255) ∧
    targetAt 0x1000 = some (.nodeW0 0) ∧ targetAt 0x1FF4 = some (.nodeW1 510) ∧ targetAt 0x2000 = some (.codeBits 0 0) ∧
    targetAt 0x3FFC = some (.codeBits 255 7) ∧ targetAt 0x048 = none ∧ targetAt 0x3FC = none ∧ targetAt 0xC00 = none ∧
    targetAt 0xFFC = none ∧ targetAt 0x1FF8 = none ∧ targetAt 0x1FFC = none ∧ targetAt 0x4000 = none := by decide

theorem witness_IdleReadReturnsTheWord :
    (hostMoves (.regRead 0x1FF4)).schedule = [.host (.regRead 0x1FF4)] ∧ (hostMoves (.regRead 0x1FF4)).pending = none ∧
    (0x1FF4 : BitVec 16).toNat % 4 = 0 ∧ targetOffset (.nodeW1 510) = (0x1FF4 : BitVec 16).toNat ∧
    (0x1FF8 : BitVec 16).toNat % 4 = 0 ∧ ∀ x, targetOffset x ≠ (0x1FF8 : BitVec 16).toNat := by
  refine ⟨rfl, rfl, rfl, rfl, rfl, fun x => ?_⟩
  cases x with
  | reg r => cases r <;> decide
  | freq i => show 0x400 + 4 * i.val ≠ 8184; omega
  | codeLen i => show 0x800 + 4 * i.val ≠ 8184; omega
  | nodeW0 i => have : i.val < 511 := i.isLt; show 0x1000 + 8 * i.val ≠ 8184; omega
  | nodeW1 i => have : i.val < 511 := i.isLt; show 0x1000 + 8 * i.val + 4 ≠ 8184; omega
  | codeBits i k => show 0x2000 + 32 * i.val + 4 * k.val ≠ 8184; omega

/-- An exact read, one that is not, and one of each buffer. -/
theorem witness_BusyReadIsExactOrUnspecified :
    (∀ a : HostAccess, (hostMovesBusy a).pending.isSome = true ∧ (hostMovesBusy a).schedule = [.host a]) ∧
    ((0x010 : BitVec 16).toNat % 4 = 0 ∧ (0x010 : BitVec 16) ∉ [0x004, 0x03C, 0x040, 0x044] ∧ (0x044 : BitVec 16).toNat % 4 = 0)  := by
  refine ⟨fun a => ?_, by decide⟩
  constructor <;> rfl

theorem witness_MisalignedAccessSetsHaz :
    ((0x001 : BitVec 16).toNat % 4 ≠ 0 ∧ (0x006 : BitVec 16).toNat % 4 ≠ 0 ∧ (0xFFFF : BitVec 16).toNat % 4 ≠ 0) ∧
    ∀ a : HostAccess, (hostMoves a).schedule = [.host a] := by
  refine ⟨by decide, fun a => ?_⟩
  rfl

/-- The last byte of IBUF. -/
theorem witness_BusyWriteIsDroppedWithHaz :
    (∀ a : HostAccess, (hostMovesBusy a).pending.isSome = true ∧ (hostMovesBusy a).schedule = [.host a]) ∧
    ∀ a, 4095 < (hostMovesBusy a).capIn.toNat := ⟨fun _ => ⟨rfl, rfl⟩, fun _ => by show 4095 < (4096 : Word).toNat; decide⟩

theorem witness_IdleWriteStoresTheRegister :
    ∀ off ∈ [(0x008 : BitVec 16), 0x00C, 0x018], (hostMoves (.regWrite off 0xFFFFFFFF)).pending = none ∧
      (hostMoves (.regWrite off 0xFFFFFFFF)).schedule = [.host (.regWrite off 0xFFFFFFFF)] := fun _ _ => ⟨rfl, rfl⟩

theorem witness_StatusWriteClearsTheBitsWritten :
    (hostMovesBusy (.regWrite 0x004 0x46)).schedule = [.host (.regWrite 0x004 0x46)] := rfl

theorem witness_ReadOnlyWordsIgnoreWrites :
    ((0x010 : BitVec 16).toNat % 4 = 0 ∧ (0x010 : BitVec 16) ∉ [0x000, 0x004, 0x008, 0x00C, 0x018]) ∧
    ((0x3FFC : BitVec 16).toNat % 4 = 0 ∧ (0x3FFC : BitVec 16) ∉ [0x000, 0x004, 0x008, 0x00C, 0x018]) ∧
    ((0x4000 : BitVec 16).toNat % 4 = 0 ∧ (0x4000 : BitVec 16) ∉ [0x000, 0x004, 0x008, 0x00C, 0x018]) ∧
    ∀ a : HostAccess, (hostMoves a).schedule = [.host a] := by
  refine ⟨by decide, by decide, by decide, fun a => ?_⟩
  rfl

/-- The last byte of IBUF and the first address past it. -/
theorem witness_IdleBufferAccess : ∀ a : HostAccess, (hostMoves a).pending = none ∧ (hostMoves a).schedule = [.host a] ∧
    4095 < (hostMoves a).capIn.toNat ∧ (hostMoves a).capIn.toNat ≤ 4096 := by
  intro a
  refine ⟨rfl, rfl, ?_, ?_⟩
  · show 4095 < (4096 : Word).toNat; decide
  · show (4096 : Word).toNat ≤ 4096; decide

end Sys2Proof.Tests
end

section
/-! PROOFS. Every reset state meets the invariant (R53): no valid bit is set, so the tables are vouched for by nothing, and
the registers stand at 0. -/

namespace Sys2Proof.Machine

/-- R35: an accumulator of 0 is clean for every WCNT. -/
theorem packerClean_of_wacc_zero {s : State} (h : s.wacc = 0) : s.packerClean := by
  intro i _
  simp [h]

/-- R48: with all three valid bits 0, TableInv asks nothing of the tables. -/
theorem tableInv_of_nothing_valid {s : State} (hf : s.freqValid = false) (ht : s.trieValid = false)
    (hc : s.codesValid = false) : s.TableInv where
  freq_sum := by simp [hf]
  trie_ok := by simp [ht]
  node_shape := by simp [ht]
  codes_ok := by simp [hc]

section
variable {capIn capOut : Word} (n : Nat)

theorem afterReset_portInv (hin : 1 ≤ capIn.toNat) (hout : 1 ≤ capOut.toNat) :
    (State.afterReset capIn capOut n).PortInv where
  capIn_pos := hin
  capOut_pos := hout
  inLen_le := Nat.zero_le _
  outLen_le := Nat.zero_le _
  wacc_low := packerClean_of_wacc_zero rfl
  not_both := by simp [State.afterReset]
  busy_issued := by simp [State.afterReset]
  no_error := fun _ => ⟨rfl, rfl⟩
  err_code := by simp [State.afterReset]
  done_code := fun _ => rfl
  codes_trie := by simp [State.afterReset]
  ibuf_wf := ⟨(afterReset_memory_wf capIn capOut n).1, by simp [State.afterReset]⟩
  obuf_wf := ⟨(afterReset_memory_wf capIn capOut n).2, by simp [State.afterReset]⟩

/-- R6, R53: the invariant holds after every reset of an instance whose buffers have a byte each. -/
theorem afterReset_inv (hin : 1 ≤ capIn.toNat) (hout : 1 ≤ capOut.toNat) :
    (State.afterReset capIn capOut n).Inv where
  port := afterReset_portInv n hin hout
  tables := tableInv_of_nothing_valid rfl rfl rfl

end

/-- Settles O46: every reset state meets the invariant; State.reset is one, with the model's own capacities (log 1). -/
theorem resetMeetsTheInvariant : Obligations.ResetMeetsTheInvariant := by
  unfold Obligations.ResetMeetsTheInvariant
  have power_on : State.reset.Inv := afterReset_inv 0 (by decide) (by decide)
  exact ⟨power_on, fun _ _ n hin hout => afterReset_inv n hin hout⟩

end Sys2Proof.Machine
end

section
/-! PROOFS. What holds wherever a command's pseudocode ends, well or with a raise (R205, R206): the rules of sequence,
branch and loop for such statements, and every command as one body (R85). -/

namespace Sys2Proof.Machine

variable {α β : Type}

/-- Where x ends well from s, Q holds of its value and the state it leaves; where it raises, E holds of the error and
the state it keeps (R11). A stop of the model is no end. -/
def Post (x : Engine α) (s : State) (Q : α → State → Prop) (E : ErrCode → State → Prop) : Prop :=
  match x s with
  | .ok a t => Q a t
  | .error (.error e _ _) t => E e t
  | .error (.stop _) _ => True

section
variable {x : Engine α} {k : α → Engine β} {s t : State} {Q Q' : α → State → Prop} {E E' : ErrCode → State → Prop}

theorem post_of_ok {a : α} (h : x s = .ok a t) : Post x s Q E ↔ Q a t := by
  rw [Post, h]

theorem post_of_error {e : ErrCode} {sub : BitVec 4} {info : Word} (h : x s = .error (.error e sub info) t) :
    Post x s Q E ↔ E e t := by
  rw [Post, h]

theorem post_congr {y : Engine α} (h : x s = y t) : Post x s Q E ↔ Post y t Q E := by
  rw [Post, Post, h]

theorem Post.ok {a : α} (hx : Post x s Q E) (h : x s = .ok a t) : Q a t := (post_of_ok h).mp hx

theorem Post.error {e : ErrCode} {sub : BitVec 4} {info : Word} (hx : Post x s Q E)
    (h : x s = .error (.error e sub info) t) : E e t := (post_of_error h).mp hx

theorem Post.mono (hx : Post x s Q E) (hQ : ∀ a t, Q a t → Q' a t) (hE : ∀ e t, E e t → E' e t) : Post x s Q' E' := by
  unfold Post at *
  split at hx
  · exact hQ _ _ hx
  · exact hE _ _ hx
  · trivial

@[simp] theorem post_pure (a : α) : Post (pure a : Engine α) s Q E ↔ Q a s := Iff.rfl

@[simp] theorem post_get {Q : State → State → Prop} : Post (get : Engine State) s Q E ↔ Q s s := Iff.rfl

@[simp] theorem post_set {Q : PUnit → State → Prop} : Post (set t : Engine PUnit) s Q E ↔ Q ⟨⟩ t := Iff.rfl

@[simp] theorem post_modify {Q : PUnit → State → Prop} (f : State → State) :
    Post (modify f : Engine PUnit) s Q E ↔ Q ⟨⟩ (f s) := Iff.rfl

@[simp] theorem post_raise (e : ErrCode) (sub : BitVec 4) (info : Word) :
    Post (raise e sub info : Engine α) s Q E ↔ E e s := Iff.rfl

@[simp] theorem post_stop (f : Fault) : Post (stop f : Engine α) s Q E ↔ True := Iff.rfl

/-- The second statement runs from wherever the first ended well. -/
@[simp] theorem post_bind {Q : β → State → Prop} :
    Post (x >>= k) s Q E ↔ Post x s (fun a t => Post (k a) t Q E) E := by
  unfold Post
  rw [run_bind]
  cases h : x s with
  | ok a t => rfl
  | error r t => cases r <;> rfl

@[simp] theorem post_map {Q : β → State → Prop} (f : α → β) :
    Post (f <$> x) s Q E ↔ Post x s (fun a t => Q (f a) t) E := by
  rw [map_eq_pure_bind, post_bind]
  rfl

/-- The two branches of a test. -/
theorem post_ite {c : Prop} [Decidable c] {y : Engine α} (hx : c → Post x s Q E) (hy : ¬c → Post y s Q E) :
    Post (if c then x else y) s Q E := by
  split
  · exact hx ‹_›
  · exact hy ‹_›

end

/-- A loop over a list keeps an invariant that each pass keeps. -/
theorem post_forM {ι : Type} {f : ι → Engine PUnit} {I : State → Prop} {E : ErrCode → State → Prop} (l : List ι)
    (hf : ∀ i ∈ l, ∀ s, I s → Post (f i) s (fun _ => I) E) {s : State} (hs : I s) :
    Post (l.forM f) s (fun _ => I) E := by
  induction l generalizing s with
  | nil => simpa
  | cons i l ih =>
    rw [List.forM_eq_forM, List.forM_cons, post_bind]
    refine (hf i List.mem_cons_self s hs).mono (fun _ t ht => ?_) fun _ _ h => h
    rw [← List.forM_eq_forM]
    exact ih (fun j hj => hf j (List.mem_cons_of_mem _ hj)) ht

/-- The body of a command that starts in s: everything of it but its completion or error entry (R205, R206). -/
def commandBody (s : State) : Instr → Engine Unit
  | .nop => pure ()
  | .clear => modify State.cleared
  | .wbit imm8 => writeBits (wbitOperand imm8)
  | .wbyte imm8 => writeBits (wbyteOperand imm8)
  | .wint => writeBits s.argOperand
  | .flush => flushBits
  | .rbit => readToResult 1
  | .rbyte => readToResult 8
  | .rint => readToResult 32
  | .tabulate => tabulateBody
  | .build => do needFreq; buildBody
  | .derive => do needTrie; deriveBody
  | .serialize => do needTrie; serializeBody
  | .encode => do needCodes; encodeBody
  | .deserialize => deserializeBody
  | .decode => do
    needTrie
    modify ({ · with dlen := s.argOperand, dcount := 0 })
    decodeSymbols s.argOperand.toNat
  | .compress => compressBody
  | .expand => expandBody

/-- R20, R85: a command is its body run as the ENGINE's one step. -/
theorem exec_eq_runCommand (i : Instr) (s : State) : exec i s = runCommand (commandBody s i) s := by
  cases i <;> rfl

/-- A command that answers a next state completed or raised where its body ended. -/
theorem exec_next {i : Instr} {s t : State} (h : exec i s = .next t) :
    (∃ u, commandBody s i s = .ok () u ∧ t = u.complete) ∨
    ∃ e sub info u, commandBody s i s = .error (.error e sub info) u ∧ t = u.raiseError e sub info :=
  runCommand_next (exec_eq_runCommand i s ▸ h)

end Sys2Proof.Machine
end

section
/-! PROOFS. The packer only appends (R101, R102, R111): what was written before WriteBits and FlushBits stays where it is,
OUT_LEN stays within OBUF, and WACC and OBUF keep their canonical form. -/

namespace Sys2Proof.Machine

/-- The packer of t holds what that of s holds and perhaps more behind it (R111), within the same OBUF. -/
structure Extends (s t : State) : Prop where
  capOut_eq : t.capOut = s.capOut
  outLen_le : t.outLen.toNat ≤ t.capOut.toNat
  outLen_mono : s.outLen.toNat ≤ t.outLen.toNat
  packed : s.packed <+: t.packed
  bytes : ∀ a, a < s.outLen.toNat ∨ t.outLen.toNat ≤ a → t.obufByte a = s.obufByte a
  clean : s.packerClean → t.packerClean
  obuf_wf : s.obuf.wf ∧ s.obuf.below s.capOut.toNat → t.obuf.wf ∧ t.obuf.below t.capOut.toNat

theorem Extends.trans {s t u : State} (h : Extends s t) (h' : Extends t u) : Extends s u where
  capOut_eq := h'.capOut_eq.trans h.capOut_eq
  outLen_le := h'.outLen_le
  outLen_mono := h.outLen_mono.trans h'.outLen_mono
  packed := h.packed.trans h'.packed
  bytes a ha := by
    have h1 := h.outLen_mono
    have h2 := h'.outLen_mono
    rw [h'.bytes a (by omega), h.bytes a (by omega)]
  clean := h'.clean ∘ h.clean
  obuf_wf := h'.obuf_wf ∘ h.obuf_wf

/-- OUT_LEN, WACC, WCNT and OBUF as they were (R33, R35, R49). -/
def SameOutput (s t : State) : Prop := t.outLen = s.outLen ∧ t.wacc = s.wacc ∧ t.wcnt = s.wcnt ∧ t.obuf = s.obuf

theorem extends_of_sameOutput {s t : State} (hcap : t.capOut = s.capOut) (hreset : t.resetCount = s.resetCount)
    (hs : SameOutput s t) (hle : s.outLen.toNat ≤ s.capOut.toNat) : Extends s t := by
  obtain ⟨hlen, hacc, hcnt, hobuf⟩ := hs
  have hbyte : t.obufByte = s.obufByte := by funext a; simp only [State.obufByte, hobuf, hreset]
  exact {
    capOut_eq := hcap
    outLen_le := by rw [hlen, hcap]; exact hle
    outLen_mono := by rw [hlen]
    packed := by simp only [State.packed, State.outBytes, hlen, hacc, hcnt, hbyte, List.prefix_rfl]
    bytes := fun a _ => by rw [hbyte]
    clean := by simp only [State.packerClean, hacc, hcnt, imp_self]
    obuf_wf := by simp only [hobuf, hcap, imp_self] }

/-- R35: a bit is put above the clean bits of WACC, or WACC is emptied. -/
theorem pushBit_clean {s : State} (b : Bool) (h : s.packerClean) : (s.pushBit b).packerClean := by
  by_cases h7 : s.wcnt = 7
  · rw [pushBit_of_full b h7]
    intro i _
    simp
  · rw [pushBit_of_not_full b h7]
    intro i hi
    simp only [wcnt_succ h7] at hi
    rw [getLsbD_setBit _ _ _ _ (by omega), if_neg (by omega)]
    exact h i (by omega)

/-- A byte completed below the capacity keeps OBUF's canonical form (R49). -/
theorem emitByte_obuf_wf {s : State} (b : Byte) (hlt : s.outLen.toNat < s.capOut.toNat)
    (h : s.obuf.wf ∧ s.obuf.below s.capOut.toNat) :
    (s.emitByte b).obuf.wf ∧ (s.emitByte b).obuf.below (s.emitByte b).capOut.toNat := by
  simp only [emitByte_fields]
  exact ⟨Memory.store_wf _ _ h.1, Memory.store_below _ h.2 hlt⟩

/-- R101: one bit that fits is appended. -/
theorem extends_pushBit {s : State} (b : Bool) (hroom : s.hasRoom 1) : Extends s (s.pushBit b) := by
  have hpos := wpos_lt_of_hasRoom hroom
  have hcap : (s.pushBit b).capOut = s.capOut := by rw [pushBit_frame]; rfl
  have hafter : (s.pushBit b).hasRoom 0 := hasRoom_pushBits (l := [b]) hroom
  refine ⟨hcap, by simp only [State.hasRoom] at hafter; omega, pushBit_outLen_mono b hpos,
    pushBit_packed b hpos ▸ List.prefix_append _ _, fun a => pushBit_obufByte b hpos, pushBit_clean b, fun hwf => ?_⟩
  by_cases h7 : s.wcnt = 7
  · rw [pushBit_of_full b h7]
    have h7' : s.wcnt.toNat = 7 := by rw [h7]; rfl
    exact emitByte_obuf_wf _ (by simp only [State.hasRoom, h7'] at hroom; omega) hwf
  · rw [pushBit_of_not_full b h7]
    exact hwf

/-- R101: bits that fit are appended. -/
theorem extends_pushBits {s : State} (l : List Bool) (hroom : s.hasRoom l.length) : Extends s (s.pushBits l) := by
  induction l generalizing s with
  | nil =>
    refine extends_of_sameOutput rfl rfl ⟨rfl, rfl, rfl, rfl⟩ ?_
    simp only [State.hasRoom] at hroom
    omega
  | cons b l ih =>
    have hbit : s.hasRoom 1 := hasRoom_mono (by simp) hroom
    have hrest : (s.pushBit b).hasRoom l.length := hasRoom_pushBits (l := [b]) (by simpa [Nat.add_comm] using hroom)
    exact (extends_pushBit b hbit).trans (ih hrest)

/-- R102: the flushed byte begins with the pending bits. -/
theorem extends_emitByte {s : State} (hlt : s.outLen.toNat < s.capOut.toNat) : Extends s (s.emitByte s.wacc) := by
  have hnext : s.outLen.toNat + 1 < 2 ^ 32 := by have := s.capOut.isLt; omega
  have hlen := emitByte_outLen s.wacc hnext
  refine ⟨by simp, by rw [hlen]; simpa, by omega, ?_, fun a ha => ?_, fun _ i _ => by simp,
    emitByte_obuf_wf _ hlt⟩
  · simp only [State.packed, outBytes_emitByte s.wacc hnext, List.flatMap_append, List.append_assoc]
    refine (List.prefix_append_right_inj _).mpr ?_
    simpa using List.take_prefix _ _
  · rw [obufByte_emitByte, if_neg (by omega)]

end Sys2Proof.Machine
end

section
/-! PROOFS. What each command can write (R30 to R45, R48, R209, R244): the state cut into parts, the parts a body may
change, and the error codes it may raise (R201). -/

namespace Sys2Proof.Machine

/-- The parts of the state that have their own writers. `written` is what the packer held: it may grow while OUT_LEN,
WACC, WCNT and OBUF (`output`) change. -/
inductive Part where
  | result | freq | nodes | trieValid | codes | codesValid | rpos | decoded | haz | output | written

/-- t has this part as s has it. -/
def State.agrees (s t : State) : Part → Prop
  | .result => t.result = s.result
  | .freq => t.freq = s.freq ∧ t.freqValid = s.freqValid
  | .nodes => t.node = s.node ∧ t.root = s.root ∧ t.nnodes = s.nnodes ∧ t.nleaves = s.nleaves
  | .trieValid => t.trieValid = s.trieValid
  | .codes => t.codeLen = s.codeLen ∧ t.codeBits = s.codeBits
  | .codesValid => t.codesValid = s.codesValid
  | .rpos => t.rposByte = s.rposByte ∧ t.rposBit = s.rposBit
  | .decoded => t.dlen = s.dlen ∧ t.dcount = s.dcount
  | .haz => t.haz = s.haz
  | .output => SameOutput s t
  | .written => s.outLen.toNat ≤ s.capOut.toNat → Extends s t

/-- What no command body changes: the HOST's side of the state (R244, R252), and what issue, completion and error entry
write (R204 to R206). -/
structure SameHostSide (s t : State) : Prop where
  host : t.ibuf = s.ibuf ∧ t.inLen = s.inLen ∧ t.emptyMode = s.emptyMode ∧ t.ieDone = s.ieDone ∧ t.ieErr = s.ieErr ∧
    t.ieHaz = s.ieHaz ∧ t.arg = s.arg ∧ t.lastCmd = s.lastCmd ∧ t.capIn = s.capIn ∧ t.capOut = s.capOut ∧
    t.resetCount = s.resetCount ∧ t.draws = s.draws ∧ t.schedule = s.schedule ∧ t.portData = s.portData
  status : t.pending = s.pending ∧ t.done = s.done ∧ t.err = s.err ∧ t.errCode = s.errCode ∧ t.errSub = s.errSub ∧
    t.errInfo = s.errInfo

/-- From s to t no part outside W changes, and nothing of the HOST's side. -/
structure Frame (W : List Part) (s t : State) : Prop where
  fixed : SameHostSide s t
  parts : ∀ p, p ∉ W → s.agrees t p

variable {W : List Part} {s t u : State}

theorem SameHostSide.refl (s : State) : SameHostSide s s := by constructor <;> and_intros <;> rfl

theorem SameHostSide.trans (h : SameHostSide s t) (h' : SameHostSide t u) : SameHostSide s u := by
  obtain ⟨hh, hs⟩ := h
  obtain ⟨hh', hs'⟩ := h'
  constructor <;> simp_all

theorem agrees_refl (s : State) (p : Part) : s.agrees s p := by
  cases p <;> simp [State.agrees, SameOutput]
  case written => exact extends_of_sameOutput rfl rfl ⟨rfl, rfl, rfl, rfl⟩

theorem agrees_trans {p : Part} (h : s.agrees t p) (h' : t.agrees u p) : s.agrees u p := by
  cases p
  case written => exact fun hle => (h hle).trans (h' (h hle).outLen_le)
  all_goals simp_all [State.agrees, SameOutput]

theorem Frame.refl (W : List Part) (s : State) : Frame W s s := ⟨.refl s, fun p _ => agrees_refl s p⟩

theorem Frame.trans (h : Frame W s t) (h' : Frame W t u) : Frame W s u :=
  ⟨h.fixed.trans h'.fixed, fun p hp => agrees_trans (h.parts p hp) (h'.parts p hp)⟩

theorem Frame.mono {W' : List Part} (h : Frame W s t) (hW : W ⊆ W') : Frame W' s t :=
  ⟨h.fixed, fun p hp => h.parts p fun hmem => hp (hW hmem)⟩

/-- An update that leaves the output alone is known by the other parts. For an update of the pseudocode the three facts are
read off its fields, so they are found where they are not given. -/
theorem frame_of_sameOutput (hfix : SameHostSide s t := by constructor <;> simp)
    (hout : SameOutput s t := by simp [SameOutput])
    (hparts : ∀ p, p ∉ W → p = .output ∨ p = .written ∨ s.agrees t p := by
      intro p
      cases p <;> simp_all [State.agrees]) : Frame W s t := by
  obtain ⟨-, -, -, -, -, -, -, -, -, hcap, hreset, -⟩ := hfix.host
  refine ⟨hfix, fun p hp => ?_⟩
  obtain rfl | rfl | hp := hparts p hp
  · exact hout
  · exact extends_of_sameOutput hcap hreset hout
  · exact hp

/-- An update of the packer is known by what it does to the output. -/
theorem frame_of_withPackerOf (h : t = s.withPackerOf t) (hext : s.outLen.toNat ≤ s.capOut.toNat → Extends s t) :
    Frame [.output] s t := by
  refine ⟨by rw [h]; constructor <;> simp, fun p hp => ?_⟩
  cases p
  case written => exact hext
  case output => simp at hp
  all_goals rw [h]; simp [State.agrees]

/-! ### The updates of the pseudocode -/

theorem frame_setRpos (s : State) (p : Nat) : Frame [.rpos] s (s.setRpos p) :=
  frame_of_sameOutput

theorem frame_setResult {n : Nat} (s : State) (v : BitVec n) : Frame [.result] s (s.setResult v) :=
  frame_of_sameOutput

theorem frame_clearFreq (s : State) : Frame [.freq] s s.clearFreq :=
  frame_of_sameOutput

theorem frame_setFreq (s : State) (b : Byte) (v : Word) : Frame [.freq] s (s.setFreq b v) :=
  frame_of_sameOutput

theorem frame_freqValid (s : State) (b : Bool) : Frame [.freq] s { s with freqValid := b } :=
  frame_of_sameOutput

theorem frame_dropTrie (s : State) : Frame [.nodes, .trieValid, .codesValid] s s.dropTrie :=
  frame_of_sameOutput

theorem frame_nodes (s : State) (node : Vector Node Config.maxNodes) (root : BitVec 9) (nnodes : BitVec 10)
    (nleaves : BitVec 9) :
    Frame [.nodes] s { s with node := node, root := root, nnodes := nnodes, nleaves := nleaves } :=
  frame_of_sameOutput

theorem frame_updateNode (s : State) (i : Nat) (f : Node → Node) : Frame [.nodes] s (s.updateNode i f) := by
  rw [updateNode_frame]
  exact frame_nodes s _ _ _ _

theorem frame_setNode (s : State) (i : Nat) (e : Node) : Frame [.nodes] s (s.setNode i e) := frame_updateNode s i _

/-- R171: an allocation writes NODE and NNODES. -/
theorem frame_allocate (s : State) (e : Node) : Frame [.nodes] s (s.allocate e) := by
  rw [allocate_frame]
  exact frame_nodes s _ _ _ _

theorem frame_newTrie (s : State) (root : BitVec 9) (nnodes : BitVec 10) (nleaves : BitVec 9) :
    Frame [.nodes, .trieValid] s { s with root := root, nnodes := nnodes, nleaves := nleaves, trieValid := true } :=
  frame_of_sameOutput

theorem frame_trieValid (s : State) (b : Bool) : Frame [.trieValid] s { s with trieValid := b } :=
  frame_of_sameOutput

theorem frame_codesValid (s : State) (b : Bool) : Frame [.codesValid] s { s with codesValid := b } :=
  frame_of_sameOutput

theorem frame_clearCodes (s : State) : Frame [.codes] s s.clearCodes :=
  frame_of_sameOutput

theorem frame_recordCode (s : State) (b : Byte) (c : List Bool) : Frame [.codes] s (s.recordCode b c) :=
  frame_of_sameOutput

theorem frame_decoded (s : State) (dlen dcount : Word) : Frame [.decoded] s { s with dlen := dlen, dcount := dcount } :=
  frame_of_sameOutput

/-- R191: CLEAR writes every part. -/
theorem sameHostSide_cleared (s : State) : SameHostSide s s.cleared := by
  constructor <;> simp [State.cleared]

/-- R155, R180: what the packer held is dropped, and nothing else. -/
theorem frame_resetPacker (s : State) : Frame [.output, .written] s s.resetPacker := by
  refine ⟨⟨by simp, by simp⟩, fun p hp => ?_⟩
  cases p <;> simp_all [State.agrees]

/-! ### Bodies -/

variable {α β : Type} {es : List ErrCode}

/-- Wherever x ends it has changed no part outside W, and it raises only codes of this list. -/
def Keeps (W : List Part) (es : List ErrCode) (x : Engine α) : Prop :=
  ∀ s, Post x s (fun _ t => Frame W s t) (fun e t => Frame W s t ∧ e ∈ es)

theorem Keeps.mono {W' : List Part} {es' : List ErrCode} {x : Engine α} (h : Keeps W es x)
    (hW : W ⊆ W' := by simp) (hes : es ⊆ es' := by simp) : Keeps W' es' x := fun s =>
  (h s).mono (fun _ _ hf => hf.mono hW) fun _ _ hf => ⟨hf.1.mono hW, hes hf.2⟩

/-- A body run after others that changed only parts of W. -/
theorem Keeps.after {x : Engine α} (h : Keeps W es x) (hs : Frame W s t) :
    Post x t (fun _ u => Frame W s u) (fun e u => Frame W s u ∧ e ∈ es) :=
  (h t).mono (fun _ _ hf => hs.trans hf) fun _ _ hf => ⟨hs.trans hf.1, hf.2⟩

theorem Keeps.bind {x : Engine α} {k : α → Engine β} (hx : Keeps W es x) (hk : ∀ a, Keeps W es (k a)) :
    Keeps W es (x >>= k) := fun s =>
  post_bind.mpr <| (hx s).mono (fun a _ hf => (hk a).after hf) fun _ _ hf => hf

theorem keeps_pure (a : α) : Keeps W es (pure a : Engine α) := fun s => Frame.refl W s

theorem keeps_get : Keeps W es (get : Engine State) := fun s => Frame.refl W s

theorem keeps_raise {e : ErrCode} (sub : BitVec 4) (info : Word) (he : e ∈ es := by simp) :
    Keeps W es (raise e sub info : Engine α) := fun s => ⟨Frame.refl W s, he⟩

theorem keeps_stop (f : Fault) : Keeps W es (stop f : Engine α) := fun _ => trivial

theorem keeps_modify {f : State → State} (h : ∀ s, Frame W s (f s)) : Keeps W es (modify f : Engine PUnit) := h

theorem Keeps.ite {c : Prop} [Decidable c] {x y : Engine α} (hx : Keeps W es x) (hy : Keeps W es y) :
    Keeps W es (if c then x else y) := by
  split
  · exact hx
  · exact hy

theorem keeps_forM {ι : Type} {f : ι → Engine PUnit} (h : ∀ i, Keeps W es (f i)) (l : List ι) :
    Keeps W es (l.forM f) := fun s => by
  refine post_forM l (fun i _ _ ht => ?_) (Frame.refl W s)
  exact (h i).after ht

theorem keeps_foldlM {ι : Type} {f : β → ι → Engine β} (h : ∀ b i, Keeps W es (f b i)) (l : List ι) (b : β) :
    Keeps W es (l.foldlM f b) := by
  induction l generalizing b with
  | nil => exact keeps_pure b
  | cons i l ih =>
    rw [List.foldlM_cons]
    exact (h b i).bind ih

/-! ### The primitives (R100 to R102, R171) -/

theorem keeps_ibufRead (i : Nat) : Keeps W es (ibufRead i) :=
  keeps_get.bind fun _ => (keeps_pure _).ite (keeps_stop _)

theorem keeps_nodeAt (i : Nat) : Keeps W es (nodeAt i) := by
  refine keeps_get.bind fun s => ?_
  split
  · exact keeps_pure _
  · exact keeps_stop _

theorem keeps_nextBit : Keeps [.rpos] [] nextBit :=
  keeps_get.bind fun _ => (keeps_ibufRead _).bind fun _ =>
    (keeps_modify fun s => frame_setRpos s _).bind fun _ => keeps_pure _

theorem keeps_readLoop (k v : Nat) : Keeps [.rpos] [] (readLoop k v) := by
  induction k generalizing v with
  | zero => exact keeps_pure v
  | succ k ih => exact keeps_nextBit.bind fun b => ih _

theorem keeps_readBits (n : Nat) : Keeps [.rpos] [.underflow] (readBits n) :=
  keeps_get.bind fun _ => ((keeps_readLoop n 0).mono.bind fun _ => keeps_pure _).ite (keeps_raise _ _)

/-- R172: a read inside the trie raises CORRUPT_TRIE and never UNDERFLOW. -/
theorem keeps_trieRead (n : Nat) : Keeps [.rpos] [.corruptTrie] (trieRead n) := fun s => by
  by_cases h : s.hasBits n
  · have hread : trieRead n s = (readLoop n 0 >>= fun v => pure (BitVec.ofNat n v)) s := by
      rw [trieRead_ok h, readBits, run_bind_ok (run_get s), if_pos h]
    rw [post_congr hread]
    exact (keeps_readLoop n 0).mono.bind (fun _ => keeps_pure _) s
  · rw [post_of_error (trieRead_short h)]
    exact ⟨Frame.refl _ s, by simp⟩

theorem keeps_writeBits {n : Nat} (v : BitVec n) : Keeps [.output] [.outputOverflow] (writeBits v) := fun s => by
  obtain ⟨hroom, hrun⟩ | ⟨-, hrun⟩ := writeBits_cases v s
  · rw [post_of_ok hrun]
    exact frame_of_withPackerOf (pushBits_frame _ _) fun _ => extends_pushBits _ (by simpa using hroom)
  · rw [post_of_error hrun]
    exact ⟨Frame.refl _ s, by simp⟩

theorem keeps_flushBits : Keeps [.output] [.outputOverflow] flushBits := fun s => by
  obtain ⟨-, hrun⟩ | ⟨-, -, hrun⟩ | ⟨-, hne, hrun⟩ := flushBits_cases s
  · rw [post_of_ok hrun]
    exact Frame.refl _ s
  · rw [post_of_error hrun]
    exact ⟨Frame.refl _ s, by simp⟩
  · rw [post_of_ok hrun]
    refine frame_of_withPackerOf rfl fun hle => extends_emitByte ?_
    exact Nat.lt_of_le_of_ne hle fun h => hne (BitVec.eq_of_toNat_eq h)

theorem keeps_needFreq : Keeps [] [.notReady] needFreq :=
  keeps_get.bind fun _ => (keeps_pure _).ite (keeps_raise _ _)

theorem keeps_needTrie : Keeps [] [.notReady] needTrie :=
  keeps_get.bind fun _ => (keeps_pure _).ite (keeps_raise _ _)

theorem keeps_needCodes : Keeps [] [.notReady] needCodes :=
  keeps_get.bind fun _ => (keeps_pure _).ite (keeps_raise _ _)

/-! ### The commands' bodies -/

theorem keeps_readToResult (n : Nat) : Keeps [.rpos, .result] [.underflow] (readToResult n) :=
  (keeps_readBits n).mono.bind fun v => keeps_modify fun s => (frame_setResult s v).mono (by simp)

theorem keeps_countByte (i : Nat) : Keeps [.freq] [] (countByte i) :=
  (keeps_ibufRead i).bind fun _ => keeps_modify fun s => frame_setFreq s _ _

theorem keeps_tabulateBody : Keeps [.freq] [] tabulateBody :=
  (keeps_modify frame_clearFreq).bind fun _ => keeps_get.bind fun _ =>
    (keeps_forM keeps_countByte _).bind fun _ => keeps_modify fun s => frame_freqValid s true

theorem keeps_seedLeaf (pq : List Entry) (b : Byte) : Keeps [.nodes] [] (seedLeaf pq b) := fun s => by
  simpa [seedLeaf] using frame_setNode s _ _

theorem keeps_mergeLoop (fuel : Nat) (pq : List Entry) (n : Nat) : Keeps [.nodes] [] (mergeLoop fuel pq n) := by
  induction fuel generalizing pq n with
  | zero => exact keeps_pure n
  | succ fuel ih =>
    unfold mergeLoop
    split
    · exact keeps_pure n
    · split
      · exact keeps_pure n
      · exact (keeps_modify fun s => frame_updateNode s _ _).bind fun _ => ih _ _

/-- BUILD after it has dropped the old trie (R132). -/
def buildTrie : Engine Unit := do
  let s ← get
  let pq ← s.seeds.foldlM seedLeaf []
  if pq.length = 0 then raise .emptyInput 1 0
  else do
    let n ← mergeLoop pq.length pq pq.length
    modify ({ · with
      root := BitVec.ofNat 9 (n - 1), nnodes := BitVec.ofNat 10 n, nleaves := BitVec.ofNat 9 pq.length
      trieValid := true })

theorem buildBody_eq : buildBody = (do modify State.dropTrie; buildTrie) := rfl

theorem keeps_buildTrie : Keeps [.nodes, .trieValid] [.emptyInput] buildTrie :=
  keeps_get.bind fun _ => (keeps_foldlM keeps_seedLeaf _ _).mono.bind fun _ =>
    (keeps_raise _ _).ite <| (keeps_mergeLoop _ _ _).mono.bind fun _ => keeps_modify fun s => frame_newTrie s _ _ _

theorem keeps_buildBody : Keeps [.nodes, .trieValid, .codesValid] [.emptyInput] buildBody :=
  (keeps_modify frame_dropTrie).bind fun _ => keeps_buildTrie.mono

theorem keeps_visit (fuel i : Nat) (c : List Bool) : Keeps [.codes] [] (visit fuel i c) := by
  induction fuel generalizing i c with
  | zero => exact keeps_stop _
  | succ fuel ih =>
    exact (keeps_nodeAt i).bind fun e =>
      (keeps_modify fun s => frame_recordCode s _ c).ite ((ih _ _).bind fun _ => ih _ _)

theorem keeps_deriveBody : Keeps [.codes, .codesValid] [] deriveBody :=
  (keeps_modify fun s => (frame_codesValid s false).mono (by simp)).bind fun _ =>
    (keeps_modify fun s => (frame_clearCodes s).mono (by simp)).bind fun _ =>
      keeps_get.bind fun _ => (keeps_visit _ _ _).mono.bind fun _ =>
        keeps_modify fun s => (frame_codesValid s true).mono (by simp)

theorem keeps_serializeNode (fuel i : Nat) : Keeps [.output] [.outputOverflow] (serializeNode fuel i) := by
  induction fuel generalizing i with
  | zero => exact keeps_stop _
  | succ fuel ih =>
    exact (keeps_nodeAt i).bind fun e => ((keeps_writeBits _).bind fun _ => keeps_writeBits _).ite
      ((keeps_writeBits _).bind fun _ => (ih _).bind fun _ => ih _)

theorem keeps_serializeBody : Keeps [.output] [.outputOverflow] serializeBody :=
  keeps_get.bind fun _ => keeps_serializeNode _ _

theorem keeps_encodeByte (i : Nat) : Keeps [.output] [.noCode, .outputOverflow] (encodeByte i) :=
  (keeps_ibufRead i).bind fun _ => keeps_get.bind fun _ =>
    (keeps_forM (fun _ => (keeps_writeBits _).mono) _).ite (keeps_raise _ _)

theorem keeps_encodeBody : Keeps [.output] [.noCode, .outputOverflow] encodeBody :=
  keeps_get.bind fun _ => keeps_forM keeps_encodeByte _

theorem keeps_readLeaf (p : Parse) : Keeps [.rpos, .nodes] [.corruptTrie] (readLeaf p) :=
  (keeps_trieRead 8).mono.bind fun b s => by
    simp only [post_bind, post_get]
    refine post_ite (fun _ => ⟨Frame.refl _ s, by simp⟩) fun _ => ?_
    simp only [post_bind, post_set, post_pure]
    exact ((frame_allocate s _).trans (frame_nodes _ _ _ _ _)).mono (by simp)

theorem keeps_deserializeNode (fuel : Nat) (p : Parse) :
    Keeps [.rpos, .nodes] [.corruptTrie] (deserializeNode fuel p) := by
  induction fuel generalizing p with
  | zero => exact keeps_stop _
  | succ fuel ih =>
    refine (keeps_trieRead 1).mono.bind fun m => (keeps_readLeaf p).ite fun s => ?_
    simp only [post_bind, post_get]
    refine post_ite (fun _ => ⟨Frame.refl _ s, by simp⟩) fun _ => ?_
    rw [post_bind, post_set]
    refine Keeps.after ?_ ((frame_allocate s _).mono (by simp))
    exact (ih _).bind fun q => (keeps_modify fun s => (frame_updateNode s _ _).mono (by simp)).bind fun _ =>
      (ih _).bind fun r => (keeps_modify fun s => (frame_updateNode s _ _).mono (by simp)).bind fun _ => keeps_pure _

/-- DESERIALIZE after it has dropped the old trie (R170). -/
def readTrie : Engine Unit := do
  let (root, _) ← deserializeNode Config.maxDepth { ni := 0, seen := [] }
  modify ({ · with root := BitVec.ofNat 9 root, trieValid := true })

theorem deserializeBody_eq : deserializeBody = (do modify State.dropTrie; readTrie) := rfl

theorem keeps_readTrie : Keeps [.rpos, .nodes, .trieValid] [.corruptTrie] readTrie :=
  (keeps_deserializeNode _ _).mono.bind fun _ => keeps_modify fun s =>
    (frame_newTrie s _ _ _).mono (by simp)

theorem keeps_deserializeBody : Keeps [.rpos, .nodes, .trieValid, .codesValid] [.corruptTrie] deserializeBody :=
  (keeps_modify fun s => (frame_dropTrie s).mono (by simp)).bind fun _ => keeps_readTrie.mono

theorem keeps_walk (fuel i : Nat) : Keeps [.rpos] [.underflow] (walk fuel i) := by
  induction fuel generalizing i with
  | zero => exact keeps_stop _
  | succ fuel ih =>
    exact (keeps_nodeAt i).bind fun e => (keeps_pure e).ite ((keeps_readBits 1).bind fun _ => ih _)

theorem keeps_walkSymbol : Keeps [.rpos] [.underflow] walkSymbol := keeps_get.bind fun _ => keeps_walk _ _

theorem keeps_decodeSymbols (n : Nat) :
    Keeps [.rpos, .output, .decoded] [.underflow, .outputOverflow] (decodeSymbols n) := by
  induction n with
  | zero => exact keeps_pure ()
  | succ n ih =>
    exact keeps_walkSymbol.mono.bind fun e => (keeps_writeBits e.sym).mono.bind fun _ =>
      (keeps_modify fun s => (frame_decoded s _ _).mono (by simp)).bind fun _ => ih

/-- COMPRESS once it writes a unit, from an empty packer (R155, R160). -/
def compressUnit (inLen : Word) : Engine Unit :=
  if inLen = 0 then emitSentinel
  else do
    tabulateBody
    buildBody
    deriveBody
    serializeBody
    writeBits inLen
    encodeBody
    flushBits

/-- R155: with EMPTY_MODE an empty input is an error; all else is a unit, written to an empty packer. -/
theorem compressBody_run (s : State) : compressBody s =
    if s.inLen = 0 ∧ s.emptyMode then .error (.error .emptyInput 0 0) s else compressUnit s.inLen s.resetPacker := by
  rw [compressBody, run_bind_ok (run_get s)]
  split
  · rfl
  · rw [run_bind_ok (run_modify _ s)]
    rfl

theorem keeps_emitSentinel : Keeps [.freq, .trieValid, .codesValid, .output] [.outputOverflow] emitSentinel :=
  (keeps_modify fun s => (frame_clearFreq s).mono (by simp)).bind fun _ =>
    (keeps_modify fun s => (((frame_freqValid s true).mono (by simp)).trans
      ((frame_trieValid _ false).mono (by simp))).trans ((frame_codesValid _ false).mono (by simp))).bind fun _ =>
    (keeps_writeBits _).mono.bind fun _ => (keeps_writeBits _).mono.bind fun _ =>
      (keeps_writeBits _).mono.bind fun _ => keeps_flushBits.mono

theorem keeps_compressUnit (inLen : Word) :
    Keeps [.freq, .nodes, .trieValid, .codes, .codesValid, .output] [.emptyInput, .noCode, .outputOverflow]
      (compressUnit inLen) :=
  keeps_emitSentinel.mono.ite <| keeps_tabulateBody.mono.bind fun _ => keeps_buildBody.mono.bind fun _ =>
    keeps_deriveBody.mono.bind fun _ => keeps_serializeBody.mono.bind fun _ => (keeps_writeBits _).mono.bind fun _ =>
      keeps_encodeBody.mono.bind fun _ => keeps_flushBits.mono

/-- EXPAND from RPOS 0 and an empty packer (R180). -/
def expandUnit : Engine Unit := do
  modify ({ · with dlen := 0, dcount := 0 })
  deserializeBody
  let n ← readBits 32
  modify ({ · with dlen := n })
  decodeSymbols n.toNat

/-- R180: EXPAND starts from RPOS 0 and an empty packer. -/
theorem expandBody_run (s : State) : expandBody s = expandUnit (s.setRpos 0).resetPacker := rfl

theorem keeps_expandUnit :
    Keeps [.rpos, .nodes, .trieValid, .codesValid, .output, .decoded] [.corruptTrie, .underflow, .outputOverflow]
      expandUnit :=
  (keeps_modify fun s => (frame_decoded s _ _).mono (by simp)).bind fun _ => keeps_deserializeBody.mono.bind fun _ =>
    (keeps_readBits 32).mono.bind fun n => (keeps_modify fun s => (frame_decoded s n _).mono (by simp)).bind fun _ =>
      (keeps_decodeSymbols _).mono

end Sys2Proof.Machine
end

section
/-! PROOFS. The frame of every command (R201, R244, R247): the parts it may write, the errors it may raise, and the
statements that read off them. -/

namespace Sys2Proof.Machine

open Sys2Proof.Claims

/-- The parts a command may write, each by the rule that names its writers (R30 to R45, R48, R209). -/
@[simp] def writes : Instr → List Part
  | .nop => []
  | .clear => [.result, .freq, .nodes, .trieValid, .codes, .codesValid, .rpos, .decoded, .haz, .output, .written]
  | .wbit _ | .wbyte _ | .wint | .flush | .serialize | .encode => [.output]
  | .rbit | .rbyte | .rint => [.rpos, .result]
  | .tabulate => [.freq]
  | .build => [.nodes, .trieValid, .codesValid]
  | .derive => [.codes, .codesValid]
  | .deserialize => [.rpos, .nodes, .trieValid, .codesValid]
  | .decode => [.rpos, .output, .decoded]
  | .compress => [.freq, .nodes, .trieValid, .codes, .codesValid, .output, .written]
  | .expand => [.rpos, .nodes, .trieValid, .codesValid, .output, .decoded, .written]

/-- The errors a command's pseudocode may raise (R201); COMPRESS runs the body of ENCODE, which names NO_CODE. -/
@[simp] def mayRaise : Instr → List ErrCode
  | .nop | .clear | .tabulate => []
  | .wbit _ | .wbyte _ | .wint | .flush => [.outputOverflow]
  | .rbit | .rbyte | .rint => [.underflow]
  | .build => [.notReady, .emptyInput]
  | .derive => [.notReady]
  | .serialize => [.notReady, .outputOverflow]
  | .encode => [.notReady, .noCode, .outputOverflow]
  | .deserialize => [.corruptTrie]
  | .decode => [.notReady, .underflow, .outputOverflow]
  | .compress => [.emptyInput, .noCode, .outputOverflow]
  | .expand => [.corruptTrie, .underflow, .outputOverflow]

theorem keeps_cleared : Keeps (writes .clear) [] (modify State.cleared) := fun s =>
  ⟨sameHostSide_cleared s, fun p hp => by cases p <;> simp at hp⟩

theorem keeps_compressBody : Keeps (writes .compress) (mayRaise .compress) compressBody := fun s => by
  by_cases h : s.inLen = 0 ∧ s.emptyMode
  · rw [post_of_error ((compressBody_run s).trans (if_pos h))]
    exact ⟨Frame.refl _ s, by simp⟩
  · rw [post_congr ((compressBody_run s).trans (if_neg h))]
    exact (keeps_compressUnit s.inLen).mono.after ((frame_resetPacker s).mono (by simp))

theorem keeps_expandBody : Keeps (writes .expand) (mayRaise .expand) expandBody := fun s => by
  rw [post_congr (expandBody_run s)]
  exact keeps_expandUnit.mono.after
    (((frame_setRpos s 0).mono (by simp)).trans ((frame_resetPacker _).mono (by simp)))

/-- Every command writes its own parts alone and raises its own errors alone. -/
theorem keeps_commandBody (s : State) (i : Instr) : Keeps (writes i) (mayRaise i) (commandBody s i) := by
  cases i with
  | nop => exact keeps_pure ()
  | clear => exact keeps_cleared
  | wbit imm8 => exact keeps_writeBits _
  | wbyte imm8 => exact keeps_writeBits _
  | wint => exact keeps_writeBits _
  | flush => exact keeps_flushBits
  | rbit => exact keeps_readToResult 1
  | rbyte => exact keeps_readToResult 8
  | rint => exact keeps_readToResult 32
  | tabulate => exact keeps_tabulateBody
  | build => exact keeps_needFreq.mono.bind fun _ => keeps_buildBody.mono
  | derive => exact keeps_needTrie.mono.bind fun _ => keeps_deriveBody.mono
  | serialize => exact keeps_needTrie.mono.bind fun _ => keeps_serializeBody.mono
  | encode => exact keeps_needCodes.mono.bind fun _ => keeps_encodeBody.mono
  | deserialize => exact keeps_deserializeBody
  | decode =>
    exact keeps_needTrie.mono.bind fun _ =>
      (keeps_modify fun s => (frame_decoded s _ _).mono (by simp)).bind fun _ => (keeps_decodeSymbols _).mono
  | compress => exact keeps_compressBody
  | expand => exact keeps_expandBody

/-! ### From a body's end to the command's -/

section
variable {i : Instr} {s t u : State}

/-- R205, R206: a command completes or raises one of its errors, where its body has written its own parts alone. -/
theorem exec_frame (h : exec i s = .next t) : ∃ u, Frame (writes i) s u ∧
    (t = u.complete ∨ ∃ e ∈ mayRaise i, ∃ sub info, t = u.raiseError e sub info) := by
  obtain ⟨u, hrun, rfl⟩ | ⟨e, sub, info, u, hrun, rfl⟩ := exec_next h
  · exact ⟨u, (keeps_commandBody s i s).ok hrun, .inl rfl⟩
  · obtain ⟨hframe, he⟩ := (keeps_commandBody s i s).error hrun
    exact ⟨u, hframe, .inr ⟨e, he, sub, info, rfl⟩⟩

theorem agrees_complete (s : State) (p : Part) : s.agrees s.complete p := by
  cases p
  case written => exact extends_of_sameOutput rfl rfl ⟨rfl, rfl, rfl, rfl⟩
  all_goals simp [State.agrees, SameOutput]

theorem agrees_raiseError (s : State) (e : ErrCode) (sub : BitVec 4) (info : Word) (p : Part) :
    s.agrees (s.raiseError e sub info) p := by
  cases p
  case written => exact extends_of_sameOutput rfl rfl ⟨rfl, rfl, rfl, rfl⟩
  all_goals simp [State.agrees, SameOutput]

/-- A command whose body runs from s as x does from u leaves every part x does not write as u has it. -/
theorem agrees_of_run {x : Engine Unit} {W : List Part} {es : List ErrCode} (hx : Keeps W es x)
    (hrun : commandBody s i s = x u) (h : exec i s = .next t) {p : Part} (hp : p ∉ W) : u.agrees t p := by
  obtain ⟨v, hv, rfl⟩ | ⟨e, sub, info, v, hv, rfl⟩ := exec_next h
  · exact agrees_trans (((hx u).ok (hrun ▸ hv)).parts p hp) (agrees_complete v p)
  · exact agrees_trans (((hx u).error (hrun ▸ hv)).1.parts p hp) (agrees_raiseError v e sub info p)

/-- A part a command does not write is as it was, however the command ends. -/
theorem exec_agrees (h : exec i s = .next t) {p : Part} (hp : p ∉ writes i) : s.agrees t p :=
  agrees_of_run (keeps_commandBody s i) rfl h hp

end

/-- R191. -/
theorem exec_clear (s : State) : exec .clear s = .next s.cleared.complete :=
  (exec_eq_runCommand .clear s).trans (runCommand_of_ok (run_modify _ s))

/-- Settles O42: the frame of every command's body holds the HOST's side fixed, and completion and error entry do not
touch it. -/
theorem noCommandTouchesTheHostsState : Obligations.NoCommandTouchesTheHostsState := by
  unfold Obligations.NoCommandTouchesTheHostsState
  intro i s t h
  obtain ⟨u, hframe, rfl | ⟨e, -, sub, info, rfl⟩⟩ := exec_frame h
  · simpa using hframe.fixed.host
  · simpa using hframe.fixed.host

/-- Settles O43: each clause exempts every command that may write its part. -/
theorem eachTableHasItsOwnWriters : Obligations.EachTableHasItsOwnWriters := by
  unfold Obligations.EachTableHasItsOwnWriters
  intro i s t h
  have part (p : Part) {l : List Instr} (hl : p ∈ writes i → i ∈ l) (hi : i ∉ l) : s.agrees t p :=
    exec_agrees h (mt hl hi)
  refine ⟨part .result ?_, part .freq ?_, fun hi => ?_, part .codes ?_, part .codesValid ?_, part .rpos ?_,
    part .decoded ?_, fun hi => part .haz (l := [.clear]) ?_ (by simpa using hi), fun hi => ?_, fun hi => ?_⟩
  case refine_3 =>
    obtain ⟨hnode, hroot, hnnodes, hnleaves⟩ := part .nodes (by cases i <;> simp) hi
    exact ⟨hnode, hroot, hnnodes, hnleaves, part .trieValid (by cases i <;> simp) hi⟩
  case refine_9 =>
    have hout : .output ∉ writes i := by clear h part; cases i <;> simp_all
    obtain ⟨hlen, hacc, hcnt, hobuf⟩ := exec_agrees h hout
    simp only [State.withPackerOf, ← hlen, ← hacc, ← hcnt, ← hobuf]
  case refine_10 =>
    subst hi
    obtain rfl : s.cleared.complete = t := Host.Outcome.next.inj ((exec_clear s).symm.trans h)
    simp [State.cleared]
  all_goals cases i <;> simp

end Sys2Proof.Machine
end

section
/-! PROOFS. What every command leaves in the packer and in STATUS (R33, R35, R62, R205, R206, R247), and that every step
keeps the invariant of the registers and buffers. -/

namespace Sys2Proof.Machine

section
variable {i : Instr} {s t : State}

/-- COMPRESS, EXPAND and CLEAR drop what the packer held; what they then write extends an empty packer. -/
theorem exec_extends_empty (h : exec i s = .next t) (hi : i ∈ [.compress, .expand, .clear])
    (hempty : ¬(i = .compress ∧ s.inLen = 0 ∧ s.emptyMode = true)) : Extends s.resetPacker t := by
  refine (?_ : s.resetPacker.agrees t .written) (by simp)
  simp only [List.mem_cons, List.not_mem_nil, or_false] at hi
  obtain rfl | rfl | rfl := hi
  case inl =>
    have hrun : commandBody s .compress s = compressUnit s.inLen s.resetPacker :=
      (compressBody_run s).trans (if_neg (by simpa using hempty))
    exact agrees_of_run (keeps_compressUnit _) hrun h (by simp)
  case inr.inl =>
    have hstart : s.resetPacker.agrees (s.setRpos 0).resetPacker .written :=
      extends_of_sameOutput rfl rfl ⟨rfl, rfl, rfl, rfl⟩
    have hrun : commandBody s .expand s = expandUnit (s.setRpos 0).resetPacker := expandBody_run s
    exact agrees_trans hstart (agrees_of_run keeps_expandUnit hrun h (by simp))
  case inr.inr =>
    obtain rfl : s.cleared.complete = t := Host.Outcome.next.inj ((exec_clear s).symm.trans h)
    refine extends_of_sameOutput ?_ ?_ ?_
    all_goals simp [State.cleared, SameOutput]

/-- COMPRESS of an empty input with EMPTY_MODE writes nothing (R155). -/
theorem exec_compress_emptyInput (h : s.inLen = 0 ∧ s.emptyMode = true) :
    exec .compress s = .next (s.raiseError .emptyInput 0 0) :=
  (exec_eq_runCommand .compress s).trans (runCommand_of_error ((compressBody_run s).trans (if_pos h)))

/-- The output of a command extends what the packer held, or, where the command first drops that, extends nothing. -/
theorem exec_extends (h : exec i s = .next t) (hle : s.outLen.toNat ≤ s.capOut.toNat) :
    Extends s t ∨ (i ∈ [.compress, .expand, .clear] ∧ Extends s.resetPacker t) := by
  by_cases hi : i ∈ [.compress, .expand, .clear]
  · by_cases hempty : i = .compress ∧ s.inLen = 0 ∧ s.emptyMode = true
    · obtain ⟨rfl, hempty⟩ := hempty
      obtain rfl : s.raiseError .emptyInput 0 0 = t :=
        Host.Outcome.next.inj ((exec_compress_emptyInput hempty).symm.trans h)
      exact .inl (agrees_raiseError s _ _ _ .written hle)
    · exact .inr ⟨hi, exec_extends_empty h hi hempty⟩
  · exact .inl (exec_agrees h (p := .written) (mt (fun hw => by cases i <;> simp_all) hi) hle)

end

/-- Settles O44: the packer of every command extends the old one or an empty one. -/
theorem packerOnlyGrows : Obligations.PackerOnlyGrows := by
  unfold Obligations.PackerOnlyGrows
  intro i s t hle h
  obtain hext | ⟨hi, hext⟩ := exec_extends h hle
  · exact ⟨hext.outLen_le, fun a ha _ => hext.bytes a (.inr ha),
      fun _ => ⟨hext.packed, hext.outLen_mono, fun a ha => hext.bytes a (.inl ha)⟩⟩
  · exact ⟨hext.outLen_le, fun a ha _ => hext.bytes a (.inr ha), fun hni => absurd hi hni⟩

end Sys2Proof.Machine
end

section
/-! PROOFS. A claim about the tables and their valid bits (R48) is kept by every command if the four bodies that write
tables keep it: TABULATE, BUILD, DERIVE and DESERIALIZE, which COMPRESS and EXPAND run too (R155, R180). -/

namespace Sys2Proof.Machine

/-- FREQ, NODE with TRIEINFO and NLEAVES, the code table, and their valid bits (R42 to R45, R48). -/
def tableParts : List Part := [.freq, .nodes, .trieValid, .codes, .codesValid]

/-- A claim about the tables alone that the bodies which write them keep, wherever they end. -/
structure TableClaim (I : State → Prop) : Prop where
  of_agrees : ∀ s t : State, (∀ p ∈ tableParts, s.agrees t p) → I s → I t
  of_no_trie : ∀ s : State, s.freq = Vector.replicate 256 0 → s.trieValid = false → s.codesValid = false → I s
  tabulate : ∀ s, I s → Post tabulateBody s (fun _ => I) (fun _ => I)
  build : ∀ s, I s → Post buildBody s (fun _ t => I t ∧ t.trieValid = true) (fun _ => I)
  derive : ∀ s, I s → s.trieValid = true → Post deriveBody s (fun _ => I) (fun _ => I)
  deserialize : ∀ s, I s → Post deserializeBody s (fun _ => I) (fun _ => I)

namespace TableClaim

variable {I : State → Prop} {α : Type} {s t : State} (hI : TableClaim I)

include hI

theorem of_frame {W : List Part} (hs : I s) (h : Frame W s t) (hW : ∀ p ∈ tableParts, p ∉ W := by simp [tableParts]) :
    I t :=
  hI.of_agrees s t (fun p hp => h.parts p (hW p hp)) hs

/-- A body that writes no table keeps the claim. -/
theorem of_keeps {W : List Part} {es : List ErrCode} {x : Engine α} (hs : I s) (hx : Keeps W es x)
    (hW : ∀ p ∈ tableParts, p ∉ W := by simp [tableParts]) : Post x s (fun _ => I) (fun _ => I) :=
  (hx s).mono (fun _ _ hf => hI.of_frame hs hf hW) fun _ _ hf => hI.of_frame hs hf.1 hW

theorem emitSentinel : Post emitSentinel s (fun _ => I) (fun _ => I) := by
  have hwrites : Keeps [.output] [.outputOverflow] (do
      writeBits 1#1
      writeBits (0x00 : Byte)
      writeBits (0 : Word)
      flushBits) :=
    (keeps_writeBits _).bind fun _ => (keeps_writeBits _).bind fun _ => (keeps_writeBits _).bind fun _ =>
      keeps_flushBits
  rw [Machine.emitSentinel, post_bind, post_modify, post_bind, post_modify]
  exact hI.of_keeps (hI.of_no_trie _ rfl rfl rfl) hwrites

theorem compressUnit (inLen : Word) (hs : I s) : Post (compressUnit inLen) s (fun _ => I) (fun _ => I) := by
  have hwrites : Keeps [.output] [.noCode, .outputOverflow] (do
      serializeBody
      writeBits inLen
      encodeBody
      flushBits) :=
    keeps_serializeBody.mono.bind fun _ => (keeps_writeBits _).mono.bind fun _ => keeps_encodeBody.bind fun _ =>
      keeps_flushBits.mono
  refine post_ite (fun _ => hI.emitSentinel) fun _ => ?_
  rw [post_bind]
  refine (hI.tabulate s hs).mono (fun _ t ht => ?_) fun _ _ h => h
  rw [post_bind]
  refine (hI.build t ht).mono (fun _ u hu => ?_) fun _ _ h => h
  rw [post_bind]
  exact (hI.derive u hu.1 hu.2).mono (fun _ v hv => hI.of_keeps hv hwrites) fun _ _ h => h

theorem expandUnit (hs : I s) : Post expandUnit s (fun _ => I) (fun _ => I) := by
  have hdecode : Keeps [.rpos, .output, .decoded] [.underflow, .outputOverflow] (do
      let n ← readBits 32
      modify ({ · with dlen := n })
      decodeSymbols n.toNat) :=
    (keeps_readBits 32).mono.bind fun n => (keeps_modify fun s => (frame_decoded s n _).mono (by simp)).bind fun _ =>
      keeps_decodeSymbols _
  rw [Machine.expandUnit, post_bind, post_modify, post_bind]
  exact (hI.deserialize _ (hI.of_frame hs (frame_decoded s 0 0))).mono (fun _ t ht => hI.of_keeps ht hdecode)
    fun _ _ h => h

/-- Every command's body keeps the claim. -/
theorem commandBody (i : Instr) (hs : I s) : Post (commandBody s i) s (fun _ => I) (fun _ => I) := by
  cases i
  case clear => exact hI.of_no_trie _ rfl rfl rfl
  case tabulate => exact hI.tabulate s hs
  case build =>
    refine post_bind.mpr ((hI.of_keeps hs keeps_needFreq).mono (fun _ t ht => ?_) fun _ _ h => h)
    exact (hI.build t ht).mono (fun _ _ h => h.1) fun _ _ h => h
  case derive =>
    cases hvalid : s.trieValid
    · have hrun : (do needTrie; deriveBody) s = .error (.error .notReady 2 0) s :=
        run_bind_error (by simp [needTrie_run, hvalid])
      exact (post_of_error hrun).mpr hs
    · have hrun : (do needTrie; deriveBody) s = deriveBody s := run_bind_ok (by simp [needTrie_run, hvalid]; rfl)
      exact (post_congr hrun).mpr (hI.derive s hs hvalid)
  case deserialize => exact hI.deserialize s hs
  case compress =>
    by_cases hempty : s.inLen = 0 ∧ s.emptyMode
    · exact (post_of_error ((compressBody_run s).trans (if_pos hempty))).mpr hs
    · refine (post_congr ((compressBody_run s).trans (if_neg hempty))).mpr ?_
      exact hI.compressUnit s.inLen (hI.of_frame hs (frame_resetPacker s))
  case expand =>
    refine (post_congr (expandBody_run s)).mpr (hI.expandUnit ?_)
    exact hI.of_frame (hI.of_frame hs (frame_setRpos s 0)) (frame_resetPacker _)
  all_goals exact hI.of_keeps hs (keeps_commandBody s _)

/-- Every command keeps the claim, however it ends. -/
theorem exec {i : Instr} (hs : I s) (h : exec i s = .next t) : I t := by
  have hbody := hI.commandBody i hs
  obtain ⟨u, hrun, rfl⟩ | ⟨e, sub, info, u, hrun, rfl⟩ := exec_next h
  · exact hI.of_agrees u _ (fun p _ => agrees_complete u p) (hbody.ok hrun)
  · exact hI.of_agrees u _ (fun p _ => agrees_raiseError u e sub info p) (hbody.error hrun)

end TableClaim

end Sys2Proof.Machine
end

section
/-! PROOFS. The invariant of the registers and buffers (R26, R32, R33, R35, R48, R204 to R206): a command keeps it, an
access of the HOST keeps it, and so does every step. -/

namespace Sys2Proof.Machine

open Sys2Proof.Claims

/-! ### CODES_VALID implies TRIE_VALID (R48) -/

/-- R48: the code table is vouched for only beside a trie. -/
def State.codesNeedTrie (s : State) : Prop := s.codesValid = true → s.trieValid = true

theorem codesNeedTrie_of_not_codesValid {s : State} (h : s.codesValid = false) : s.codesNeedTrie := by
  simp [State.codesNeedTrie, h]

theorem post_true {α : Type} (x : Engine α) (s : State) : Post x s (fun _ _ => True) (fun _ _ => True) := by
  unfold Post
  split <;> trivial

/-- R132: BUILD ends well with a valid trie. -/
theorem post_buildTrie_trieValid (s : State) : Post buildTrie s (fun _ t => t.trieValid = true) (fun _ _ => True) := by
  rw [buildTrie, post_bind, post_get, post_bind]
  refine (post_true _ s).mono (fun pq t _ => post_ite (fun _ => trivial) fun _ => ?_) fun _ _ h => h
  rw [post_bind]
  exact (post_true _ t).mono (fun _ _ _ => rfl) fun _ _ h => h

theorem Post.and {α : Type} {x : Engine α} {s : State} {Q Q' : α → State → Prop} {E E' : ErrCode → State → Prop}
    (h : Post x s Q E) (h' : Post x s Q' E') :
    Post x s (fun a t => Q a t ∧ Q' a t) (fun e t => E e t ∧ E' e t) := by
  unfold Post at *
  split at h <;> simp_all

theorem tableClaim_codesNeedTrie : TableClaim State.codesNeedTrie where
  of_agrees s t h hs := by
    have htrie : t.trieValid = s.trieValid := h .trieValid (by simp [tableParts])
    have hcodes : t.codesValid = s.codesValid := h .codesValid (by simp [tableParts])
    simpa [State.codesNeedTrie, htrie, hcodes] using hs
  of_no_trie s _ _ h := codesNeedTrie_of_not_codesValid h
  tabulate s hs := by
    have keep {t : State} (h : Frame [.freq] s t) : t.codesNeedTrie := by
      have htrie : t.trieValid = s.trieValid := h.parts .trieValid (by simp)
      have hcodes : t.codesValid = s.codesValid := h.parts .codesValid (by simp)
      simpa [State.codesNeedTrie, htrie, hcodes] using hs
    exact (keeps_tabulateBody s).mono (fun _ _ h => keep h) fun _ _ h => keep h.1
  build s _ := by
    have keep {t : State} (h : Frame [.nodes, .trieValid] s.dropTrie t) : t.codesNeedTrie :=
      codesNeedTrie_of_not_codesValid (h.parts .codesValid (by simp))
    rw [buildBody_eq, post_bind, post_modify]
    exact ((keeps_buildTrie s.dropTrie).and (post_buildTrie_trieValid s.dropTrie)).mono
      (fun _ _ h => ⟨keep h.1, h.2⟩) fun _ _ h => keep h.1.1
  derive s _ hvalid := by
    have keep {t : State} (h : Frame [.codes, .codesValid] s t) : t.codesNeedTrie :=
      fun _ => (h.parts .trieValid (by simp)).trans hvalid
    exact (keeps_deriveBody s).mono (fun _ _ h => keep h) fun _ _ h => keep h.1
  deserialize s _ := by
    have keep {t : State} (h : Frame [.rpos, .nodes, .trieValid] s.dropTrie t) : t.codesNeedTrie :=
      codesNeedTrie_of_not_codesValid (h.parts .codesValid (by simp))
    rw [deserializeBody_eq, post_bind, post_modify]
    exact (keeps_readTrie s.dropTrie).mono (fun _ _ h => keep h) fun _ _ h => keep h.1

/-! ### The ENGINE's step -/

section
variable {i : Instr} {s t : State}

/-- R205, R206: a command ends with nothing pending, and with DONE or with ERR and one of its codes. -/
theorem exec_status (h : exec i s = .next t) : t.pending = none ∧
    ((t.done = true ∧ t.err = s.err ∧ t.errCode = s.errCode ∧ t.errSub = s.errSub ∧ t.errInfo = s.errInfo) ∨
     (t.done = s.done ∧ t.err = true ∧ t.errCode ∈ mayRaise i)) := by
  obtain ⟨u, hframe, hend⟩ := exec_frame h
  obtain ⟨-, hdone, herr, hcode, hsub, hinfo⟩ := hframe.fixed.status
  obtain rfl | ⟨e, he, sub, info, rfl⟩ := hend
  · simp [herr, hcode, hsub, hinfo]
  · exact ⟨rfl, .inr ⟨hdone, rfl, he⟩⟩

theorem noError_notMem_mayRaise (i : Instr) : .noError ∉ mayRaise i := by cases i <;> simp

/-- A pending command's execution keeps the invariant. -/
theorem exec_keeps_portInv (hs : s.PortInv) {w : Word} (hw : s.pending = some w) (h : exec i s = .next t) :
    t.PortInv := by
  obtain ⟨hibuf, hinLen, -, -, -, -, -, hlast, hcapIn, hcapOut, -⟩ := noCommandTouchesTheHostsState i s t h
  obtain ⟨-, hdone, herr, hcode⟩ := hs.busy_issued w hw
  obtain ⟨hsub, hinfo⟩ := hs.no_error hcode
  obtain ⟨hpend, hend⟩ := exec_status h
  have hout : t.outLen.toNat ≤ t.capOut.toNat ∧ t.packerClean ∧ t.obuf.wf ∧ t.obuf.below t.capOut.toNat := by
    obtain hext | ⟨-, hext⟩ := exec_extends h hs.outLen_le
    · exact ⟨hext.outLen_le, hext.clean hs.wacc_low, hext.obuf_wf hs.obuf_wf⟩
    · exact ⟨hext.outLen_le, hext.clean (packerClean_of_wacc_zero (by simp)), hext.obuf_wf (by simpa using hs.obuf_wf)⟩
  have hstatus : (t.done = true ∧ t.err = false ∧ t.errCode = .noError ∧ t.errSub = 0 ∧ t.errInfo = 0) ∨
      (t.done = false ∧ t.err = true ∧ t.errCode ≠ .noError) := by
    obtain ⟨h1, h2, h3, h4, h5⟩ | ⟨h1, h2, h3⟩ := hend
    · exact .inl ⟨h1, h2.trans herr, h3.trans hcode, h4.trans hsub, h5.trans hinfo⟩
    · exact .inr ⟨h1.trans hdone, h2, fun h0 => noError_notMem_mayRaise i (h0 ▸ h3)⟩
  exact {
    capIn_pos := hcapIn ▸ hs.capIn_pos
    capOut_pos := hcapOut ▸ hs.capOut_pos
    inLen_le := by rw [hinLen, hcapIn]; exact hs.inLen_le
    outLen_le := hout.1
    wacc_low := hout.2.1
    not_both := by obtain hst | hst := hstatus <;> simp [hst]
    busy_issued := by simp [hpend]
    no_error := by obtain hst | hst := hstatus <;> simp [hst]
    err_code := by obtain hst | hst := hstatus <;> simp [hst]
    done_code := by obtain hst | hst := hstatus <;> simp [hst]
    codes_trie := tableClaim_codesNeedTrie.exec hs.codes_trie h
    ibuf_wf := by rw [hibuf, hcapIn]; exact hs.ibuf_wf
    obuf_wf := hout.2.2 }

/-- Everything the ENGINE's turn can be (R21, R85). -/
theorem engineTurn_cases (h : engineTurn s = .next t) :
    (s.pending = none ∧ t = s) ∨
    ∃ w, s.pending = some w ∧
      ((∃ c, t = s.raiseIllegal c w) ∨ ∃ i, decode w = .command i ∧ exec i s = .next t) := by
  unfold engineTurn at h
  split at h
  · exact .inl ⟨‹_›, by simpa using h.symm⟩
  · refine .inr ⟨_, ‹_›, ?_⟩
    split at h
    · exact .inr ⟨_, ‹_›, h⟩
    · exact .inl ⟨_, by simpa using h.symm⟩

/-- An illegal word's report keeps the invariant (R85, R203). -/
theorem raiseIllegal_keeps_portInv (hs : s.PortInv) {w : Word} (hw : s.pending = some w) (c : IllegalCause) :
    (s.raiseIllegal c w).PortInv := by
  obtain ⟨-, hdone, -, -⟩ := hs.busy_issued w hw
  exact { hs with
    not_both := by simp [State.raiseIllegal, hdone]
    busy_issued := by simp [State.raiseIllegal]
    no_error := by simp [State.raiseIllegal]
    err_code := by simp [State.raiseIllegal]
    done_code := by simp [State.raiseIllegal, hdone] }

theorem engineTurn_keeps_portInv (hs : s.PortInv) (h : engineTurn s = .next t) : t.PortInv := by
  obtain ⟨-, rfl⟩ | ⟨w, hw, ⟨c, rfl⟩ | ⟨i, -, hexec⟩⟩ := engineTurn_cases h
  · exact hs
  · exact raiseIllegal_keeps_portInv hs hw c
  · exact exec_keeps_portInv hs hw hexec

/-! ### The HOST's accesses -/

/-- What the HOST's side alone holds, HAZ with it, is no part of the invariant. -/
theorem State.PortInv.with_side (hs : s.PortInv) (haz : Bool) (draws : Nat) (schedule : List Event)
    (data : Option PortData) :
    State.PortInv { s with haz := haz, draws := draws, schedule := schedule, portData := data } := { hs with }

theorem regRead_keeps_portInv (hs : s.PortInv) (off : BitVec 16) : (s.regRead off).PortInv := by
  unfold State.regRead
  split
  · exact hs.with_side true _ _ _
  · split
    · exact hs.with_side _ _ _ _
    · exact hs.with_side _ _ _ _

theorem bufferRead_keeps_portInv (hs : s.PortInv) (b : Byte) : (s.bufferRead b).PortInv := by
  obtain ⟨-, h⟩ | ⟨-, h⟩ := bufferRead_cases s b
  · rw [h]
    exact hs.with_side _ _ _ _
  · rw [h]
    exact hs.with_side _ _ _ _

/-- R209: a guarded write is dropped with HAZ, or made. -/
theorem unlessBusy_keeps_portInv (hs : s.PortInv) {u : State} (hu : u.PortInv) : (s.unlessBusy u).PortInv := by
  obtain ⟨-, h⟩ | ⟨-, h⟩ := unlessBusy_cases s u
  · rwa [h]
  · rw [h]
    exact hs.with_side true _ _ _

/-- R204. -/
theorem issue_keeps_portInv (hs : s.PortInv) (v : Word) : (s.issue v).PortInv :=
  { hs with
    not_both := by simp
    busy_issued := by simp
    no_error := by simp
    err_code := by simp
    done_code := by simp }

/-- R27: DONE and ERR only fall. -/
theorem writeStatus_keeps_portInv (hs : s.PortInv) (v : Word) : (s.writeStatus v).PortInv :=
  { hs with
    not_both := by
      have := hs.not_both
      simp only [writeStatus_fields, Bool.and_eq_true]
      tauto
    busy_issued := fun w hw => by
      obtain ⟨hlast, hdone, herr, hcode⟩ := hs.busy_issued w hw
      simp [hlast, hdone, herr, hcode]
    err_code := fun h => hs.err_code (Bool.and_eq_true_iff.mp h).1
    done_code := fun h => hs.done_code (Bool.and_eq_true_iff.mp h).1 }

/-- R32. -/
theorem writeInLen_keeps_portInv (hs : s.PortInv) (v : Word) : (s.writeInLen v).PortInv :=
  { hs with inLen_le := by rw [writeInLen_toNat]; exact Nat.min_le_right _ _ }

theorem writeTarget_keeps_portInv (hs : s.PortInv) (v : Word) (x : Target) : (s.writeTarget v x).PortInv := by
  cases x with
  | reg r =>
    cases r with
    | cmd => exact unlessBusy_keeps_portInv hs (issue_keeps_portInv hs v)
    | status => exact writeStatus_keeps_portInv hs v
    | ctrl => exact unlessBusy_keeps_portInv hs { hs with }
    | arg => exact unlessBusy_keeps_portInv hs { hs with }
    | inLen => exact unlessBusy_keeps_portInv hs (writeInLen_keeps_portInv hs v)
    | _ => exact hs
  | _ => exact hs

theorem regWrite_keeps_portInv (hs : s.PortInv) (off : BitVec 16) (v : Word) : (s.regWrite off v).PortInv := by
  unfold State.regWrite
  split
  · exact hs.with_side true _ _ _
  · split
    · exact writeTarget_keeps_portInv hs v _
    · exact hs

theorem ibufWrite_keeps_portInv (hs : s.PortInv) (a : Nat) (b : Byte) : (s.ibufWrite a b).PortInv := by
  unfold State.ibufWrite
  split
  · refine unlessBusy_keeps_portInv hs { hs with ibuf_wf := ?_ }
    exact ⟨Memory.store_wf a b hs.ibuf_wf.1, Memory.store_below b hs.ibuf_wf.2 ‹_›⟩
  · exact hs

theorem hostAccess_keeps_portInv (hs : s.PortInv) (a : HostAccess) : (s.hostAccess a).PortInv := by
  cases a with
  | regRead off => exact regRead_keeps_portInv hs off
  | regWrite off v => exact regWrite_keeps_portInv hs off v
  | ibufRead a => exact bufferRead_keeps_portInv hs _
  | ibufWrite a b => exact ibufWrite_keeps_portInv hs a b
  | obufRead a => exact bufferRead_keeps_portInv hs _
  | obufWrite a b => exact hs

theorem hardReset_portInv (hs : s.PortInv) : s.hardReset.PortInv :=
  (afterReset_portInv (s.resetCount + 1) hs.capIn_pos hs.capOut_pos).with_side _ _ _ _

/-! ### The step -/

/-- Everything a step can be (R20): s moves on with the rest of its schedule, by the agent whose turn it is. -/
theorem step_cases (h : step s = .next t) : ∃ rest,
    (engineNext s rest ∧ engineTurn { s with schedule := rest } = .next t) ∨
    (∃ a, s.schedule = .host a :: rest ∧ t = { s with schedule := rest }.hostAccess a) ∨
    (s.schedule = .reset :: rest ∧ t = { s with schedule := rest }.hardReset) := by
  unfold step at h
  split at h
  · refine ⟨[], .inl ⟨.inl ⟨‹_›, rfl⟩, ?_⟩⟩
    simpa [← ‹s.schedule = []›] using h
  · exact ⟨_, .inr (.inl ⟨_, ‹_›, by simpa using h.symm⟩)⟩
  · exact ⟨_, .inl ⟨.inr ‹_›, h⟩⟩
  · exact ⟨_, .inr (.inr ⟨‹_›, by simpa using h.symm⟩)⟩

end

/-- Settles O47: each agent's step keeps the invariant of the registers and buffers. -/
theorem stepKeepsThePortInvariant : Obligations.StepKeepsThePortInvariant := by
  unfold Obligations.StepKeepsThePortInvariant
  intro s t hs h
  obtain ⟨rest, ⟨-, hturn⟩ | ⟨a, -, rfl⟩ | ⟨-, rfl⟩⟩ := step_cases h
  · exact engineTurn_keeps_portInv (hs.with_side _ _ rest _) hturn
  · exact hostAccess_keeps_portInv (hs.with_side _ _ rest _) a
  · exact hardReset_portInv (hs.with_side _ _ rest _)

end Sys2Proof.Machine
end

section
/-! PROOFS. DERIVE (R140 to R142): the traversal records the path to each leaf, so that over a trie of distinct symbols the
code table holds the codes of that trie and nothing else. -/

namespace Sys2Proof.Machine

open Sys2Proof.Claims

/-! ### Tries read off the node store -/

/-- Where the store holds a trie it holds a leaf, or an internal node over the tries of its two children (R44). -/
theorem trieAt_cases {nodes : Vector Node Config.maxNodes} {fuel i : Nat} {tr : Trie}
    (h : trieAt nodes (fuel + 1) i = some tr) : ∃ e, nodes[i]? = some e ∧
      ((e.leaf = true ∧ tr = .leaf e.sym) ∨
       (e.leaf = false ∧ ∃ l r, tr = .node l r ∧ trieAt nodes fuel e.left.toNat = some l ∧
          trieAt nodes fuel e.right.toNat = some r)) := by
  unfold trieAt at h
  split at h
  case isFalse => simp at h
  case isTrue hi =>
    refine ⟨nodes[i], by simp, ?_⟩
    split at h
    · exact .inl ⟨‹_›, by simpa using h.symm⟩
    · refine .inr ⟨by simpa using ‹¬nodes[i].leaf = true›, ?_⟩
      split at h
      · exact ⟨_, _, by simpa using h.symm, ‹_›, ‹_›⟩
      · simp at h

/-- R51: the paths of a trie within this depth are shorter than it. -/
theorem length_lt_of_mem_codes {nodes : Vector Node Config.maxNodes} {fuel i : Nat} {tr : Trie}
    (h : trieAt nodes fuel i = some tr) {p : Byte × List Bool} (hp : p ∈ tr.codes) : p.2.length < fuel := by
  induction fuel generalizing i tr p with
  | zero => simp [trieAt] at h
  | succ fuel ih =>
    obtain ⟨e, -, ⟨-, rfl⟩ | ⟨-, l, r, rfl, hl, hr⟩⟩ := trieAt_cases h
    · obtain rfl : p = (e.sym, []) := by simpa [Trie.codes] using hp
      simp
    · simp only [Trie.codes, List.mem_append, List.mem_map] at hp
      obtain ⟨q, hq, rfl⟩ | ⟨q, hq, rfl⟩ := hp
      · simpa using ih hl hq
      · simpa using ih hr hq

/-- Each leaf has one path. -/
theorem map_fst_codes (tr : Trie) : tr.codes.map Prod.fst = tr.leaves := by
  induction tr with
  | leaf b => rfl
  | node l r hl hr => simp [Trie.codes, Trie.leaves, ← hl, ← hr, Function.comp_def]

/-! ### The code table after the traversal -/

/-- The code table with each of these symbols' codes recorded in turn (R140). -/
def State.recordCodes (s : State) (l : List (Byte × List Bool)) : State := l.foldl (fun s p => s.recordCode p.1 p.2) s

@[simp] theorem recordCodes_cons (s : State) (p : Byte × List Bool) (l : List (Byte × List Bool)) :
    s.recordCodes (p :: l) = (s.recordCode p.1 p.2).recordCodes l := rfl

theorem recordCodes_append (s : State) (l m : List (Byte × List Bool)) :
    s.recordCodes (l ++ m) = (s.recordCodes l).recordCodes m := List.foldl_append

/-- Recording codes changes the code table alone. -/
theorem recordCodes_frame (s : State) (l : List (Byte × List Bool)) : s.recordCodes l =
    { s with codeLen := (s.recordCodes l).codeLen, codeBits := (s.recordCodes l).codeBits } := by
  induction l generalizing s with
  | nil => rfl
  | cons p l ih =>
    rw [recordCodes_cons]
    generalize hu : (s.recordCode p.1 p.2).recordCodes l = u
    rw [← hu, ih]
    rfl

/-- `Visit(i, c)` over a trie records each leaf's path behind c (R140). -/
theorem visit_ok {fuel i : Nat} {s : State} {tr : Trie} (c : List Bool) (h : trieAt s.node fuel i = some tr) :
    visit fuel i c s = .ok () (s.recordCodes (tr.codes.map fun p => (p.1, c ++ p.2))) := by
  induction fuel generalizing i s tr c with
  | zero => simp [trieAt] at h
  | succ fuel ih =>
    obtain ⟨e, he, ⟨hleaf, rfl⟩ | ⟨hleaf, l, r, rfl, hl, hr⟩⟩ := trieAt_cases h
    · rw [visit, run_bind_ok (nodeAt_ok he), if_pos hleaf, run_modify]
      simp [Trie.codes, State.recordCodes]
    · have hleft := ih (c ++ [false]) hl
      generalize hu : s.recordCodes (l.codes.map fun p => (p.1, (c ++ [false]) ++ p.2)) = u at hleft
      have hnode : u.node = s.node := by rw [← hu, recordCodes_frame]
      rw [visit, run_bind_ok (nodeAt_ok he), if_neg (by simp [hleaf]), run_bind_ok hleft,
        ih (c ++ [true]) (hnode ▸ hr), ← hu, ← recordCodes_append]
      simp [Trie.codes, Function.comp_def]

/-- A symbol that is not recorded keeps its entry. -/
theorem recordCodes_of_notMem {l : List (Byte × List Bool)} {b : Byte} (h : b ∉ l.map Prod.fst) (s : State) :
    (s.recordCodes l).codeLenOf b = s.codeLenOf b ∧ (s.recordCodes l).codeBitsOf b = s.codeBitsOf b := by
  induction l generalizing s with
  | nil => exact ⟨rfl, rfl⟩
  | cons p l ih =>
    simp only [List.map_cons, List.mem_cons, not_or] at h
    obtain ⟨hlen, hbits⟩ := ih h.2 (s.recordCode p.1 p.2)
    rw [recordCodes_cons, hlen, hbits, codeLenOf_recordCode, if_neg h.1, codeBitsOf_recordCode_other s p.2 h.1]
    exact ⟨rfl, rfl⟩

/-- A symbol recorded once has the entry of its code. -/
theorem recordCodes_of_mem {l : List (Byte × List Bool)} (hl : (l.map Prod.fst).Nodup) {b : Byte} {c : List Bool}
    (h : (b, c) ∈ l) (s : State) :
    (s.recordCodes l).codeLenOf b = { present := true, len := BitVec.ofNat 8 c.length } ∧
    (s.recordCodes l).codeBitsOf b = c.zipIdx.foldl (fun ws p => setCodeBit ws p.2 p.1) (s.codeBitsOf b) := by
  induction l generalizing s with
  | nil => simp at h
  | cons p l ih =>
    obtain ⟨hp, hl⟩ := List.nodup_cons.mp (by simpa using hl : (p.1 :: l.map Prod.fst).Nodup)
    rw [recordCodes_cons]
    obtain rfl | h := List.mem_cons.mp h
    · obtain ⟨hlen, hbits⟩ := recordCodes_of_notMem hp (s.recordCode b c)
      rw [hlen, hbits, codeLenOf_recordCode, if_pos rfl, codeBitsOf_recordCode_same]
      exact ⟨rfl, rfl⟩
    · have hbp : b ≠ p.1 := fun e => hp (e ▸ List.mem_map_of_mem (f := Prod.fst) h)
      obtain ⟨hlen, hbits⟩ := ih hl h (s.recordCode p.1 p.2)
      rw [hlen, hbits, codeBitsOf_recordCode_other s p.2 hbp]
      exact ⟨rfl, rfl⟩

/-- Bit j of a code word after the bits of l are written from position k on (R140). -/
theorem codeBit_foldl_setCodeBit (l : List Bool) (k : Nat) (ws : Vector Word 8) (j : Nat) (hk : k + l.length ≤ 256) :
    codeBit ((l.zipIdx k).foldl (fun ws p => setCodeBit ws p.2 p.1) ws) j =
      if k ≤ j then (l[j - k]?).getD (codeBit ws j) else codeBit ws j := by
  induction l generalizing k ws with
  | nil => simp
  | cons b l ih =>
    simp only [List.length_cons] at hk
    rw [List.zipIdx_cons, List.foldl_cons, ih (k + 1) _ (by omega), codeBit_setCodeBit ws j b (by omega)]
    obtain hlt | rfl | hgt := Nat.lt_trichotomy j k
    · simp [show ¬k ≤ j by omega, show ¬k + 1 ≤ j by omega, show j ≠ k by omega]
    · simp
    · obtain ⟨m, rfl⟩ : ∃ m, j = k + 1 + m := ⟨j - (k + 1), by omega⟩
      simp [show k + 1 + m - k = m + 1 by omega, show k ≤ k + 1 + m by omega, show k + 1 + m ≠ k by omega]

/-- An entry of at most 255 bits over cleared words reads back as its code, with zeros past it (R45, R141). -/
theorem code_of_entry {s : State} {b : Byte} {l : List Bool} {ws : Vector Word 8} (hc : l.length ≤ 255)
    (hws : ∀ j, codeBit ws j = false) (hlen : s.codeLenOf b = { present := true, len := BitVec.ofNat 8 l.length })
    (hbits : s.codeBitsOf b = l.zipIdx.foldl (fun ws p => setCodeBit ws p.2 p.1) ws) :
    (s.codeLenOf b).len.toNat = l.length ∧ s.code b = l ∧
      ∀ j, l.length ≤ j → codeBit (s.codeBitsOf b) j = false := by
  have hnat : (s.codeLenOf b).len.toNat = l.length := by
    rw [hlen]
    exact Nat.mod_eq_of_lt (by omega)
  have hbit (j : Nat) : codeBit (s.codeBitsOf b) j = (l[j]?).getD false := by
    rw [hbits, codeBit_foldl_setCodeBit l 0 ws j (by omega), hws]
    simp
  refine ⟨hnat, List.ext_getElem (by simp [State.code, hnat]) fun j _ hj => ?_, fun j hj => ?_⟩
  · simp [State.code, hbit, hj]
  · rw [hbit, List.getElem?_eq_none hj, Option.getD_none]

/-- The codes of a trie of distinct symbols, recorded in a cleared table, are what the table holds (R140, R142). -/
theorem holdsCodes_recordCodes {tr : Trie} (hnodup : tr.leaves.Nodup) (hdepth : ∀ p ∈ tr.codes, p.2.length ≤ 255)
    {s : State} (hlen : ∀ b, s.codeLenOf b = { present := false, len := 0 })
    (hbits : ∀ b j, codeBit (s.codeBitsOf b) j = false) : (s.recordCodes tr.codes).holdsCodes tr := by
  have entry {b : Byte} {c : List Bool} (h : (b, c) ∈ tr.codes) :=
    recordCodes_of_mem (map_fst_codes tr ▸ hnodup) h s
  have read {b : Byte} {c : List Bool} (h : (b, c) ∈ tr.codes) :=
    code_of_entry (hdepth _ h) (hbits b) (entry h).1 (entry h).2
  have absent {b : Byte} (h : b ∉ tr.leaves) := recordCodes_of_notMem (map_fst_codes tr ▸ h) s
  refine ⟨fun b c h => ⟨by rw [(entry h).1], (read h).2.1⟩, fun b h => (absent h).1.trans (hlen b), fun b j hj => ?_⟩
  by_cases hb : b ∈ tr.leaves
  · obtain ⟨⟨_, c⟩, hmem, rfl⟩ := List.mem_map.mp (show b ∈ tr.codes.map Prod.fst by rwa [map_fst_codes])
    exact (read hmem).2.2 j ((read hmem).1 ▸ hj)
  · rw [(absent hb).2]
    exact hbits b j

/-- DERIVE's body over a trie of distinct symbols (R140). -/
theorem deriveBody_ok {s : State} {tr : Trie} (htrie : s.trie = some tr) (hnodup : tr.leaves.Nodup) :
    ∃ t, deriveBody s = .ok () t ∧
      t = { s with codeLen := t.codeLen, codeBits := t.codeBits, codesValid := true } ∧ t.holdsCodes tr := by
  generalize hclear : ({ s with codesValid := false } : State).clearCodes = u
  have hu : u = { s with codesValid := false, codeLen := u.codeLen, codeBits := u.codeBits } := by rw [← hclear]; rfl
  have htrie' : trieAt u.node Config.maxDepth u.root.toNat = some tr := by rw [hu]; exact htrie
  have hvisit := visit_ok [] htrie'
  simp only [List.nil_append, Prod.mk.eta, List.map_id'] at hvisit
  refine ⟨{ u.recordCodes tr.codes with codesValid := true }, ?_, ?_, ?_⟩
  · rw [deriveBody, run_bind_ok (run_modify _ s), run_bind_ok (run_modify _ _), hclear, run_bind_ok (run_get u),
      run_bind_ok hvisit, run_modify]
  · rw [recordCodes_frame, hu]
  · refine holdsCodes_recordCodes hnodup (fun p hp => ?_) (fun b => ?_) fun b j => ?_
    · exact Nat.le_of_lt_succ (length_lt_of_mem_codes htrie' hp)
    · rw [← hclear, codeLenOf_clearCodes]
    · simp [← hclear, State.codeBitsOf, codeBit]

/-- Settles O24: the traversal records the codes of the trie in a cleared table. -/
theorem deriveRecordsThePathOfEachLeaf : Obligations.DeriveRecordsThePathOfEachLeaf := by
  unfold Obligations.DeriveRecordsThePathOfEachLeaf
  intro s tr hvalid htrie hnodup
  obtain ⟨t, hrun, ht, hcodes⟩ := deriveBody_ok htrie hnodup
  have hbody : commandBody s .derive s = .ok () t := by
    rw [commandBody, run_bind_ok (a := ()) (t := s) (by simp [needTrie_run, hvalid]), hrun]
  refine ⟨t.complete, (exec_eq_runCommand .derive s).trans (runCommand_of_ok hbody), ?_, hcodes⟩
  show t.complete = State.complete _
  rw [ht]
  rfl

end Sys2Proof.Machine
end

section
/-! PROOFS. BUILD (R132 to R137): PQ is always the roots of a forest over the present byte values, each merge takes two of
its trees and makes one, and the last tree is the trie. -/

namespace Sys2Proof.Machine

open Sys2Proof.Claims

/-! ### A trie in a range of the node store -/

/-- NODE[i] is the root of this trie, all of it at indices from lo up to hi (R14, R44). -/
def holdsTrie (nodes : Vector Node Config.maxNodes) (lo hi : Nat) : Trie → Nat → Prop
  | .leaf b, i => (lo ≤ i ∧ i < hi) ∧ ∃ e, nodes[i]? = some e ∧ e.leaf = true ∧ e.sym = b
  | .node l r, i => (lo ≤ i ∧ i < hi) ∧ ∃ e, nodes[i]? = some e ∧ e.leaf = false ∧
      holdsTrie nodes lo hi l e.left.toNat ∧ holdsTrie nodes lo hi r e.right.toNat

/-- The edges of the longest path. -/
def Trie.height : Trie → Nat
  | .leaf _ => 0
  | .node l r => max l.height r.height + 1

theorem Trie.height_lt_length_leaves (tr : Trie) : tr.height < tr.leaves.length := by
  induction tr with
  | leaf b => simp [Trie.height, Trie.leaves]
  | node l r hl hr => simp only [Trie.height, Trie.leaves, List.length_append]; omega

section
variable {nodes nodes' : Vector Node Config.maxNodes} {lo hi lo' hi' i : Nat} {tr : Trie}

theorem lt_of_holdsTrie (h : holdsTrie nodes lo hi tr i) : lo ≤ i ∧ i < hi := by
  cases tr <;> exact h.1

/-- A trie stays where the entries of its range do. -/
theorem holdsTrie_of_agree (hlo : lo' ≤ lo) (hhi : hi ≤ hi')
    (hagree : ∀ j, lo ≤ j → j < hi → nodes'[j]? = nodes[j]?) (h : holdsTrie nodes lo hi tr i) :
    holdsTrie nodes' lo' hi' tr i := by
  induction tr generalizing i with
  | leaf b =>
    obtain ⟨⟨h1, h2⟩, e, he, hleaf⟩ := h
    exact ⟨⟨hlo.trans h1, h2.trans_le hhi⟩, e, by rw [hagree i h1 h2, he], hleaf⟩
  | node l r ihl ihr =>
    obtain ⟨⟨h1, h2⟩, e, he, hleaf, hl, hr⟩ := h
    exact ⟨⟨hlo.trans h1, h2.trans_le hhi⟩, e, by rw [hagree i h1 h2, he], hleaf, ihl hl, ihr hr⟩

/-- A traversal deep enough finds the trie (R51). -/
theorem trieAt_of_holdsTrie {fuel : Nat} (h : holdsTrie nodes lo hi tr i) (hfuel : tr.height < fuel) :
    trieAt nodes fuel i = some tr := by
  induction fuel generalizing tr i with
  | zero => omega
  | succ fuel ih =>
    cases tr with
    | leaf b =>
      obtain ⟨-, e, he, hleaf, hsym⟩ := h
      obtain ⟨hi, rfl⟩ := Vector.getElem?_eq_some_iff.mp he
      simp [trieAt, hi, hleaf, hsym]
    | node l r =>
      obtain ⟨-, e, he, hleaf, hl, hr⟩ := h
      obtain ⟨hi, rfl⟩ := Vector.getElem?_eq_some_iff.mp he
      simp only [Trie.height] at hfuel
      simp [trieAt, hi, hleaf, ih hl (by omega), ih hr (by omega)]

end

/-- R44: a leaf has no children, an internal node no symbol. -/
def Node.wellShaped (e : Node) : Prop := if e.leaf then e.left = 0 ∧ e.right = 0 else e.sym = 0

@[simp] theorem wellShaped_leafNode (b : Byte) (f : Word) : (leafNode b f).wellShaped := by
  simp [Node.wellShaped, leafNode]

@[simp] theorem wellShaped_internalNode (f : Word) (l r : Nat) : (internalNode f l r).wellShaped := by
  simp [Node.wellShaped, internalNode]

/-! ### PQ as a forest -/

/-- PQ holds the roots of these tries, n is the next free index, and the entry made last is in PQ (R132, R135). -/
structure Forest (nodes : Vector Node Config.maxNodes) (n : Nat) (pq : List Entry) (ts : List Trie) : Prop where
  roots : List.Forall₂ (fun x tr => holdsTrie nodes 0 n tr x.idx) pq ts
  shaped : ∀ j e, j < n → nodes[j]? = some e → e.wellShaped
  last : pq = [] ∨ ∃ x ∈ pq, x.idx + 1 = n

/-- What an entry written at the next free index leaves of the forest. -/
theorem holdsTrie_setNode {s : State} {n i : Nat} {tr : Trie} (e : Node) (hn : n < Config.maxNodes)
    (h : holdsTrie s.node 0 n tr i) : holdsTrie (s.setNode n e).node 0 (n + 1) tr i :=
  holdsTrie_of_agree (Nat.le_refl 0) (Nat.le_succ n)
    (fun j _ hj => by rw [getElem?_setNode s j e hn, if_neg (by omega)]) h

theorem roots_setNode {s : State} {n : Nat} {pq : List Entry} {ts : List Trie} (e : Node) (hn : n < Config.maxNodes)
    (h : List.Forall₂ (fun x tr => holdsTrie s.node 0 n tr x.idx) pq ts) :
    List.Forall₂ (fun x tr => holdsTrie (s.setNode n e).node 0 (n + 1) tr x.idx) pq ts :=
  h.imp fun _ _ => holdsTrie_setNode e hn

theorem shaped_setNode {s : State} {n : Nat} {e : Node} (he : e.wellShaped) (hn : n < Config.maxNodes)
    (h : ∀ j e, j < n → s.node[j]? = some e → e.wellShaped) :
    ∀ j e', j < n + 1 → (s.setNode n e).node[j]? = some e' → e'.wellShaped := by
  intro j e' hj hget
  rw [getElem?_setNode s j e hn] at hget
  split at hget
  · exact Option.some.inj hget ▸ he
  · exact h j e' (by omega) hget

theorem seedLeaf_run (pq : List Entry) (b : Byte) (s : State) : seedLeaf pq b s =
    .ok (pq ++ [{ freq := s.freqOf b, idx := pq.length }]) (s.setNode pq.length (leafNode b (s.freqOf b))) := by
  simp [seedLeaf, run_bind, run_map]

/-- R134: the seeding loop leaves one leaf per byte value, in order. -/
theorem seedLoop_ok (bs : List Byte) {pq : List Entry} {ts : List Trie} {s : State} (h : Forest s.node pq.length pq ts)
    (hn : pq.length + bs.length ≤ 256) : ∃ pq' t, bs.foldlM seedLeaf pq s = .ok pq' t ∧
      pq'.length = pq.length + bs.length ∧ Forest t.node pq'.length pq' (ts ++ bs.map .leaf) := by
  induction bs generalizing pq ts s with
  | nil => exact ⟨pq, s, rfl, rfl, by simpa using h⟩
  | cons b bs ih =>
    simp only [List.length_cons] at hn
    have hlt : pq.length < Config.maxNodes := by simp only [Config.maxNodes]; omega
    have hleaf : holdsTrie (s.setNode pq.length (leafNode b (s.freqOf b))).node 0 (pq.length + 1) (.leaf b) pq.length :=
      ⟨by omega, _, by rw [getElem?_setNode s _ _ hlt, if_pos rfl], rfl, rfl⟩
    generalize hx : ({ freq := s.freqOf b, idx := pq.length } : Entry) = x
    have hnext : Forest (s.setNode pq.length (leafNode b (s.freqOf b))).node (pq ++ [x]).length (pq ++ [x])
        (ts ++ [.leaf b]) := by
      rw [List.length_append]
      exact {
        roots := List.rel_append (roots_setNode _ hlt h.roots) (.cons (hx ▸ hleaf) .nil)
        shaped := shaped_setNode (by simp) hlt h.shaped
        last := .inr ⟨x, List.mem_append_right _ (List.mem_singleton_self _), hx ▸ rfl⟩ }
    obtain ⟨pq', t, hrun, hlen, hforest⟩ := ih hnext (by rw [List.length_append, List.length_singleton]; omega)
    refine ⟨pq', t, ?_, ?_, by simpa using hforest⟩
    · rw [List.foldlM_cons, run_bind_ok (seedLeaf_run pq b s), hx, hrun]
    · rw [hlen, List.length_append, List.length_singleton, List.length_cons]; omega

theorem mem_foldl_firstEntry (l : List Entry) (e : Entry) : l.foldl firstEntry e ∈ e :: l := by
  induction l generalizing e with
  | nil => simp
  | cons x l ih =>
    have hfirst : firstEntry e x = x ∨ firstEntry e x = e := by unfold firstEntry; split <;> simp
    obtain h | h := List.mem_cons.mp (ih (firstEntry e x))
    · rw [List.foldl_cons, h]
      obtain hfirst | hfirst := hfirst <;> simp [hfirst]
    · exact List.mem_cons_of_mem _ (List.mem_cons_of_mem _ h)

/-- R133: PopMin takes one entry out of PQ. -/
theorem popMin_perm {pq : List Entry} (h : pq ≠ []) : ∃ x rest, popMin pq = some (x, rest) ∧ pq.Perm (x :: rest) := by
  cases pq with
  | nil => exact absurd rfl h
  | cons e pq => exact ⟨_, _, rfl, List.perm_cons_erase (mem_foldl_firstEntry pq e)⟩

/-- Everything a pass of the merging loop can do (R132, R135). -/
theorem mergeLoop_cases {pq : List Entry} (h : pq ≠ []) (n : Nat) (s : State) :
    (∃ x, pq = [x] ∧ ∀ fuel, mergeLoop fuel pq n s = .ok n s) ∨
    ∃ x y rest, pq.Perm (x :: y :: rest) ∧ ∀ fuel, mergeLoop (fuel + 1) pq n s =
      mergeLoop fuel ({ freq := x.freq + y.freq, idx := n } :: rest) (n + 1)
        (s.setNode n (internalNode (x.freq + y.freq) x.idx y.idx)) := by
  obtain ⟨x, pq1, hpop, hperm⟩ := popMin_perm h
  obtain rfl | hpq1 := eq_or_ne pq1 []
  · refine .inl ⟨x, List.perm_singleton.mp hperm, fun fuel => ?_⟩
    cases fuel with
    | zero => rfl
    | succ fuel => rw [mergeLoop, hpop]; rfl
  · obtain ⟨y, rest, hpop1, hperm1⟩ := popMin_perm hpq1
    refine .inr ⟨x, y, rest, hperm.trans (hperm1.cons x), fun fuel => ?_⟩
    simp only [mergeLoop, hpop, hpop1]
    exact run_bind_ok (run_modify _ s)

/-- A forest of one tree has its root at the index made last. -/
theorem Forest.single {nodes : Vector Node Config.maxNodes} {n : Nat} {x : Entry} {ts : List Trie}
    (h : Forest nodes n [x] ts) : ∃ tr, ts = [tr] ∧ holdsTrie nodes 0 n tr (n - 1) := by
  obtain ⟨tr, rest, hroot, hrest, rfl⟩ := List.forall₂_cons_left_iff.mp h.roots
  obtain rfl := List.forall₂_nil_left_iff.mp hrest
  have hlast : x.idx + 1 = n := by simpa using h.last
  exact ⟨tr, rfl, (show x.idx = n - 1 by omega) ▸ hroot⟩

/-- R135: a merge makes one tree of two, and keeps the leaves. -/
theorem Forest.merge {s : State} {n : Nat} {x y : Entry} {pq rest : List Entry} {ts : List Trie}
    (h : Forest s.node n pq ts) (hperm : pq.Perm (x :: y :: rest)) (hn : n < Config.maxNodes) :
    ∃ ts', Forest (s.setNode n (internalNode (x.freq + y.freq) x.idx y.idx)).node (n + 1)
        ({ freq := x.freq + y.freq, idx := n } :: rest) ts' ∧
      (ts'.flatMap Trie.leaves).Perm (ts.flatMap Trie.leaves) := by
  obtain ⟨ts1, hroots, hts⟩ := List.perm_comp_forall₂ hperm.symm h.roots
  obtain ⟨tx, ts2, hx, hroots1, rfl⟩ := List.forall₂_cons_left_iff.mp hroots
  obtain ⟨ty, ts3, hy, hrest, rfl⟩ := List.forall₂_cons_left_iff.mp hroots1
  have index {z : Entry} {tr : Trie} (hz : holdsTrie s.node 0 n tr z.idx) : (BitVec.ofNat 9 z.idx).toNat = z.idx :=
    Nat.mod_eq_of_lt (by have := (lt_of_holdsTrie hz).2; simp only [Config.maxNodes] at hn; omega)
  generalize he : internalNode (x.freq + y.freq) x.idx y.idx = e
  have hnode : holdsTrie (s.setNode n e).node 0 (n + 1) (.node tx ty) n := by
    refine ⟨by simp, e, by rw [getElem?_setNode s _ _ hn, if_pos rfl], by rw [← he]; rfl, ?_, ?_⟩
    · rw [← he, internalNode, index hx]
      exact holdsTrie_setNode _ hn hx
    · rw [← he, internalNode, index hy]
      exact holdsTrie_setNode _ hn hy
  refine ⟨.node tx ty :: ts3,
    ⟨.cons hnode (roots_setNode e hn hrest), shaped_setNode (by simp [← he]) hn h.shaped, ?_⟩, ?_⟩
  · exact .inr ⟨_, List.mem_cons_self, rfl⟩
  · simpa [Trie.leaves] using hts.flatMap_right Trie.leaves

/-- R135: the merging loop ends with one trie, at the index made last, over the same leaves. -/
theorem mergeLoop_ok (fuel : Nat) {pq : List Entry} {n : Nat} {ts : List Trie} {s : State} (h : Forest s.node n pq ts)
    (hpq : pq ≠ []) (hfuel : pq.length ≤ fuel + 1) (hn : n + pq.length ≤ 512) :
    ∃ t tr x, mergeLoop fuel pq n s = .ok (n + pq.length - 1) t ∧ Forest t.node (n + pq.length - 1) [x] [tr] ∧
      tr.leaves.Perm (ts.flatMap Trie.leaves) := by
  induction fuel generalizing pq n ts s with
  | zero =>
    obtain ⟨x, rfl⟩ : ∃ x, pq = [x] := List.length_eq_one_iff.mp (by have := List.length_pos_iff.mpr hpq; omega)
    obtain ⟨tr, rfl, -⟩ := h.single
    exact ⟨s, tr, x, rfl, h, by simp⟩
  | succ fuel ih =>
    obtain ⟨x, rfl, hrun⟩ | ⟨x, y, rest, hperm, hrun⟩ := mergeLoop_cases hpq n s
    · obtain ⟨tr, rfl, -⟩ := h.single
      exact ⟨s, tr, x, hrun _, h, by simp⟩
    · have hlen : pq.length = rest.length + 2 := hperm.length_eq
      obtain ⟨ts', hmerged, hleaves⟩ := h.merge hperm (by simp only [Config.maxNodes]; omega)
      obtain ⟨t, tr, z, hrest, hone, htr⟩ := ih hmerged (by simp) (by simp; omega) (by simp; omega)
      have hcount : n + 1 + (rest.length + 1) - 1 = n + pq.length - 1 := by omega
      rw [List.length_cons, hcount] at hrest hone
      exact ⟨t, tr, z, (hrun fuel).trans hrest, hone, htr.trans hleaves⟩

/-! ### BUILD's body -/

@[simp] theorem length_allBytes : allBytes.length = 256 := by simp [allBytes]

theorem nodup_allBytes : allBytes.Nodup := by
  refine List.Nodup.map_on (fun i hi j hj h => ?_) List.nodup_range
  have := congrArg BitVec.toNat h
  simp only [BitVec.toNat_ofNat, List.mem_range] at *
  omega

theorem nodup_presentBytes (s : State) : s.presentBytes.Nodup := nodup_allBytes.filter _

theorem length_presentBytes_le (s : State) : s.presentBytes.length ≤ 256 :=
  (List.length_filter_le _ _).trans_eq length_allBytes

/-- The seeds of BUILD are the present byte values (R134). -/
theorem seeds_eq_presentBytes (s : State) : s.seeds = s.presentBytes := by
  have hfreq : s.freq.toList.zipIdx = (List.range 256).map fun i => (s.freqOf (BitVec.ofNat 8 i), i) := by
    refine List.ext_getElem (by simp) fun i hi _ => ?_
    have : i < 256 := by simpa using hi
    simp [State.freqOf, Nat.mod_eq_of_lt this]
  simp [State.seeds, State.presentBytes, hfreq, allBytes, List.filter_map, Function.comp_def]

/-- NODE with TRIEINFO and NLEAVES holds this trie and counts it, and the allocated entries are well shaped (R44,
R137). -/
structure HoldsWholeTrie (s : State) (tr : Trie) : Prop where
  trie : s.trie = some tr
  nleaves : s.nleaves.toNat = tr.leaves.length
  nnodes : s.nnodes.toNat = 2 * tr.leaves.length - 1
  shaped : ∀ i e, i < s.nnodes.toNat → s.node[i]? = some e → e.wellShaped

/-- BUILD over at least one present byte value makes a trie of the present byte values (R132 to R137). -/
theorem buildTrie_ok {s : State} (h : s.presentBytes ≠ []) : ∃ t tr, buildTrie s = .ok () t ∧ t.trieValid = true ∧
    HoldsWholeTrie t tr ∧ tr.leaves.Perm s.presentBytes := by
  have hpos := List.length_pos_iff.mpr h
  have hle := length_presentBytes_le s
  have hempty : Forest s.node ([] : List Entry).length [] [] := ⟨.nil, by simp, .inl rfl⟩
  obtain ⟨pq, u, hseed, hlen, hforest⟩ := seedLoop_ok s.seeds hempty (by simpa [seeds_eq_presentBytes] using hle)
  rw [seeds_eq_presentBytes, List.length_nil, Nat.zero_add] at hlen
  have hpq : pq ≠ [] := by rw [← List.length_pos_iff]; omega
  obtain ⟨v, tr, x, hmerge, hone, hleaves⟩ := mergeLoop_ok pq.length hforest hpq (by omega) (by omega)
  have hperm : tr.leaves.Perm s.presentBytes := by
    simpa [seeds_eq_presentBytes, List.flatMap_map, Trie.leaves] using hleaves
  have hcount := hperm.length_eq
  obtain ⟨tr', htr', hroot⟩ := hone.single
  obtain rfl := List.singleton_inj.mp htr'
  have hheight := tr.height_lt_length_leaves
  generalize hm : pq.length + pq.length - 1 = m at *
  have hnnodes : (BitVec.ofNat 10 m).toNat = m := Nat.mod_eq_of_lt (by omega)
  refine ⟨{ v with
      root := BitVec.ofNat 9 (m - 1), nnodes := BitVec.ofNat 10 m, nleaves := BitVec.ofNat 9 pq.length
      trieValid := true }, tr, ?_, rfl, ⟨?_, ?_, ?_, ?_⟩, hperm⟩
  · rw [buildTrie, run_bind_ok (run_get s), run_bind_ok hseed, if_neg (by omega), run_bind_ok hmerge, run_modify]
  · have hindex : (BitVec.ofNat 9 (m - 1)).toNat = m - 1 := Nat.mod_eq_of_lt (by omega)
    exact trieAt_of_holdsTrie (hindex ▸ hroot) (by simp only [Config.maxDepth]; omega)
  · exact (Nat.mod_eq_of_lt (by omega)).trans (hlen.trans hcount.symm)
  · exact hnnodes.trans (by omega)
  · exact fun i e hi => hone.shaped i e (hi.trans_eq hnnodes)

/-- Settles O22: the forest BUILD starts from has one leaf per present byte value, and every merge keeps the leaves. -/
theorem buildMakesATrieOfThePresentBytes : Obligations.BuildMakesATrieOfThePresentBytes := by
  unfold Obligations.BuildMakesATrieOfThePresentBytes
  intro s hvalid hpresent
  obtain ⟨t, tr, hrun, -, htrie, hperm⟩ := buildTrie_ok (s := s.dropTrie) hpresent
  have hbody : commandBody s .build s = .ok () t := by
    rw [commandBody, run_bind_ok (a := ()) (t := s) (by simp [needFreq_run, hvalid]), buildBody_eq,
      run_bind_ok (run_modify _ s), hrun]
  exact ⟨t.complete, tr, (exec_eq_runCommand .build s).trans (runCommand_of_ok hbody), htrie.trie, hperm⟩

end Sys2Proof.Machine
end

section
/-! PROOFS. DESERIALIZE (R170 to R174): what it reads without an error is stored as a trie of distinct symbols, in the
entries it allocates and in no other. -/

namespace Sys2Proof.Machine

theorem mem_allBytes (b : Byte) : b ∈ allBytes := List.mem_map.mpr ⟨b.toNat, by simp [b.isLt], by simp⟩

/-- There are 256 byte values. -/
theorem length_le_of_nodup {l : List Byte} (h : l.Nodup) : l.length ≤ 256 :=
  (h.subperm fun b _ => mem_allBytes b).length_le.trans_eq length_allBytes

/-- R173: NNODES and NLEAVES count what has been read, within the limits. -/
structure ParseInv (p : Parse) (s : State) : Prop where
  ni_le : p.ni ≤ Config.maxInternal
  nodup : p.seen.Nodup
  nnodes : s.nnodes.toNat = p.ni + p.seen.length
  nleaves : s.nleaves.toNat = p.seen.length

/-- From s to t DESERIALIZE has read this trie: it stands at index i in the entries allocated meanwhile, which are well
shaped, and no other entry has changed (R171). -/
structure Parsed (p : Parse) (s : State) (tr : Trie) (i : Nat) (q : Parse) (t : State) : Prop where
  inv : ParseInv q t
  root : i = s.nnodes.toNat
  stored : holdsTrie t.node s.nnodes.toNat t.nnodes.toNat tr i
  seen : q.seen = tr.leaves.reverse ++ p.seen
  ni : q.ni + 1 = p.ni + tr.leaves.length
  kept : ∀ j, j < s.nnodes.toNat → t.node[j]? = s.node[j]?
  shaped : ∀ j e, s.nnodes.toNat ≤ j → j < t.nnodes.toNat → t.node[j]? = some e → e.wellShaped

section
variable {p q : Parse} {s t u : State} {e : Node}

theorem ParseInv.of_counts (h : ParseInv p s) (hnnodes : t.nnodes = s.nnodes) (hnleaves : t.nleaves = s.nleaves) :
    ParseInv p t :=
  ⟨h.ni_le, h.nodup, hnnodes ▸ h.nnodes, hnleaves ▸ h.nleaves⟩

/-- A step that leaves the node store and its counts alone. -/
theorem ParseInv.of_agrees (h : ParseInv p s) (hst : s.agrees t .nodes) : ParseInv p t := by
  obtain ⟨-, -, hnnodes, hnleaves⟩ := hst
  exact h.of_counts hnnodes hnleaves

theorem Parsed.of_agrees {tr : Trie} {i : Nat} (hst : s.agrees t .nodes) (h : Parsed p t tr i q u) :
    Parsed p s tr i q u := by
  obtain ⟨hnode, -, hnnodes, -⟩ := hst
  obtain ⟨inv, root, stored, seen, ni, kept, shaped⟩ := h
  rw [hnnodes] at root stored kept shaped
  exact ⟨inv, root, stored, seen, ni, hnode ▸ kept, shaped⟩

theorem allocate_nleaves (s : State) (e : Node) : (s.allocate e).nleaves = s.nleaves := by
  rw [allocate_frame]

theorem allocate_nnodes (e : Node) (h : s.nnodes.toNat < Config.maxNodes) :
    (s.allocate e).nnodes.toNat = s.nnodes.toNat + 1 :=
  Nat.mod_eq_of_lt (by simp only [Config.maxNodes] at h; omega)

theorem getElem?_allocate (e : Node) (j : Nat) (h : s.nnodes.toNat < Config.maxNodes) :
    (s.allocate e).node[j]? = if j = s.nnodes.toNat then some e else s.node[j]? := by
  rw [allocate_frame]
  exact getElem?_setNode s j e h

/-- R171: a leaf read is a trie read. -/
theorem Parsed.leaf {b : Byte} (h : ParseInv p s) (hb : b ∉ p.seen) :
    Parsed p s (.leaf b) s.nnodes.toNat { p with seen := b :: p.seen }
      { s.allocate (leafNode b 0) with nleaves := s.nleaves + 1 } := by
  obtain ⟨hni, hnodup, hnnodes, hnleaves⟩ := h
  have hnodup' : (b :: p.seen).Nodup := List.nodup_cons.mpr ⟨hb, hnodup⟩
  have hlen := length_le_of_nodup hnodup'
  rw [List.length_cons] at hlen
  have hlt : s.nnodes.toNat < Config.maxNodes := by simp only [Config.maxNodes, Config.maxInternal] at *; omega
  have hcount := allocate_nnodes (leafNode b 0) hlt
  have hget (j : Nat) := getElem?_allocate (leafNode b 0) j hlt
  refine ⟨⟨hni, hnodup', ?_, ?_⟩, rfl, ⟨?_, _, (hget _).trans (if_pos rfl), rfl, rfl⟩, rfl, rfl, fun j hj => ?_,
    fun j e hj hj' he => ?_⟩
  · exact hcount.trans (by rw [hnnodes, List.length_cons]; rfl)
  · show (s.nleaves + 1).toNat = _
    simp only [BitVec.toNat_add, BitVec.ofNat_eq_ofNat, BitVec.toNat_ofNat, List.length_cons]
    omega
  · exact ⟨Nat.le_refl _, hcount ▸ Nat.lt_succ_self _⟩
  · exact (hget j).trans (if_neg (by omega))
  · have hj'' : j < s.nnodes.toNat + 1 := hcount ▸ hj'
    obtain rfl : leafNode b 0 = e := Option.some.inj (((hget j).trans (if_pos (by omega))).symm.trans he)
    simp

/-- R171, R173: room for one internal node more. -/
theorem ParseInv.internal (h : ParseInv p s) (hni : p.ni ≠ Config.maxInternal) :
    s.nnodes.toNat < Config.maxNodes ∧ ParseInv { p with ni := p.ni + 1 } (s.allocate e) := by
  obtain ⟨hni', hnodup, hnnodes, hnleaves⟩ := h
  have hlen := length_le_of_nodup hnodup
  have hlt : s.nnodes.toNat < Config.maxNodes := by simp only [Config.maxNodes, Config.maxInternal] at *; omega
  refine ⟨hlt, by simp only; omega, hnodup, ?_, by rw [allocate_nleaves, hnleaves]⟩
  rw [allocate_nnodes e hlt, hnnodes]
  simp only
  omega

theorem getElem?_setLeft_other (s : State) {n k : Nat} (c : Nat) (h : k ≠ n) :
    (s.setLeft n c).node[k]? = s.node[k]? := (getElem?_updateNode s n k _).trans (if_neg h)

theorem getElem?_setRight_other (s : State) {n k : Nat} (c : Nat) (h : k ≠ n) :
    (s.setRight n c).node[k]? = s.node[k]? := (getElem?_updateNode s n k _).trans (if_neg h)

theorem getElem?_setLeft_same {n : Nat} (c : Nat) (h : s.node[n]? = some e) :
    (s.setLeft n c).node[n]? = some { e with left := BitVec.ofNat 9 c } :=
  (getElem?_updateNode s n n _).trans ((if_pos rfl).trans (by rw [h]; rfl))

theorem getElem?_setRight_same {n : Nat} (c : Nat) (h : s.node[n]? = some e) :
    (s.setRight n c).node[n]? = some { e with right := BitVec.ofNat 9 c } :=
  (getElem?_updateNode s n n _).trans ((if_pos rfl).trans (by rw [h]; rfl))

/-- The store once both children of entry n are set: what was read for the left child lies below v.nnodes, what was read
for the right child at and past it. -/
theorem getElem?_setLeft_setRight {v w : State} {n i j : Nat} (hv : v.node[n]? = some e) (hn : n < v.nnodes.toNat)
    (hkept : ∀ k, k < v.nnodes.toNat → w.node[k]? = (v.setLeft n i).node[k]?) :
    (w.setRight n j).node[n]? = some { e with left := BitVec.ofNat 9 i, right := BitVec.ofNat 9 j } ∧
    (∀ k, k ≠ n → k < v.nnodes.toNat → (w.setRight n j).node[k]? = v.node[k]?) ∧
    ∀ k, v.nnodes.toNat ≤ k → (w.setRight n j).node[k]? = w.node[k]? := by
  refine ⟨getElem?_setRight_same j ((hkept n hn).trans (getElem?_setLeft_same i hv)), fun k hk hk' => ?_,
    fun k hk => getElem?_setRight_other w j (by omega)⟩
  rw [getElem?_setRight_other w j hk, hkept k hk', getElem?_setLeft_other v i hk]

/-- R171: an internal node, its left trie and its right trie read make a trie read. -/
theorem Parsed.node {v w : State} {l r : Trie} {i j : Nat} {p1 p2 : Parse} (h : ParseInv p s)
    (hni : p.ni ≠ Config.maxInternal)
    (hl : Parsed { p with ni := p.ni + 1 } (s.allocate (internalNode 0 0 0)) l i p1 v)
    (hr : Parsed p1 (v.setLeft s.nnodes.toNat i) r j p2 w) :
    Parsed p s (.node l r) s.nnodes.toNat p2 (w.setRight s.nnodes.toNat j) := by
  obtain ⟨hlt, -⟩ := h.internal (e := internalNode 0 0 0) hni
  have hget (k : Nat) := getElem?_allocate (internalNode 0 0 0) k hlt
  obtain ⟨-, -, hlstored, hlseen, hlni, hlkept, hlshaped⟩ := hl
  obtain ⟨hrinv, -, hrstored, hrseen, hrni, hrkept, hrshaped⟩ := hr
  have hleft_nnodes : (v.setLeft s.nnodes.toNat i).nnodes = v.nnodes := by simp
  rw [allocate_nnodes _ hlt] at hlstored hlkept hlshaped
  rw [hleft_nnodes] at hrstored hrkept hrshaped
  obtain ⟨hilo, hihi⟩ := lt_of_holdsTrie hlstored
  obtain ⟨hjlo, hjhi⟩ := lt_of_holdsTrie hrstored
  have hwle : w.nnodes.toNat ≤ 511 := by
    have hlen := length_le_of_nodup hrinv.nodup
    have := hrinv.ni_le
    have := hrinv.nnodes
    simp only [Config.maxInternal] at *
    omega
  have hright_nnodes : (w.setRight s.nnodes.toNat j).nnodes.toNat = w.nnodes.toNat := by simp
  have hv : v.node[s.nnodes.toNat]? = some (internalNode 0 0 0) :=
    (hlkept _ (by omega)).trans ((hget _).trans (if_pos rfl))
  obtain ⟨hroot, hbelow, habove⟩ := getElem?_setLeft_setRight (j := j) hv (by omega) hrkept
  refine ⟨hrinv.of_counts (by simp) (by simp), rfl, ⟨?_, _, hroot, rfl, ?_, ?_⟩, ?_, ?_, fun k hk => ?_,
    fun k e hk hk' he => ?_⟩
  · rw [hright_nnodes]; omega
  · rw [hright_nnodes, show (BitVec.ofNat 9 i).toNat = i from Nat.mod_eq_of_lt (by omega)]
    exact holdsTrie_of_agree (by omega) (by omega) (fun k hk hk' => hbelow k (by omega) hk') hlstored
  · rw [hright_nnodes, show (BitVec.ofNat 9 j).toNat = j from Nat.mod_eq_of_lt (by omega)]
    exact holdsTrie_of_agree (by omega) (by omega) (fun k hk _ => habove k hk) hrstored
  · simp [hrseen, hlseen, Trie.leaves]
  · simp only [Trie.leaves, List.length_append] at *; omega
  · rw [hbelow k (by omega) (by omega), hlkept k (by omega), hget k, if_neg (by omega)]
  · rw [hright_nnodes] at hk'
    obtain rfl | hne := eq_or_ne k s.nnodes.toNat
    · obtain rfl := Option.some.inj (hroot.symm.trans he)
      simp [Node.wellShaped, internalNode]
    · by_cases hkv : k < v.nnodes.toNat
      · exact hlshaped k e (by omega) hkv (hbelow k hne hkv ▸ he)
      · exact hrshaped k e (by omega) hk' (habove k (by omega) ▸ he)

end

/-- `TrieRead` leaves the node store alone. -/
theorem post_trieRead_nodes (n : Nat) (s : State) :
    Post (trieRead n) s (fun _ t => s.agrees t .nodes) (fun _ _ => True) :=
  (keeps_trieRead n s).mono (fun _ _ h => h.parts .nodes (by simp)) fun _ _ _ => trivial

theorem post_readLeaf {p : Parse} {s : State} (h : ParseInv p s) :
    Post (readLeaf p) s (fun r t => ∃ tr, Parsed p s tr r.1 r.2 t) (fun _ _ => True) := by
  rw [readLeaf, post_bind]
  refine (post_trieRead_nodes 8 s).mono (fun b t ht => ?_) fun _ _ h => h
  rw [post_bind, post_get]
  refine post_ite (fun _ => trivial) fun hb => ?_
  rw [post_bind, post_set, post_pure]
  exact ⟨.leaf b, (Parsed.leaf (h.of_agrees ht) hb).of_agrees ht⟩

/-- R171: what `DeserializeNode` returns is a trie read. -/
theorem post_deserializeNode (fuel : Nat) {p : Parse} {s : State} (h : ParseInv p s) :
    Post (deserializeNode fuel p) s (fun r t => ∃ tr, Parsed p s tr r.1 r.2 t) (fun _ _ => True) := by
  induction fuel generalizing p s with
  | zero => trivial
  | succ fuel ih =>
    rw [deserializeNode, post_bind]
    refine (post_trieRead_nodes 1 s).mono (fun m t ht => ?_) fun _ _ h => h
    have hread {tr : Trie} {r : Nat × Parse} {u : State} (hr : Parsed p t tr r.1 r.2 u) :
        ∃ tr, Parsed p s tr r.1 r.2 u := ⟨tr, hr.of_agrees ht⟩
    have h := h.of_agrees ht
    refine post_ite (fun _ => (post_readLeaf h).mono (fun _ _ ⟨_, hr⟩ => hread hr) fun _ _ h => h) fun _ => ?_
    rw [post_bind, post_get]
    refine post_ite (fun _ => trivial) fun hni => ?_
    rw [post_bind, post_set, post_bind]
    refine (ih (h.internal hni).2).mono (fun ⟨i, p1⟩ v ⟨l, hl⟩ => ?_) fun _ _ h => h
    rw [post_bind, post_modify, post_bind]
    refine (ih (hl.inv.of_counts (by simp) (by simp))).mono (fun ⟨j, p2⟩ w ⟨r, hr⟩ => ?_) fun _ _ h => h
    rw [post_bind, post_modify, post_pure]
    exact hread (hl.node h hni hr)

/-- R170: DESERIALIZE ends well with a whole trie of distinct symbols, and with TRIE_VALID as it was where it raises. -/
theorem post_readTrie {s : State} (hnnodes : s.nnodes = 0) (hnleaves : s.nleaves = 0) :
    Post readTrie s (fun _ t => ∃ tr, HoldsWholeTrie t tr ∧ tr.leaves.Nodup)
      (fun _ t => t.trieValid = s.trieValid) := by
  have hstart : ParseInv { ni := 0, seen := [] } s :=
    ⟨Nat.zero_le _, List.nodup_nil, by simp [hnnodes], by simp [hnleaves]⟩
  rw [readTrie, post_bind]
  refine ((post_deserializeNode _ hstart).and (keeps_deserializeNode _ _ s)).mono (fun ⟨i, q⟩ t ⟨⟨tr, h⟩, _⟩ => ?_)
    fun _ t h => h.2.1.parts .trieValid (by simp)
  have hinv : ParseInv q t := h.inv
  have hseen : q.seen = tr.leaves.reverse := by simpa using h.seen
  have hni : q.ni + 1 = tr.leaves.length := by simpa using h.ni
  have hroot : i = 0 := by simpa [hnnodes] using h.root
  have hstored : holdsTrie t.node 0 t.nnodes.toNat tr 0 := by simpa [hnnodes, hroot] using h.stored
  have hnodup : tr.leaves.Nodup := List.nodup_reverse.mp (hseen ▸ hinv.nodup)
  have hlen : q.seen.length = tr.leaves.length := by rw [hseen, List.length_reverse]
  have hle := length_le_of_nodup hnodup
  have hheight := tr.height_lt_length_leaves
  refine ⟨tr, ⟨?_, hinv.nleaves.trans hlen, hinv.nnodes.trans (by omega), fun k e hk => ?_⟩, hnodup⟩
  · exact hroot ▸ trieAt_of_holdsTrie hstored (by simp only [Config.maxDepth]; omega)
  · exact h.shaped k e (by simp [hnnodes]) hk

end Sys2Proof.Machine
end

section
/-! PROOFS. The whole invariant (R26, R44, R48): a valid bit always vouches for its table. -/

namespace Sys2Proof.Machine

/-! ### What the table claims read of the state -/

section
variable {s t : State}

/-- The promises of the three valid bits. -/
theorem tableInv_iff : s.TableInv ↔ (s.freqValid = true → s.freqSum < 2 ^ 32) ∧
    (s.trieValid = true → ∃ tr, HoldsWholeTrie s tr ∧ tr.leaves.Nodup) ∧
    (s.codesValid = true → ∀ tr, s.trie = some tr → s.holdsCodes tr) := by
  constructor
  · intro h
    refine ⟨h.freq_sum, fun hvalid => ?_, h.codes_ok⟩
    obtain ⟨tr, htrie, hnodup, hnleaves, hnnodes⟩ := h.trie_ok hvalid
    refine ⟨tr, ⟨htrie, hnleaves, hnnodes, fun i e hi he => ?_⟩, hnodup⟩
    obtain ⟨hlt, rfl⟩ := Vector.getElem?_eq_some_iff.mp he
    exact h.node_shape hvalid i hlt hi
  · rintro ⟨hfreq, htrie, hcodes⟩
    refine ⟨hfreq, fun hvalid => ?_, fun hvalid i hlt hi => ?_, hcodes⟩
    · obtain ⟨tr, h, hnodup⟩ := htrie hvalid
      exact ⟨tr, h.trie, hnodup, h.nleaves, h.nnodes⟩
    · obtain ⟨tr, h, -⟩ := htrie hvalid
      exact h.shaped i _ hi (Vector.getElem?_eq_getElem hlt)

theorem freqSum_of_agrees (h : s.agrees t .freq) : t.freqSum = s.freqSum := by
  simp only [State.freqSum, State.freqOf, h.1]

theorem trie_of_agrees (h : s.agrees t .nodes) : t.trie = s.trie := by
  obtain ⟨hnode, hroot, -⟩ := h
  simp only [State.trie, hnode, hroot]

theorem holdsWholeTrie_of_agrees (h : s.agrees t .nodes) {tr : Trie} (hs : HoldsWholeTrie s tr) :
    HoldsWholeTrie t tr := by
  obtain ⟨hnode, -, hnnodes, hnleaves⟩ := id h
  exact ⟨(trie_of_agrees h).trans hs.trie, hnleaves ▸ hs.nleaves, hnnodes ▸ hs.nnodes,
    by rw [hnode, hnnodes]; exact hs.shaped⟩

theorem holdsCodes_of_agrees (h : s.agrees t .codes) {tr : Trie} (hs : s.holdsCodes tr) : t.holdsCodes tr := by
  obtain ⟨hlen, hbits⟩ := h
  simpa only [State.holdsCodes, State.code, State.codeLenOf, State.codeBitsOf, hlen, hbits] using hs

/-! ### FREQ (R130, R131) -/

/-- A sum over distinct byte values of which one grew by at most 1. -/
theorem sum_map_le_succ {f g : Byte → Nat} {b : Byte} (hb : g b ≤ f b + 1) (hne : ∀ x, x ≠ b → g x = f x)
    {l : List Byte} (hl : l.Nodup) : (l.map g).sum ≤ (l.map f).sum + 1 := by
  induction l with
  | nil => simp
  | cons x l ih =>
    obtain ⟨hx, hl⟩ := List.nodup_cons.mp hl
    simp only [List.map_cons, List.sum_cons]
    obtain rfl | hxb := eq_or_ne x b
    · have hrest : l.map g = l.map f := List.map_congr_left fun y hy => hne y fun e => hx (e ▸ hy)
      rw [hrest]
      omega
    · have := ih hl
      have := hne x hxb
      omega

theorem freqSum_setFreq_le (s : State) (b : Byte) : (s.setFreq b (s.freqOf b + 1)).freqSum ≤ s.freqSum + 1 := by
  refine sum_map_le_succ (b := b) ?_ (fun x hx => ?_) nodup_allBytes
  · rw [freqOf_setFreq, if_pos rfl]
    simp only [BitVec.toNat_add, BitVec.ofNat_eq_ofNat, BitVec.toNat_ofNat]
    omega
  · rw [freqOf_setFreq, if_neg hx]

theorem freqSum_of_freq_zero (h : s.freq = Vector.replicate 256 0) : s.freqSum = 0 := by
  have hzero (b : Byte) : (s.freqOf b).toNat = 0 := by simp [State.freqOf, h]
  exact List.sum_eq_zero fun n hn => by obtain ⟨b, -, rfl⟩ := List.mem_map.mp hn; exact hzero b

theorem post_countByte (i : Nat) (s : State) :
    Post (countByte i) s (fun _ t => t.freqSum ≤ s.freqSum + 1) (fun _ _ => True) := by
  rw [countByte, post_bind]
  rw [ibufRead, post_bind, post_get]
  refine post_ite (fun _ => ?_) fun _ => trivial
  rw [post_pure, post_modify]
  exact freqSum_setFreq_le s (s.ibufByte i)

/-- R131: the loop adds at most one per byte. -/
theorem post_countLoop (l : List Nat) (s : State) :
    Post (l.forM countByte) s (fun _ t => t.freqSum ≤ s.freqSum + l.length) (fun _ _ => True) := by
  induction l generalizing s with
  | nil => exact (post_pure ()).mpr (Nat.le_add_right _ _)
  | cons i l ih =>
    rw [List.forM_eq_forM, List.forM_cons, post_bind]
    refine (post_countByte i s).mono (fun _ t ht => ?_) fun _ _ h => h
    refine (ih t).mono (fun _ u hu => ?_) fun _ _ h => h
    rw [List.length_cons]
    omega

/-- R131: the counts of TABULATE sum to at most IN_LEN, which is below 2^32. -/
theorem post_tabulateBody (s : State) : Post tabulateBody s (fun _ t => t.freqSum < 2 ^ 32) (fun _ _ => True) := by
  rw [tabulateBody, post_bind, post_modify, post_bind, post_get, post_bind]
  refine (post_countLoop _ s.clearFreq).mono (fun _ t ht => ?_) fun _ _ h => h
  rw [freqSum_of_freq_zero (s := s.clearFreq) (by simp), List.length_range, Nat.zero_add] at ht
  exact ht.trans_lt s.inLen.isLt

/-! ### The bodies that write tables -/

theorem tableInv_of_agrees (h : ∀ p ∈ tableParts, s.agrees t p) (hs : s.TableInv) : t.TableInv := by
  obtain ⟨hfreq, htrie, hcodes⟩ := tableInv_iff.mp hs
  have hnodes : s.agrees t .nodes := h .nodes (by simp [tableParts])
  have hfreqs : s.agrees t .freq := h .freq (by simp [tableParts])
  have htrieValid : t.trieValid = s.trieValid := h .trieValid (by simp [tableParts])
  have hcodesValid : t.codesValid = s.codesValid := h .codesValid (by simp [tableParts])
  refine tableInv_iff.mpr ⟨?_, ?_, ?_⟩
  · rw [freqSum_of_agrees hfreqs, hfreqs.2]
    exact hfreq
  · rw [htrieValid]
    exact fun hvalid => (htrie hvalid).imp fun tr h => ⟨holdsWholeTrie_of_agrees hnodes h.1, h.2⟩
  · rw [hcodesValid, trie_of_agrees hnodes]
    exact fun hvalid tr htr => holdsCodes_of_agrees (h .codes (by simp [tableParts])) (hcodes hvalid tr htr)

/-- After TRIE_VALID and CODES_VALID are cleared the counts alone are vouched for. -/
theorem tableInv_of_dropTrie (hs : s.TableInv) (hfreq : s.agrees t .freq) (htrie : t.trieValid = false)
    (hcodes : t.codesValid = false) : t.TableInv := by
  refine tableInv_iff.mpr ⟨?_, by simp [htrie], by simp [hcodes]⟩
  rw [freqSum_of_agrees hfreq, hfreq.2]
  exact hs.freq_sum

/-- A whole new trie, with no codes yet. -/
theorem tableInv_of_newTrie (hs : s.TableInv) (hfreq : s.agrees t .freq) {tr : Trie} (htrie : HoldsWholeTrie t tr)
    (hnodup : tr.leaves.Nodup) (hcodes : t.codesValid = false) : t.TableInv := by
  refine tableInv_iff.mpr ⟨?_, fun _ => ⟨tr, htrie, hnodup⟩, by simp [hcodes]⟩
  rw [freqSum_of_agrees hfreq, hfreq.2]
  exact hs.freq_sum

/-- BUILD over no present byte value (R132). -/
theorem buildTrie_empty (h : s.presentBytes = []) : buildTrie s = .error (.error .emptyInput 1 0) s := by
  rw [buildTrie, run_bind_ok (run_get s), seeds_eq_presentBytes, h, List.foldlM_nil, run_bind_ok (run_pure _ s),
    if_pos List.length_nil, run_raise]

theorem post_buildBody (hs : s.TableInv) :
    Post buildBody s (fun _ t => t.TableInv ∧ t.trieValid = true) (fun _ => State.TableInv) := by
  rw [buildBody_eq, post_bind, post_modify]
  by_cases hpresent : s.dropTrie.presentBytes = []
  · exact (post_of_error (buildTrie_empty hpresent)).mpr (tableInv_of_dropTrie hs (by simp [State.agrees]) rfl rfl)
  · obtain ⟨t, tr, hrun, hvalid, htrie, hperm⟩ := buildTrie_ok hpresent
    have hframe := (keeps_buildTrie s.dropTrie).ok hrun
    have hnodup : tr.leaves.Nodup := hperm.nodup_iff.mpr (nodup_presentBytes _)
    refine (post_of_ok hrun).mpr ⟨tableInv_of_newTrie hs ?_ htrie hnodup (hframe.parts .codesValid (by simp)), hvalid⟩
    exact hframe.parts .freq (by simp)

theorem post_deserializeBody (hs : s.TableInv) :
    Post deserializeBody s (fun _ => State.TableInv) (fun _ => State.TableInv) := by
  rw [deserializeBody_eq, post_bind, post_modify]
  have hfreq {t : State} (h : Frame [.rpos, .nodes, .trieValid] s.dropTrie t) : s.agrees t .freq :=
    h.parts .freq (by simp)
  have hcodes {t : State} (h : Frame [.rpos, .nodes, .trieValid] s.dropTrie t) : t.codesValid = false :=
    h.parts .codesValid (by simp)
  refine ((keeps_readTrie s.dropTrie).and (post_readTrie (by simp) (by simp))).mono ?_ ?_
  · rintro - t ⟨hframe, tr, htrie, hnodup⟩
    exact tableInv_of_newTrie hs (hfreq hframe) htrie hnodup (hcodes hframe)
  · rintro - t ⟨⟨hframe, -⟩, hvalid⟩
    exact tableInv_of_dropTrie hs (hfreq hframe) hvalid (hcodes hframe)

theorem post_deriveBody (hs : s.TableInv) (hvalid : s.trieValid = true) :
    Post deriveBody s (fun _ => State.TableInv) (fun _ => State.TableInv) := by
  obtain ⟨tr, htrie, hnodup, -⟩ := hs.trie_ok hvalid
  obtain ⟨t, hrun, ht, hcodes⟩ := deriveBody_ok htrie hnodup
  have hframe := (keeps_deriveBody s).ok hrun
  have hfreq : s.agrees t .freq := hframe.parts .freq (by simp)
  have hnodes : s.agrees t .nodes := hframe.parts .nodes (by simp)
  obtain ⟨hsfreq, hstrie, -⟩ := tableInv_iff.mp hs
  refine (post_of_ok hrun).mpr (tableInv_iff.mpr ⟨?_, fun _ => ?_, fun _ tr' htr' => ?_⟩)
  · rw [freqSum_of_agrees hfreq, hfreq.2]
    exact hsfreq
  · exact (hstrie hvalid).imp fun tr h => ⟨holdsWholeTrie_of_agrees hnodes h.1, h.2⟩
  · obtain rfl : tr = tr' := Option.some.inj (htrie.symm.trans ((trie_of_agrees hnodes).symm.trans htr'))
    exact hcodes

theorem post_tabulateBody_tableInv (hs : s.TableInv) :
    Post tabulateBody s (fun _ => State.TableInv) (fun _ => State.TableInv) := by
  obtain ⟨-, hstrie, hscodes⟩ := tableInv_iff.mp hs
  refine ((keeps_tabulateBody s).and (post_tabulateBody s)).mono ?_ (by simp)
  rintro - t ⟨hframe, hsum⟩
  have hnodes : s.agrees t .nodes := hframe.parts .nodes (by simp)
  have htrieValid : t.trieValid = s.trieValid := hframe.parts .trieValid (by simp)
  have hcodesValid : t.codesValid = s.codesValid := hframe.parts .codesValid (by simp)
  refine tableInv_iff.mpr ⟨fun _ => hsum, ?_, ?_⟩
  · rw [htrieValid]
    exact fun hvalid => (hstrie hvalid).imp fun tr h => ⟨holdsWholeTrie_of_agrees hnodes h.1, h.2⟩
  · rw [hcodesValid, trie_of_agrees hnodes]
    exact fun hvalid tr htr => holdsCodes_of_agrees (hframe.parts .codes (by simp)) (hscodes hvalid tr htr)

theorem tableClaim_tableInv : TableClaim State.TableInv where
  of_agrees _ _ := tableInv_of_agrees
  of_no_trie s hfreq htrie hcodes :=
    tableInv_iff.mpr ⟨fun _ => by simp [freqSum_of_freq_zero hfreq], by simp [htrie], by simp [hcodes]⟩
  tabulate _ := post_tabulateBody_tableInv
  build _ := post_buildBody
  derive _ := post_deriveBody
  deserialize _ := post_deserializeBody

/-! ### The step -/

/-- The tables and their valid bits are as they were. -/
def SameTables (s t : State) : Prop := ∀ p ∈ tableParts, s.agrees t p

theorem SameTables.refl (s : State) : SameTables s s := fun p _ => agrees_refl s p

theorem sameTables_iff : SameTables s t ↔ (t.freq = s.freq ∧ t.freqValid = s.freqValid) ∧
    (t.node = s.node ∧ t.root = s.root ∧ t.nnodes = s.nnodes ∧ t.nleaves = s.nleaves) ∧ t.trieValid = s.trieValid ∧
    (t.codeLen = s.codeLen ∧ t.codeBits = s.codeBits) ∧ t.codesValid = s.codesValid := by
  simp [SameTables, tableParts, State.agrees]

theorem unlessBusy_sameTables {u : State} (h : SameTables s u) : SameTables s (s.unlessBusy u) := by
  obtain ⟨-, hu⟩ | ⟨-, hu⟩ := unlessBusy_cases s u
  · rwa [hu]
  · simp [hu, sameTables_iff]

theorem regRead_sameTables (s : State) (off : BitVec 16) : SameTables s (s.regRead off) := by
  unfold State.regRead
  split
  · simp [sameTables_iff]
  · split <;> simp [sameTables_iff]

theorem bufferRead_sameTables (s : State) (b : Byte) : SameTables s (s.bufferRead b) := by
  obtain ⟨-, h⟩ | ⟨-, h⟩ := bufferRead_cases s b <;> simp [h, sameTables_iff]

theorem writeTarget_sameTables (s : State) (v : Word) (x : Target) : SameTables s (s.writeTarget v x) := by
  cases x with
  | reg r =>
    cases r with
    | cmd => exact unlessBusy_sameTables (by simp [sameTables_iff])
    | status => simp [State.writeTarget, sameTables_iff]
    | ctrl => exact unlessBusy_sameTables (by simp [sameTables_iff])
    | arg => exact unlessBusy_sameTables (by simp [sameTables_iff])
    | inLen => exact unlessBusy_sameTables (by simp [sameTables_iff])
    | _ => exact SameTables.refl s
  | _ => exact SameTables.refl s

theorem regWrite_sameTables (s : State) (off : BitVec 16) (v : Word) : SameTables s (s.regWrite off v) := by
  unfold State.regWrite
  split
  · simp [sameTables_iff]
  · split
    · exact writeTarget_sameTables s v _
    · exact SameTables.refl s

theorem ibufWrite_sameTables (s : State) (a : Nat) (b : Byte) : SameTables s (s.ibufWrite a b) := by
  unfold State.ibufWrite
  split
  · exact unlessBusy_sameTables (by simp [sameTables_iff])
  · exact SameTables.refl s

/-- No access of the HOST changes a table or a valid bit (R46, R71). -/
theorem hostAccess_sameTables (s : State) (a : HostAccess) : SameTables s (s.hostAccess a) := by
  cases a with
  | regRead off => exact regRead_sameTables s off
  | regWrite off v => exact regWrite_sameTables s off v
  | ibufRead a => exact bufferRead_sameTables s _
  | ibufWrite a b => exact ibufWrite_sameTables s a b
  | obufRead a => exact bufferRead_sameTables s _
  | obufWrite a b => exact SameTables.refl s

end

/-- Settles O48: each agent's step keeps both halves of the invariant. -/
theorem stepKeepsTheInvariant : Obligations.StepKeepsTheInvariant := by
  unfold Obligations.StepKeepsTheInvariant
  intro s t hs h
  refine ⟨stepKeepsThePortInvariant s t hs.port h, ?_⟩
  obtain ⟨rest, ⟨-, hturn⟩ | ⟨a, -, rfl⟩ | ⟨-, rfl⟩⟩ := step_cases h
  · have hs' : State.TableInv { s with schedule := rest } := { hs.tables with }
    obtain ⟨-, rfl⟩ | ⟨w, -, ⟨c, rfl⟩ | ⟨i, -, hexec⟩⟩ := engineTurn_cases hturn
    · exact hs'
    · exact tableInv_of_agrees (fun p _ => agrees_raiseError _ _ _ _ p) hs'
    · exact tableClaim_tableInv.exec hs' hexec
  · exact tableInv_of_agrees (hostAccess_sameTables _ a) { hs.tables with }
  · exact tableInv_of_nothing_valid rfl rfl rfl

end Sys2Proof.Machine
end

section
/-! PROOFS. The register port (R23 to R47, R71): the map of offsets to words, the fields of the words, and the idle reads
and writes. -/

namespace Sys2Proof.Machine

open Sys2Proof.Claims

/-! ### The register map (R24) -/

theorem regAt_regOffset (r : Reg) : regAt (regOffset r) = some r := by cases r <;> rfl

theorem regOffset_lt (r : Reg) : regOffset r < 0x048 ∧ regOffset r % 4 = 0 := by cases r <;> decide

theorem regOffset_of_regAt {n : Nat} {r : Reg} (h : regAt n = some r) : regOffset r = n := by
  unfold regAt at h
  split at h <;> cases h <;> rfl

/-- The registers lie at the aligned offsets below 0x048. -/
theorem regAt_eq_none_iff {n : Nat} (h : n % 4 = 0) : regAt n = none ↔ 0x048 ≤ n := by
  constructor
  · intro hnone
    by_contra hlt
    obtain ⟨k, rfl⟩ : ∃ k, n = 4 * k := ⟨n / 4, by omega⟩
    have hk : k < 18 := by omega
    interval_cases k <;> cases hnone
  · intro hge
    by_contra hsome
    obtain ⟨r, hr⟩ := Option.ne_none_iff_exists'.mp hsome
    have := regOffset_of_regAt hr
    have := (regOffset_lt r).1
    omega

/-- Every mapped word's offset is aligned, fits the port, and names that word. -/
theorem targetAt_targetOffset (x : Target) :
    targetOffset x < 2 ^ 16 ∧ targetOffset x % 4 = 0 ∧ targetAt (targetOffset x) = some x := by
  cases x with
  | reg r =>
    obtain ⟨hlt, halign⟩ := regOffset_lt r
    refine ⟨by simp only [targetOffset]; omega, halign, ?_⟩
    rw [targetAt, targetOffset, if_pos (by omega), regAt_regOffset]
    rfl
  | freq i =>
    have hi := i.isLt
    have hn : targetOffset (.freq i) = 0x400 + 4 * i.val := rfl
    generalize targetOffset (.freq i) = n at hn ⊢
    refine ⟨by omega, by omega, ?_⟩
    rw [targetAt, if_neg (by omega), dif_pos (by omega)]
    congr 2
    exact Fin.ext (by simp only; omega)
  | codeLen i =>
    have hi := i.isLt
    have hn : targetOffset (.codeLen i) = 0x800 + 4 * i.val := rfl
    generalize targetOffset (.codeLen i) = n at hn ⊢
    refine ⟨by omega, by omega, ?_⟩
    rw [targetAt, if_neg (by omega), dif_neg (by omega), dif_pos (by omega)]
    congr 2
    exact Fin.ext (by simp only; omega)
  | nodeW0 i =>
    have hi : i.val < 511 := i.isLt
    have hn : targetOffset (.nodeW0 i) = 0x1000 + 8 * i.val := rfl
    generalize targetOffset (.nodeW0 i) = n at hn ⊢
    refine ⟨by omega, by omega, ?_⟩
    rw [targetAt, if_neg (by omega), dif_neg (by omega), dif_neg (by omega), if_neg (by omega), dif_pos (by omega)]
    simp only [if_pos (show n % 8 = 0 by omega)]
    congr 2
    exact Fin.ext (by simp only; omega)
  | nodeW1 i =>
    have hi : i.val < 511 := i.isLt
    have hn : targetOffset (.nodeW1 i) = 0x1000 + 8 * i.val + 4 := rfl
    generalize targetOffset (.nodeW1 i) = n at hn ⊢
    refine ⟨by omega, by omega, ?_⟩
    rw [targetAt, if_neg (by omega), dif_neg (by omega), dif_neg (by omega), if_neg (by omega), dif_pos (by omega)]
    simp only [if_neg (show ¬n % 8 = 0 by omega)]
    congr 2
    exact Fin.ext (by simp only; omega)
  | codeBits i k =>
    have hi := i.isLt
    have hk := k.isLt
    have hn : targetOffset (.codeBits i k) = 0x2000 + 32 * i.val + 4 * k.val := rfl
    generalize targetOffset (.codeBits i k) = n at hn ⊢
    refine ⟨by omega, by omega, ?_⟩
    rw [targetAt, if_neg (by omega), dif_neg (by omega), dif_neg (by omega), if_neg (by omega), dif_neg (by omega),
      if_neg (by omega), dif_pos (by omega)]
    congr 2
    · exact Fin.ext (by simp only; omega)
    · exact Fin.ext (by simp only; omega)

/-- An aligned mapped offset is that of the word it names. -/
theorem targetOffset_of_targetAt {off : Nat} {x : Target} (halign : off % 4 = 0) (h : targetAt off = some x) :
    targetOffset x = off := by
  unfold targetAt at h
  split_ifs at h
  · obtain ⟨r, hr, rfl⟩ := Option.map_eq_some_iff.mp h
    exact regOffset_of_regAt hr
  all_goals
    obtain rfl := Option.some.inj h
    simp only [targetOffset]
    omega

/-- The unmapped aligned offsets. -/
theorem targetAt_eq_none_iff {off : Nat} (halign : off % 4 = 0) : targetAt off = none ↔
    (0x048 ≤ off ∧ off < 0x0400) ∨ (0x0C00 ≤ off ∧ off < 0x1000) ∨ (0x1FF8 ≤ off ∧ off < 0x2000) ∨ 0x4000 ≤ off := by
  unfold targetAt
  split_ifs
  · rw [Option.map_eq_none_iff, regAt_eq_none_iff halign]
    omega
  all_goals simp; omega

/-- Settles O50: the map and its inverse, window by window. -/
theorem registerMapIsOneToOne : Obligations.RegisterMapIsOneToOne := by
  unfold Obligations.RegisterMapIsOneToOne
  exact ⟨fun r => by cases r <;> rfl, fun _ => ⟨rfl, rfl⟩, fun _ => ⟨rfl, rfl⟩, fun _ _ => rfl, targetAt_targetOffset,
    fun _ _ => targetOffset_of_targetAt, fun _ => targetAt_eq_none_iff⟩

/-! ### The fields of the words (R25 to R45) -/

section
variable {m n i k : Nat} (x : BitVec n) (y : BitVec m)

theorem getLsbD_append_low (h : i < m) : (x ++ y).getLsbD i = y.getLsbD i := by
  rw [BitVec.getLsbD_append, if_pos h]

theorem getLsbD_append_high (h : m ≤ i) : (x ++ y).getLsbD i = x.getLsbD (i - m) := by
  rw [BitVec.getLsbD_append, if_neg (by omega)]

/-- A field is known by its bits. -/
theorem extractLsb'_eq_iff {v : BitVec n} {w : BitVec k} :
    v.extractLsb' i k = w ↔ ∀ j, j < k → v.getLsbD (i + j) = w.getLsbD j := by
  constructor
  · rintro rfl j hj
    simp [hj]
  · intro h
    refine BitVec.eq_of_getLsbD_eq fun j hj => ?_
    simp [hj, h j hj]

end

/-- R26: the bits of the STATUS word from BUSY to HAZ, and the reserved bit above them. -/
theorem statusWord_bits (s : State) :
    s.statusWord.getLsbD 0 = s.pending.isSome ∧ s.statusWord.getLsbD 1 = s.done ∧ s.statusWord.getLsbD 2 = s.err ∧
    s.statusWord.getLsbD 3 = s.freqValid ∧ s.statusWord.getLsbD 4 = s.trieValid ∧
    s.statusWord.getLsbD 5 = s.codesValid ∧ s.statusWord.getLsbD 6 = s.haz ∧ s.statusWord.getLsbD 7 = false := by
  simp (disch := omega) only [State.statusWord, getLsbD_append_low, getLsbD_append_high]
  simp

/-- R26: the fields of the STATUS word above its bits. -/
theorem statusWord_fields (s : State) :
    s.statusWord.extractLsb' 8 8 = errCodeByte s.errCode ∧ s.statusWord.extractLsb' 16 4 = s.errSub ∧
    s.statusWord.extractLsb' 20 12 = 0 := by
  refine ⟨extractLsb'_eq_iff.mpr fun j hj => ?_, extractLsb'_eq_iff.mpr fun j hj => ?_,
    extractLsb'_eq_iff.mpr fun j hj => ?_⟩
  all_goals
    simp (disch := omega) only [State.statusWord, getLsbD_append_low, getLsbD_append_high]
    simp

/-- Settles O59: each field of the STATUS word at its bits. -/
theorem statusWordHoldsItsFields : Obligations.StatusWordHoldsItsFields := by
  unfold Obligations.StatusWordHoldsItsFields
  intro s
  obtain ⟨h0, h1, h2, h3, h4, h5, h6, h7⟩ := statusWord_bits s
  obtain ⟨hcode, hsub, hreserved⟩ := statusWord_fields s
  refine ⟨h0, h1, h2, h3, h4, h5, h6, h7, hcode.trans ?_, hsub, hreserved⟩
  cases s.errCode <;> rfl

/-- R28: the fields of the CTRL word. -/
theorem ctrlWord_fields (s : State) :
    s.ctrlWord.getLsbD 0 = s.emptyMode ∧ s.ctrlWord.getLsbD 1 = s.ieDone ∧ s.ctrlWord.getLsbD 2 = s.ieErr ∧
    s.ctrlWord.getLsbD 3 = s.ieHaz ∧ s.ctrlWord.extractLsb' 4 28 = 0 := by
  refine ⟨?_, ?_, ?_, ?_, extractLsb'_eq_iff.mpr fun j hj => ?_⟩
  all_goals
    simp (disch := omega) only [State.ctrlWord, getLsbD_append_low, getLsbD_append_high]
    simp

/-- Settles O60: IRQ read off the bits of STATUS and CTRL. -/
theorem irqFollowsStatusAndEnables : Obligations.IrqFollowsStatusAndEnables := by
  unfold Obligations.IrqFollowsStatusAndEnables
  intro s
  obtain ⟨-, hdone, herr, -, -, -, hhaz, -⟩ := statusWord_bits s
  obtain ⟨-, hieDone, hieErr, hieHaz, -⟩ := ctrlWord_fields s
  rw [hdone, herr, hhaz, hieDone, hieErr, hieHaz]
  simp [State.irq, or_assoc]

/-- R34 to R37: the registers of more than one field. -/
theorem readReg_fields (s : State) :
    ((s.readReg .rposBit).extractLsb' 0 3 = s.rposBit ∧ (s.readReg .rposBit).extractLsb' 3 29 = 0) ∧
    ((s.readReg .wstate).extractLsb' 0 8 = s.wacc ∧ (s.readReg .wstate).extractLsb' 8 3 = s.wcnt ∧
      (s.readReg .wstate).extractLsb' 11 21 = 0) ∧
    ((s.readReg .trieInfo).extractLsb' 0 9 = s.root ∧ (s.readReg .trieInfo).extractLsb' 9 7 = 0 ∧
      (s.readReg .trieInfo).extractLsb' 16 10 = s.nnodes ∧ (s.readReg .trieInfo).extractLsb' 26 6 = 0) ∧
    (s.readReg .nleaves).extractLsb' 0 9 = s.nleaves ∧ (s.readReg .nleaves).extractLsb' 9 23 = 0 := by
  simp only [extractLsb'_eq_iff]
  and_intros
  all_goals
    intro j hj
    simp (disch := omega) only [State.readReg, getLsbD_append_low, getLsbD_append_high]
    simp [Nat.sub_sub]

/-- R43: the fields of a CODE_LEN word. -/
theorem codeLenWord_fields (c : CodeLen) :
    (codeLenWord c).extractLsb' 0 8 = c.len ∧ (codeLenWord c).getLsbD 8 = c.present ∧
    (codeLenWord c).extractLsb' 9 23 = 0 := by
  refine ⟨extractLsb'_eq_iff.mpr fun j hj => ?_, ?_, extractLsb'_eq_iff.mpr fun j hj => ?_⟩
  all_goals
    simp (disch := omega) only [codeLenWord, getLsbD_append_low, getLsbD_append_high]
    simp

/-- R44: the fields of word 0 of a NODE entry. -/
theorem nodeWord0_fields (e : Node) : (nodeWord0 e).getLsbD 31 = e.leaf ∧ (nodeWord0 e).extractLsb' 26 5 = 0 ∧
    (nodeWord0 e).extractLsb' 17 9 = e.left ∧ (nodeWord0 e).extractLsb' 8 9 = e.right ∧
    (nodeWord0 e).extractLsb' 0 8 = e.sym := by
  refine ⟨?_, extractLsb'_eq_iff.mpr fun j hj => ?_, extractLsb'_eq_iff.mpr fun j hj => ?_,
    extractLsb'_eq_iff.mpr fun j hj => ?_, extractLsb'_eq_iff.mpr fun j hj => ?_⟩
  all_goals
    simp (disch := omega) only [nodeWord0, getLsbD_append_low, getLsbD_append_high]
    simp [Nat.sub_sub]

/-- R45, R141: bit j of a code is bit 31 - (j mod 32) of word j div 32. -/
theorem code_getElem? (s : State) (i : Fin 256) (j : Fin 256) (h : j.val < s.codeLen[i].len.toNat) :
    (s.code (BitVec.ofNat 8 i.val))[j.val]? =
      some ((s.readTarget (.codeBits i ⟨j.val / 32, by omega⟩)).getLsbD (31 - j.val % 32)) := by
  have hi : (BitVec.ofNat 8 i.val).toNat = i.val := Nat.mod_eq_of_lt i.isLt
  have hlen : s.codeLenOf (BitVec.ofNat 8 i.val) = s.codeLen[i] := by simp only [State.codeLenOf, hi]; rfl
  have hbits : s.codeBitsOf (BitVec.ofNat 8 i.val) = s.codeBits[i] := by simp only [State.codeBitsOf, hi]; rfl
  rw [State.code, List.getElem?_map, hlen, hbits, List.getElem?_range h, Option.map_some, codeBit, dif_pos (by omega)]
  rfl

theorem wordsHoldTheirFields_all (s : State) : wordsHoldTheirFields s := by
  obtain ⟨hrposBit, hwstate, htrieInfo, hnleaves⟩ := readReg_fields s
  refine ⟨rfl, rfl, ctrlWord_fields s, rfl, rfl, rfl, rfl, rfl, rfl, hrposBit, hwstate, htrieInfo, hnleaves, rfl, rfl,
    rfl, rfl, rfl, fun _ => rfl, fun i => codeLenWord_fields _, fun i => ?_, fun _ _ => rfl, code_getElem? s⟩
  obtain ⟨hleaf, hreserved, hleft, hright, hsym⟩ := nodeWord0_fields s.node[i]
  exact ⟨hleaf, hreserved, hleft, hright, hsym, rfl⟩

/-! ### Idle reads and the writes (R23, R27 to R32, R46, R71) -/

section
variable {s : State} {rest : List Event}

theorem step_of_host {a : HostAccess} (h : s.schedule = .host a :: rest) :
    step s = .next ({ s with schedule := rest }.hostAccess a) := by
  simp only [step, h]

/-- R71: an idle aligned read gives the HOST a word and changes nothing else. -/
theorem step_of_idle_regRead {off : BitVec 16} (h : s.schedule = .host (.regRead off) :: rest)
    (hidle : s.pending = none) (halign : off.toNat % 4 = 0) :
    step s = .next { s with
      schedule := rest, portData := some (.word ({ s with schedule := rest }.readOffset off)) } := by
  rw [step_of_host h, State.hostAccess, State.regRead, if_neg (not_not_intro halign), if_neg (by simp [hidle])]

/-- R23: what an aligned read returns is the word its offset names. -/
theorem readOffset_targetOffset (s : State) {off : BitVec 16} {x : Target} (hx : targetOffset x = off.toNat) :
    s.readOffset off = s.readTarget x := by
  rw [State.readOffset, ← hx, (targetAt_targetOffset x).2.2]
  rfl

/-- R23: an unmapped offset reads 0. -/
theorem readOffset_unmapped (s : State) {off : BitVec 16} (halign : off.toNat % 4 = 0)
    (h : ∀ x, targetOffset x ≠ off.toNat) : s.readOffset off = 0 := by
  rw [State.readOffset, Option.eq_none_iff_forall_ne_some.mpr fun x hx => h x (targetOffset_of_targetAt halign hx)]
  rfl

/-- The words do not depend on what the environment does next. -/
theorem readTarget_schedule (s : State) (rest : List Event) (x : Target) :
    { s with schedule := rest }.readTarget x = s.readTarget x := by
  cases x with
  | reg r => cases r <;> rfl
  | _ => rfl

/-- An aligned write to a mapped word. -/
theorem step_of_regWrite {off : BitVec 16} {v : Word} (x : Target) (h : s.schedule = .host (.regWrite off v) :: rest)
    (hx : targetOffset x = off.toNat) : step s = .next ({ s with schedule := rest }.writeTarget v x) := by
  obtain ⟨-, halign, hat⟩ := targetAt_targetOffset x
  rw [hx] at halign hat
  rw [step_of_host h, State.hostAccess, State.regWrite, if_neg (not_not_intro halign), hat]

/-- An aligned write to an unmapped offset (R23). -/
theorem step_of_regWrite_unmapped {off : BitVec 16} {v : Word} (h : s.schedule = .host (.regWrite off v) :: rest)
    (halign : off.toNat % 4 = 0) (hat : targetAt off.toNat = none) : step s = .next { s with schedule := rest } := by
  rw [step_of_host h, State.hostAccess, State.regWrite, if_neg (not_not_intro halign), hat]

/-- R46: all words but five ignore writes. -/
theorem writeTarget_of_readOnly (s : State) (v : Word) {x : Target}
    (h : targetOffset x ∉ [0x000, 0x004, 0x008, 0x00C, 0x018]) : s.writeTarget v x = s := by
  cases x with
  | reg r =>
    cases r with
    | cmd | status | ctrl | arg | inLen => simp [targetOffset, regOffset] at h
    | _ => rfl
  | _ => rfl

end

/-- Settles O51: the word that the map names, and the fields of every word. -/
theorem idleReadReturnsTheWord : Obligations.IdleReadReturnsTheWord := by
  unfold Obligations.IdleReadReturnsTheWord
  intro s rest off h hidle halign
  have hstep := step_of_idle_regRead h hidle halign
  refine ⟨fun x hx => ?_, fun hx => ?_, wordsHoldTheirFields_all s⟩
  · rw [hstep, readOffset_targetOffset _ hx, readTarget_schedule]
  · rw [hstep, readOffset_unmapped _ halign hx]

/-- Settles O55: CTRL, ARG and IN_LEN are three of the words that a write stores. -/
theorem idleWriteStoresTheRegister : Obligations.IdleWriteStoresTheRegister := by
  unfold Obligations.IdleWriteStoresTheRegister
  intro s rest v hidle
  have hidle' : State.pending { s with schedule := rest } = none := hidle
  refine ⟨fun h => ?_, fun h => ?_, fun h => ?_⟩
  · rw [step_of_regWrite (.reg .ctrl) h rfl, State.writeTarget, unlessBusy_idle _ hidle']
    rfl
  · rw [step_of_regWrite (.reg .arg) h rfl, State.writeTarget, unlessBusy_idle _ hidle']
  · rw [step_of_regWrite (.reg .inLen) h rfl, State.writeTarget, unlessBusy_idle _ hidle']
    exact ⟨_, rfl, rfl, writeInLen_toNat _ v⟩

/-- Settles O56: DONE, ERR and HAZ after a STATUS write, bit by bit. -/
theorem statusWriteClearsTheBitsWritten : Obligations.StatusWriteClearsTheBitsWritten := by
  unfold Obligations.StatusWriteClearsTheBitsWritten
  intro s rest v h
  have clear (b c : Bool) : (b && !c) = if c then false else b := by cases b <;> cases c <;> rfl
  rw [step_of_regWrite (.reg .status) h rfl, State.writeTarget, State.writeStatus]
  simp only [clear]

/-- Settles O57: every mapped word but the five is read-only, and an unmapped offset has no word. -/
theorem readOnlyWordsIgnoreWrites : Obligations.ReadOnlyWordsIgnoreWrites := by
  unfold Obligations.ReadOnlyWordsIgnoreWrites
  intro s rest
  refine ⟨fun off v halign hoff h => ?_, fun a b h => step_of_host h⟩
  cases hat : targetAt off.toNat with
  | none => exact step_of_regWrite_unmapped h halign hat
  | some x =>
    have hx := targetOffset_of_targetAt halign hat
    rw [step_of_regWrite x h hx, writeTarget_of_readOnly]
    rw [hx]
    exact fun hmem => hoff (by simpa [← BitVec.toNat_inj] using hmem)

end Sys2Proof.Machine
end

section
/-! PROOFS. The state after a reset (O1), the ENGINE's turn (O7), and a command whose table is not valid (O18). -/

namespace Sys2Proof.Machine
open Sys2Proof.Claims

/-! ### Reset (R53) -/

/-- R43: a CODE_LEN entry after a reset is the draw's word cut at its fields. -/
theorem afterReset_codeLen (capIn capOut : Word) (n : Nat) (i : Fin 256) :
    (State.afterReset capIn capOut n).codeLen[i] = resetCodeLen n i := by
  simp [State.afterReset]

theorem afterReset_freq (capIn capOut : Word) (n : Nat) (i : Fin 256) :
    (State.afterReset capIn capOut n).freq[i] = Config.resetFreq n i := by
  simp [State.afterReset]

theorem afterReset_codeBits (capIn capOut : Word) (n : Nat) (i : Fin 256) (k : Fin 8) :
    (State.afterReset capIn capOut n).codeBits[i][k] = Config.resetCodeBits n i k := by
  simp [State.afterReset]

theorem afterReset_node (capIn capOut : Word) (n : Nat) (i : Fin Config.maxNodes) :
    (State.afterReset capIn capOut n).node[i] = resetNode n i := by
  simp [State.afterReset]

/-- R26: the STATUS word of a reset machine. -/
theorem afterReset_statusWord (capIn capOut : Word) (n : Nat) : (State.afterReset capIn capOut n).statusWord = 0 :=
  show 0#12 ++ 0#4 ++ 0#8 ++ 0#1 ++ 0#1 ++ 0#1 ++ 0#1 ++ 0#1 ++ 0#1 ++ 0#1 ++ 0#1 = 0#32 by decide

/-- Settles O1: each register is the reset's literal, and each table entry is its draw. -/
theorem resetLeavesTheStatedValues : Obligations.ResetLeavesTheStatedValues := by
  unfold Obligations.ResetLeavesTheStatedValues
  refine ⟨⟨Config.capIn, Config.capOut, 0, rfl⟩, ?_⟩
  rintro capIn capOut n s rfl
  refine ⟨rfl, rfl, rfl, rfl, rfl, rfl, rfl, rfl, rfl, rfl, rfl, afterReset_statusWord capIn capOut n,
    rfl, rfl, rfl, rfl, rfl, rfl, rfl, rfl, rfl, rfl, rfl, rfl, rfl, rfl, rfl, rfl, rfl, rfl, rfl, rfl, rfl, rfl,
    afterReset_freq capIn capOut n, fun i => ?_,
    afterReset_codeBits capIn capOut n, fun i => ?_, fun _ => rfl, fun _ => rfl⟩
  · rw [afterReset_codeLen]
    exact ⟨rfl, rfl⟩
  · rw [afterReset_node]
    exact ⟨rfl, rfl, rfl, rfl, rfl⟩

/-! ### The ENGINE's turn (R20, R21, R85) -/

/-- Where the ENGINE moves next, a step is its turn (log 5). -/
theorem step_of_engineNext {s : State} {rest : List Event} (h : engineNext s rest) :
    step s = engineTurn { s with schedule := rest } := by
  obtain ⟨hnil, rfl⟩ | hcons := h
  · simp only [step, hnil]
    rw [← hnil]
  · simp only [step, hcons]

/-- Settles O7: the ENGINE's turn by cases on what is pending. -/
theorem stepRunsThePendingCommand : Obligations.StepRunsThePendingCommand := by
  unfold Obligations.StepRunsThePendingCommand
  intro s rest hnext
  rw [step_of_engineNext hnext]
  exact ⟨fun w i hw hdecode => by simp [engineTurn, hw, hdecode], fun hidle => by simp [engineTurn, hidle]⟩

/-! ### A missing table (R48) -/

section
variable {s : State} {i : Instr} {need : Engine Unit} {body : Unit → Engine Unit}
  {e : ErrCode} {sub : BitVec 4} {info : Word}

/-- R205: a command whose first check fails raises that error over the state it began in. -/
theorem exec_of_failed_check (hbody : commandBody s i = need >>= body) (h : need s = .error (.error e sub info) s) :
    exec i s = .next (failed s e sub info) := by
  rw [exec_eq_runCommand, hbody]
  exact runCommand_of_error (run_bind_error h)

end

/-- Settles O18: each of the five commands begins with the check of its table. -/
theorem missingTableIsNotReady : Obligations.MissingTableIsNotReady := by
  unfold Obligations.MissingTableIsNotReady
  intro s
  refine ⟨fun h => ?_, fun h => ?_, fun h => ?_⟩
  · exact exec_of_failed_check rfl (by simp [needFreq_run, h])
  · have hneed : needTrie s = .error (.error .notReady 2 0) s := by simp [needTrie_run, h]
    exact ⟨exec_of_failed_check rfl hneed, exec_of_failed_check rfl hneed, exec_of_failed_check rfl hneed⟩
  · exact exec_of_failed_check rfl (by simp [needCodes_run, h])

end Sys2Proof.Machine
end

section
/-! PROOFS. The input stream read field by field (R64, R65, R100), the packer's output as a sum of what was appended
(R111), and a state known by its parts. -/

namespace Sys2Proof.Machine

open Sys2Proof.Claims

/-! ### A state known by its parts -/

/-- Two states with the same host's side and the same parts are one state. -/
theorem eq_of_agrees {s t : State} (hfix : SameHostSide s t) (hparts : ∀ p, p ≠ .written → s.agrees t p) : t = s := by
  obtain ⟨hhost, hstatus⟩ := hfix
  have hresult := hparts .result (by simp)
  have hfreq := hparts .freq (by simp)
  have hnodes := hparts .nodes (by simp)
  have htrie := hparts .trieValid (by simp)
  have hcodes := hparts .codes (by simp)
  have hcodesValid := hparts .codesValid (by simp)
  have hrpos := hparts .rpos (by simp)
  have hdecoded := hparts .decoded (by simp)
  have hhaz := hparts .haz (by simp)
  have houtput := hparts .output (by simp)
  cases s
  cases t
  simp_all [State.agrees, SameOutput]

theorem SameHostSide.capOut_eq {s t : State} (h : SameHostSide s t) : t.capOut = s.capOut := by
  obtain ⟨-, -, -, -, -, -, -, -, -, hcap, -⟩ := h.host
  exact hcap

theorem SameHostSide.resetCount_eq {s t : State} (h : SameHostSide s t) : t.resetCount = s.resetCount := by
  obtain ⟨-, -, -, -, -, -, -, -, -, -, hreset, -⟩ := h.host
  exact hreset

/-! ### The input stream -/

/-- The input stream holds these bits from RPOS on, within the IN_LEN valid bytes (R32, R64). -/
structure Upcoming (s : State) (bits : List Bool) : Prop where
  inLen_le : s.inLen.toNat ≤ s.capIn.toNat
  inside : s.rpos + bits.length ≤ 8 * s.inLen.toNat
  bits_eq : s.streamBits s.rpos bits.length = bits

section
variable {s t : State} {l m : List Bool}

theorem streamBits_of_sameHostSide (h : SameHostSide s t) (p n : Nat) : t.streamBits p n = s.streamBits p n := by
  obtain ⟨hibuf, -, -, -, -, -, -, -, -, -, hreset, -⟩ := h.host
  simp only [State.streamBits, State.streamBit, State.ibufByte, hibuf, hreset]

theorem Upcoming.left (h : Upcoming s (l ++ m)) : Upcoming s l := by
  obtain ⟨hle, hin, hbits⟩ := h
  rw [List.length_append] at hin hbits
  rw [streamBits_add] at hbits
  exact ⟨hle, by omega, List.append_inj_left hbits (length_streamBits _ _ _)⟩

/-- What is left of the stream once l has been read. -/
theorem Upcoming.after (h : Upcoming s (l ++ m)) (hfix : SameHostSide s t) (hrpos : t.rpos = s.rpos + l.length) :
    Upcoming t m := by
  obtain ⟨hle, hin, hbits⟩ := h
  obtain ⟨-, hinLen, -, -, -, -, -, -, hcapIn, -⟩ := hfix.host
  rw [List.length_append] at hin hbits
  rw [streamBits_add] at hbits
  refine ⟨by rw [hinLen, hcapIn]; exact hle, by rw [hinLen, hrpos]; omega, ?_⟩
  rw [streamBits_of_sameHostSide hfix, hrpos]
  exact List.append_inj_right hbits (length_streamBits _ _ _)

theorem Upcoming.of_sameHostSide (h : Upcoming s l) (hfix : SameHostSide s t) (hrpos : t.rpos = s.rpos) :
    Upcoming t l :=
  Upcoming.after (l := []) h hfix hrpos

theorem Upcoming.rpos_lt (h : Upcoming s l) : (s.rpos + l.length) / 8 < 2 ^ 32 := by
  have := h.inside
  have := s.inLen.isLt
  omega

/-- RPOS of a state is one of its 2^35 positions (R34). -/
theorem setRpos_rpos (h : Upcoming s l) : (s.setRpos (s.rpos + l.length)).rpos = s.rpos + l.length :=
  rpos_setRpos s h.rpos_lt

/-- R65, R100: `ReadBits` of a field that the stream holds gives the field. -/
theorem readBits_of_upcoming {n : Nat} (v : BitVec n) (h : Upcoming s (msbBits v)) :
    readBits n s = .ok v (s.setRpos (s.rpos + n)) := by
  have hlen := length_msbBits v
  have hin : s.hasBits n := by simpa using h.inside
  have hfield : s.streamBits s.rpos n = msbBits v := by simpa using h.bits_eq
  rw [readBits_ok hin h.inLen_le, hfield, natOfBits_msbBits, BitVec.ofNat_toNat, BitVec.setWidth_eq]

/-- R171: so does `TrieRead`. -/
theorem trieRead_of_upcoming {n : Nat} (v : BitVec n) (h : Upcoming s (msbBits v)) :
    trieRead n s = .ok v (s.setRpos (s.rpos + n)) := by
  have hin : s.hasBits n := by simpa using h.inside
  rw [trieRead_ok hin, readBits_of_upcoming v h]

end

theorem msbBits_ofBool (b : Bool) : msbBits (BitVec.ofBool b) = [b] := by cases b <;> rfl

/-! ### The packer's output -/

section
variable {s t u : State} {l m : List Bool}

theorem appended_nil (h : s.agrees t .output) (hreset : t.resetCount = s.resetCount) : appended s t [] := by
  obtain ⟨hlen, hacc, hcnt, hobuf⟩ := h
  have hbyte : t.obufByte = s.obufByte := by funext a; simp only [State.obufByte, hobuf, hreset]
  exact ⟨by simp [State.packed, State.outBytes, hlen, hacc, hcnt, hbyte], by simp [hlen, hcnt],
    by simp [State.packerClean, hacc, hcnt], fun a _ => by rw [hbyte]⟩

/-- A body that leaves the output alone appends nothing. -/
theorem appended_of_frame {W : List Part} (h : Frame W s t) (hW : .output ∉ W := by simp) : appended s t [] :=
  appended_nil (h.parts .output hW) h.fixed.resetCount_eq

theorem outLen_le_of_appended (h : appended s t l) : s.outLen.toNat ≤ t.outLen.toNat := by
  obtain ⟨-, hpos, -⟩ := h
  have := t.wcnt.isLt
  have := s.wcnt.isLt
  omega

theorem appended_trans (h : appended s t l) (h' : appended t u m) : appended s u (l ++ m) := by
  have hst := outLen_le_of_appended h
  have htu := outLen_le_of_appended h'
  obtain ⟨hpacked, hpos, hclean, hbyte⟩ := h
  obtain ⟨hpacked', hpos', hclean', hbyte'⟩ := h'
  refine ⟨by rw [hpacked', hpacked, List.append_assoc], by rw [hpos', hpos, List.length_append]; omega,
    hclean' ∘ hclean, fun a ha => ?_⟩
  rw [hbyte' a (by omega), hbyte a (by omega)]

/-- R101: `WriteBits` appends its bits where they fit. -/
theorem appended_pushBits (h : s.hasRoom l.length) : appended s (s.pushBits l) l := by
  have hpos := wpos_lt_of_hasRoom h
  have hext := extends_pushBits l h
  exact ⟨pushBits_packed l hpos, pushBits_wpos l hpos, hext.clean, hext.bytes⟩

/-- What was appended took up its part of the room. -/
theorem hasRoom_of_appended (h : appended s t l) (hcap : t.capOut = s.capOut) {n : Nat}
    (hroom : s.hasRoom (l.length + n)) : t.hasRoom n := by
  obtain ⟨-, hpos, -⟩ := h
  simp only [State.hasRoom, hcap] at *
  have := t.wcnt.isLt
  omega

theorem packed_of_appended (h : appended s t l) : t.packed = s.packed ++ l := by
  obtain ⟨hpacked, -⟩ := h
  exact hpacked

/-- A body that leaves the output alone leaves the room it had. -/
theorem hasRoom_of_frame {W : List Part} (h : Frame W s t) {n : Nat} (hroom : s.hasRoom n)
    (hW : .output ∉ W := by simp) : t.hasRoom n :=
  hasRoom_of_appended (appended_of_frame h hW) h.fixed.capOut_eq (by simpa using hroom)

end

end Sys2Proof.Machine
end

section
/-! PROOFS. EXPAND over a compressed unit (R170 to R180): DESERIALIZE reads the trie, and the walk of each code emits
its symbol. -/

namespace Sys2Proof.Machine

open Sys2Proof.Claims

/-! ### DESERIALIZE of a serialized trie -/

section
variable {s t v w : State} {l m : List Bool} {fuel i j : Nat} {p p1 p2 : Parse}

theorem rpos_of_agrees (h : s.agrees t .rpos) : t.rpos = s.rpos := by
  simp only [State.rpos, h.1, h.2]

/-- What a body that does not move RPOS leaves of the stream. -/
theorem Upcoming.of_frame {W : List Part} (h : Upcoming s l) (hf : Frame W s t) (hW : .rpos ∉ W := by simp) :
    Upcoming t l :=
  h.of_sameHostSide hf.fixed (rpos_of_agrees (hf.parts .rpos hW))

/-- What is left of the stream once RPOS has moved past l. -/
theorem Upcoming.setRpos (h : Upcoming s (l ++ m)) : Upcoming (s.setRpos (s.rpos + l.length)) m :=
  h.after (frame_setRpos s _).fixed (setRpos_rpos h.left)

theorem frame_setLeft (s : State) (i c : Nat) : Frame [.nodes] s (s.setLeft i c) := frame_updateNode s i _

theorem frame_setRight (s : State) (i c : Nat) : Frame [.nodes] s (s.setRight i c) := frame_updateNode s i _

theorem setRpos_agrees_nodes (s : State) (n : Nat) : s.agrees (s.setRpos n) .nodes :=
  (frame_setRpos s n).parts .nodes (by simp)

/-- R171: a leaf's byte that is new is stored as a leaf. -/
theorem readLeaf_ok {b : Byte} (hp : ParseInv p s) (hb : b ∉ p.seen) (h : Upcoming s (msbBits b)) :
    ∃ q t, readLeaf p s = .ok (s.nnodes.toNat, q) t ∧ Parsed p s (.leaf b) s.nnodes.toNat q t ∧
      t.rpos = s.rpos + 8 := by
  have hread := trieRead_of_upcoming b h
  have hrpos : (s.setRpos (s.rpos + 8)).rpos = s.rpos + 8 := by simpa using setRpos_rpos h
  have hparsed := (Parsed.leaf (hp.of_agrees (setRpos_agrees_nodes s (s.rpos + 8))) hb).of_agrees
    (setRpos_agrees_nodes s _)
  refine ⟨_, _, ?_, hparsed, ?_⟩
  · rw [readLeaf, run_bind_ok hread, run_bind_ok (run_get _), if_neg hb, run_bind_ok (run_set _ _), run_pure]
    rfl
  · exact (rpos_of_agrees ((frame_allocate _ (leafNode b 0)).parts .rpos (by simp))).trans hrpos

/-- R171: after the marker 1 a leaf's byte is read. -/
theorem deserializeNode_leafMarker (fuel : Nat) (p : Parse) (h : Upcoming s [true]) :
    deserializeNode (fuel + 1) p s = readLeaf p (s.setRpos (s.rpos + 1)) := by
  rw [deserializeNode, run_bind_ok (trieRead_of_upcoming 1#1 h)]
  rfl

/-- R171: after the marker 0 an entry is allocated, and its two children are read. -/
theorem deserializeNode_nodeMarker (h : Upcoming s [false]) (hni : p.ni ≠ Config.maxInternal)
    (hl : deserializeNode fuel { p with ni := p.ni + 1 } ((s.setRpos (s.rpos + 1)).allocate (internalNode 0 0 0)) =
      .ok (i, p1) v)
    (hr : deserializeNode fuel p1 (v.setLeft s.nnodes.toNat i) = .ok (j, p2) w) :
    deserializeNode (fuel + 1) p s = .ok (s.nnodes.toNat, p2) (w.setRight s.nnodes.toNat j) := by
  rw [deserializeNode, run_bind_ok (trieRead_of_upcoming 0#1 h), if_neg (by decide), run_bind_ok (run_get _),
    if_neg hni, run_bind_ok (run_set _ _), run_bind_ok hl]
  exact (run_bind_ok (run_modify _ v)).trans (run_bind_ok hr)

/-- R171, R178: `DeserializeNode` of a serialized trie whose symbols are new and distinct stores that trie. -/
theorem deserializeNode_ok (tr : Trie) (hp : ParseInv p s) (hfuel : tr.height < fuel)
    (hnodup : (tr.leaves.reverse ++ p.seen).Nodup) (hni : p.ni + tr.leaves.length ≤ Config.maxInternal + 1)
    (h : Upcoming s tr.bits) :
    ∃ q t, deserializeNode fuel p s = .ok (s.nnodes.toNat, q) t ∧ Parsed p s tr s.nnodes.toNat q t ∧
      t.rpos = s.rpos + tr.bits.length := by
  induction tr generalizing fuel p s with
  | leaf b =>
    obtain ⟨fuel, rfl⟩ : ∃ k, fuel = k + 1 := ⟨fuel - 1, by omega⟩
    have h' : Upcoming s ([true] ++ msbBits b) := h
    obtain ⟨q, t, hrun, hparsed, hrpos⟩ := readLeaf_ok (hp.of_agrees (setRpos_agrees_nodes s _))
      (by simpa using (List.nodup_cons.mp hnodup).1) h'.setRpos
    refine ⟨q, t, (deserializeNode_leafMarker fuel p h'.left).trans hrun,
      hparsed.of_agrees (setRpos_agrees_nodes s _), ?_⟩
    rw [hrpos, setRpos_rpos h'.left]
    simp only [Trie.bits, List.length_cons, List.length_nil, length_msbBits]
  | node l r ihl ihr =>
    have h' : Upcoming s ([false] ++ (l.bits ++ r.bits)) := h
    simp only [Trie.leaves, List.length_append, List.reverse_append, List.append_assoc, Trie.height] at hnodup hni hfuel
    have hlpos := l.height_lt_length_leaves
    have hrpos := r.height_lt_length_leaves
    have hroom : p.ni ≠ Config.maxInternal := by omega
    obtain ⟨fuel, rfl⟩ : ∃ k, fuel = k + 1 := ⟨fuel - 1, by omega⟩
    have hmark : (s.setRpos (s.rpos + 1)).rpos = s.rpos + 1 := setRpos_rpos h'.left
    have hu := hp.of_agrees (setRpos_agrees_nodes s (s.rpos + 1))
    have halloc := frame_allocate (s.setRpos (s.rpos + 1)) (internalNode 0 0 0)
    have hchildren := h'.setRpos.of_frame halloc
    have hstart := rpos_of_agrees (halloc.parts .rpos (by simp))
    generalize hx : (s.setRpos (s.rpos + 1)).allocate (internalNode 0 0 0) = x at *
    have hinv : ParseInv { p with ni := p.ni + 1 } x := hx ▸ (hu.internal hroom).2
    obtain ⟨p1, v, hrunl, hl, hvpos⟩ := ihl (fuel := fuel) hinv (by omega) hnodup.of_append_right (by simp only; omega)
      hchildren.left
    have hlni : p1.ni + 1 = p.ni + 1 + l.leaves.length := hl.ni
    have hlseen : p1.seen = l.leaves.reverse ++ p.seen := hl.seen
    have hset := frame_setLeft v s.nnodes.toNat x.nnodes.toNat
    have hvpos' := rpos_of_agrees (hset.parts .rpos (by simp))
    obtain ⟨p2, w, hrunr, hr, hwpos⟩ := ihr (fuel := fuel) (hl.inv.of_counts (by simp) (by simp)) (by omega)
      (hlseen ▸ hnodup) (by omega)
      ((hchildren.after ((keeps_deserializeNode _ _ _).ok hrunl).fixed hvpos).of_frame hset)
    have hwpos' (c : Nat) := rpos_of_agrees ((frame_setRight w s.nnodes.toNat c).parts .rpos (by simp))
    refine ⟨p2, _, deserializeNode_nodeMarker h'.left hroom (hx ▸ hrunl) hrunr,
      (Parsed.node hu hroom (hx ▸ hl) hr).of_agrees (setRpos_agrees_nodes s _), ?_⟩
    simp only [Trie.bits, List.length_cons, List.length_append, hwpos']
    omega

/-- R170, R178: the body of DESERIALIZE over a serialized trie with distinct symbols. -/
theorem deserializeBody_ok {tr : Trie} (hnodup : tr.leaves.Nodup) (h : Upcoming s tr.bits) :
    ∃ t, deserializeBody s = .ok () t ∧ t.rpos = s.rpos + tr.bits.length ∧ t.trie = some tr ∧ t.root = 0 ∧
      t.nnodes.toNat = 2 * tr.leaves.length - 1 ∧ t.nleaves.toNat = tr.leaves.length ∧ t.trieValid = true ∧
      t.codesValid = false := by
  have hdrop := frame_dropTrie s
  have hle := length_le_of_nodup hnodup
  have hheight := tr.height_lt_length_leaves
  have hstart : ParseInv { ni := 0, seen := [] } s.dropTrie :=
    ⟨Nat.zero_le _, List.nodup_nil, by simp, by simp⟩
  obtain ⟨q, t, hrun, hparsed, hrpos⟩ := deserializeNode_ok (fuel := Config.maxDepth) tr hstart
    (by simp only [Config.maxDepth]; omega) (by simpa using hnodup) (by simp only [Config.maxInternal]; omega)
    (h.of_frame hdrop)
  have hframe := (keeps_deserializeNode _ _ _).ok hrun
  have hinv : ParseInv q t := hparsed.inv
  have hseen : q.seen = tr.leaves.reverse := by simpa using hparsed.seen
  have hni : q.ni + 1 = tr.leaves.length := by simpa using hparsed.ni
  have hlen : q.seen.length = tr.leaves.length := by rw [hseen, List.length_reverse]
  have hstored : holdsTrie t.node 0 t.nnodes.toNat tr 0 := by simpa using hparsed.stored
  have hcodes : t.codesValid = s.dropTrie.codesValid := hframe.parts .codesValid (by simp)
  refine ⟨{ t with root := 0, trieValid := true }, ?_, ?_, ?_, rfl, ?_, hinv.nleaves.trans hlen, rfl, hcodes⟩
  · rw [deserializeBody_eq, run_bind_ok (run_modify _ s), readTrie, run_bind_ok hrun]
    rfl
  · exact hrpos.trans (by rw [rpos_of_agrees (hdrop.parts .rpos (by simp))])
  · exact trieAt_of_holdsTrie hstored (by simp only [Config.maxDepth]; omega)
  · exact hinv.nnodes.trans (by omega)

end

/-! ### DECODE of a sequence of codes -/

section
variable {s : State} {tr : Trie} {p : Byte × List Bool}

/-- R176: at an internal node the next bit names the child. -/
theorem walk_step (fuel : Nat) {i : Nat} {e : Node} {b : Bool} {c : List Bool} (he : s.node[i]? = some e)
    (hleaf : e.leaf = false) (h : Upcoming s (b :: c)) : walk (fuel + 1) i s =
      walk fuel (if b then e.right.toNat else e.left.toNat) (s.setRpos (s.rpos + 1)) := by
  have hb : Upcoming s (msbBits (BitVec.ofBool b)) := by rw [msbBits_ofBool]; exact h.left (l := [b])
  rw [walk, run_bind_ok (nodeAt_ok he), if_neg (by simp [hleaf]), run_bind_ok (readBits_of_upcoming _ hb)]
  cases b <;> rfl

/-- R176: the walk along a leaf's path ends at the leaf. -/
theorem walk_ok {depth fuel i : Nat} (htrie : trieAt s.node depth i = some tr) (hp : p ∈ tr.codes)
    (h : Upcoming s p.2) (hfuel : p.2.length < fuel) :
    ∃ e, walk fuel i s = .ok e (s.setRpos (s.rpos + p.2.length)) ∧ e.sym = p.1 := by
  induction depth generalizing s tr i p fuel with
  | zero => simp [trieAt] at htrie
  | succ depth ih =>
    obtain ⟨fuel, rfl⟩ : ∃ k, fuel = k + 1 := ⟨fuel - 1, by omega⟩
    obtain ⟨e, he, ⟨hleaf, rfl⟩ | ⟨hleaf, l, r, rfl, hl, hr⟩⟩ := trieAt_cases htrie
    · obtain rfl : p = (e.sym, []) := by simpa [Trie.codes] using hp
      exact ⟨e, by simp [walk, run_bind_ok (nodeAt_ok he), hleaf], rfl⟩
    · have child {b : Bool} {tr' : Trie} {q : Byte × List Bool} (hq : q ∈ tr'.codes) (h : Upcoming s (b :: q.2))
          (hfuel : (b :: q.2).length < fuel + 1)
          (htr' : trieAt s.node depth (if b then e.right.toNat else e.left.toNat) = some tr') :
          ∃ f, walk (fuel + 1) i s = .ok f (s.setRpos (s.rpos + (b :: q.2).length)) ∧ f.sym = q.1 := by
        have hpos : (s.setRpos (s.rpos + 1)).rpos = s.rpos + 1 := setRpos_rpos (h.left (l := [b]))
        obtain ⟨f, hrun, hsym⟩ := ih (s := s.setRpos (s.rpos + 1)) htr' hq (Upcoming.setRpos (l := [b]) h)
          (Nat.lt_of_succ_lt_succ hfuel)
        refine ⟨f, (walk_step fuel he hleaf h).trans (hrun.trans ?_), hsym⟩
        rw [hpos, setRpos_setRpos, List.length_cons, Nat.add_assoc, Nat.add_comm 1]
      simp only [Trie.codes, List.mem_append, List.mem_map] at hp
      obtain ⟨q, hq, rfl⟩ | ⟨q, hq, rfl⟩ := hp
      · exact child hq h hfuel hl
      · exact child hq h hfuel hr

theorem walkSymbol_ok (htrie : s.trie = some tr) (hp : p ∈ tr.codes) (h : Upcoming s p.2) :
    ∃ e, walkSymbol s = .ok e (s.setRpos (s.rpos + p.2.length)) ∧ e.sym = p.1 := by
  have hin := h.inside
  have hfuel : p.2.length < 8 * s.inputLength - s.rpos + 1 := by simp only [State.inputLength]; omega
  rw [walkSymbol, run_bind_ok (run_get s)]
  exact walk_ok htrie hp h hfuel

/-- R175: one pass of the decoding loop. -/
theorem decodeSymbols_step {rest : List Bool} (htrie : s.trie = some tr) (hp : p ∈ tr.codes)
    (h : Upcoming s (p.2 ++ rest)) (hroom : s.hasRoom 8) :
    ∃ t, (∀ n, decodeSymbols (n + 1) s = decodeSymbols n t) ∧ Frame [.rpos, .output, .decoded] s t ∧
      t.rpos = s.rpos + p.2.length ∧ t.dlen = s.dlen ∧ t.dcount = s.dcount + 1 ∧ appended s t (msbBits p.1) := by
  obtain ⟨e, hwalk, hsym⟩ := walkSymbol_ok htrie hp h.left
  have hread := frame_setRpos s (s.rpos + p.2.length)
  have hpos := setRpos_rpos h.left
  generalize s.setRpos (s.rpos + p.2.length) = u at hwalk hread hpos
  have hfit : u.hasRoom (msbBits p.1).length := by simpa using hasRoom_of_frame hread hroom
  have hwrite : writeBits p.1 u = .ok () (u.pushBits (msbBits p.1)) := writeBits_ok (by simpa using hfit)
  have hpush := (keeps_writeBits p.1 u).ok hwrite
  have happ := appended_pushBits hfit
  generalize u.pushBits (msbBits p.1) = v at hwrite hpush happ
  have hcount := frame_decoded v v.dlen (v.dcount + 1)
  obtain ⟨hdlen, hdcount⟩ : v.dlen = s.dlen ∧ v.dcount = s.dcount :=
    agrees_trans (hread.parts .decoded (by simp)) (hpush.parts .decoded (by simp))
  refine ⟨_, fun n => ?_, (hread.mono (by simp)).trans ((hpush.mono (by simp)).trans (hcount.mono (by simp))), ?_,
    hdlen, by rw [← hdcount], ?_⟩
  · rw [decodeSymbols, run_bind_ok hwalk, hsym, run_bind_ok hwrite, run_bind_ok (run_modify _ v)]
  · exact (rpos_of_agrees (hpush.parts .rpos (by simp))).trans hpos
  · simpa using appended_trans (appended_of_frame hread) (appended_trans happ (appended_of_frame hcount))

/-- R175: the decoding loop over the codes of a sequence of symbols. -/
theorem decodeSymbols_ok {ps : List (Byte × List Bool)} (htrie : s.trie = some tr) (hps : ∀ p ∈ ps, p ∈ tr.codes)
    (h : Upcoming s (ps.flatMap fun p => p.2)) (hroom : s.hasRoom (8 * ps.length)) :
    ∃ t, decodeSymbols ps.length s = .ok () t ∧ t.rpos = s.rpos + (ps.flatMap fun p => p.2).length ∧
      t.dlen = s.dlen ∧ t.dcount = s.dcount + BitVec.ofNat 32 ps.length ∧
      appended s t (ps.flatMap fun p => msbBits p.1) := by
  induction ps generalizing s with
  | nil => exact ⟨s, rfl, rfl, rfl, by simp, appended_of_frame (Frame.refl [] s)⟩
  | cons p ps ih =>
    simp only [List.flatMap_cons, List.length_cons] at h hroom ⊢
    obtain ⟨t, hstep, hframe, hrpos, hdlen, hdcount, happ⟩ := decodeSymbols_step htrie (hps p List.mem_cons_self) h
      (hasRoom_mono (by omega) hroom)
    have hrest : t.hasRoom (8 * ps.length) :=
      hasRoom_of_appended happ hframe.fixed.capOut_eq (by rwa [length_msbBits, Nat.add_comm, ← Nat.mul_succ])
    have htrie' : t.trie = some tr := (trie_of_agrees (hframe.parts .nodes (by simp))).trans htrie
    obtain ⟨u, hrun, hrpos', hdlen', hdcount', happ'⟩ := ih htrie'
      (fun q hq => hps q (List.mem_cons_of_mem _ hq)) (h.after hframe.fixed hrpos) hrest
    refine ⟨u, (hstep _).trans hrun, ?_, hdlen'.trans hdlen, ?_, appended_trans happ happ'⟩
    · rw [hrpos', hrpos, List.length_append, Nat.add_assoc]
    · rw [hdcount', hdcount, BitVec.add_assoc, BitVec.ofNat_add, BitVec.add_comm (BitVec.ofNat 32 ps.length)]
      rfl

end

/-! ### EXPAND -/

/-- A byte sequence is known by its bits. -/
theorem flatMap_msbBits_inj {l m : List Byte} (hlen : l.length = m.length)
    (h : l.flatMap msbBits = m.flatMap msbBits) : l = m := by
  induction l generalizing m with
  | nil => cases m <;> simp_all
  | cons b l ih =>
    cases m with
    | nil => simp at hlen
    | cons c m =>
      obtain ⟨hbits, hrest⟩ := List.append_inj h (by simp)
      have hbc : b = c := BitVec.eq_of_toNat_eq (by simpa using congrArg natOfBits hbits)
      rw [hbc, ih (by simpa using hlen) hrest]

@[simp] theorem length_outBytes (s : State) : s.outBytes.length = s.outLen.toNat := by simp [State.outBytes]

/-- R35, R62, R111: whole bytes written to an empty packer stand in OBUF from index 0, and no bit is pending. -/
theorem outBytes_of_appended {s t : State} {bs : List Byte} (hlen : s.outLen = 0) (hacc : s.wacc = 0)
    (hcnt : s.wcnt = 0) (h : appended s t (bs.flatMap msbBits)) :
    t.outLen.toNat = bs.length ∧ t.outBytes = bs ∧ t.wcnt = 0 ∧ t.wacc = 0 := by
  obtain ⟨hpacked, hpos, hclean, -⟩ := h
  have hbits : (bs.flatMap msbBits).length = 8 * bs.length := by
    simp [List.length_flatMap, Nat.mul_comm]
  have hwcnt : t.wcnt.toNat = 0 := by
    have := t.wcnt.isLt
    simp [hlen, hcnt, hbits] at hpos
    omega
  have hout : t.outLen.toNat = bs.length := by
    simp [hlen, hcnt, hbits] at hpos
    omega
  refine ⟨hout, flatMap_msbBits_inj (by simp [hout]) ?_, BitVec.eq_of_toNat_eq hwcnt, ?_⟩
  · simpa [State.packed, State.outBytes, hlen, hcnt, hwcnt] using hpacked
  · refine BitVec.eq_of_getLsbD_eq fun i hi => ?_
    rw [hclean (packerClean_of_wacc_zero hacc) i (by omega)]
    simp

/-- R180: EXPAND over a compressed unit, from RPOS and OUT_LEN as they are. -/
theorem expandUnit_ok {s : State} {tr : Trie} {n : Word} {ps : List (Byte × List Bool)} (hnodup : tr.leaves.Nodup)
    (hps : ∀ p ∈ ps, p ∈ tr.codes) (hcount : ps.length = n.toNat)
    (h : Upcoming s (tr.bits ++ (msbBits n ++ ps.flatMap fun p => p.2))) (hroom : s.hasRoom (8 * ps.length)) :
    ∃ t, expandUnit s = .ok () t ∧ t.rpos = s.rpos + (tr.bits ++ (msbBits n ++ ps.flatMap fun p => p.2)).length ∧
      t.trie = some tr ∧ t.root = 0 ∧ t.nnodes = BitVec.ofNat 10 (2 * tr.leaves.length - 1) ∧
      t.nleaves = BitVec.ofNat 9 tr.leaves.length ∧ t.trieValid = true ∧ t.codesValid = false ∧ t.dlen = n ∧
      t.dcount = n ∧ appended s t ((ps.map fun p => p.1).flatMap msbBits) := by
  have hzero := frame_decoded s 0 0
  obtain ⟨t, hparse, hrpos, htrie, hroot, hnnodes, hnleaves, htrieValid, hcodesValid⟩ :=
    deserializeBody_ok hnodup (h.of_frame hzero).left
  have hparsed := (keeps_deserializeBody _).ok hparse
  have hafter := (h.of_frame hzero).after hparsed.fixed hrpos
  have hread := frame_setRpos t (t.rpos + 32)
  have hcodes := Upcoming.setRpos hafter
  have hpos := setRpos_rpos hafter.left
  rw [length_msbBits] at hcodes hpos
  have hlen := readBits_of_upcoming n hafter.left
  generalize t.setRpos (t.rpos + 32) = u at hread hcodes hpos hlen
  have hsetLen := frame_decoded u n u.dcount
  have hbefore : Frame [.rpos, .decoded] t { u with dlen := n } :=
    (hread.mono (by simp)).trans (hsetLen.mono (by simp))
  have hroom' := hasRoom_of_frame hbefore (hasRoom_of_frame hparsed (hasRoom_of_frame hzero hroom))
  obtain ⟨w, hdecode, hwpos, hdlen, hdcount, happ⟩ := decodeSymbols_ok
    ((trie_of_agrees (hbefore.parts .nodes (by simp))).trans htrie) hps (hcodes.of_frame hsetLen) hroom'
  have hlast : Frame [.rpos, .output, .decoded] t w :=
    (hbefore.mono (by simp)).trans ((keeps_decodeSymbols _ _).ok hdecode)
  obtain ⟨-, hroot', hnnodes', hnleaves'⟩ := hlast.parts .nodes (by simp)
  have hdcount0 : u.dcount = 0 :=
    ((hread.parts .decoded (by simp)).2).trans (hparsed.parts .decoded (by simp)).2
  refine ⟨w, ?_, ?_, (trie_of_agrees (hlast.parts .nodes (by simp))).trans htrie, hroot'.trans hroot, ?_, ?_,
    (hlast.parts .trieValid (by simp)).trans htrieValid, (hlast.parts .codesValid (by simp)).trans hcodesValid, hdlen,
    ?_, ?_⟩
  · rw [expandUnit, run_bind_ok (run_modify _ s), run_bind_ok hparse, run_bind_ok hlen, run_bind_ok (run_modify _ u),
      ← hcount, hdecode]
  · have hstart := rpos_of_agrees (hzero.parts .rpos (by simp))
    have hsame := rpos_of_agrees (hsetLen.parts .rpos (by simp))
    simp only [List.length_append, length_msbBits]
    omega
  · rw [hnnodes', ← hnnodes, BitVec.ofNat_toNat, BitVec.setWidth_eq]
  · rw [hnleaves', ← hnleaves, BitVec.ofNat_toNat, BitVec.setWidth_eq]
  · rw [hdcount, hcount, BitVec.ofNat_toNat, BitVec.setWidth_eq]
    exact (congrArg (· + n) hdcount0).trans (BitVec.zero_add n)
  · have hquiet := appended_trans (appended_of_frame hzero) (appended_trans (appended_of_frame hparsed)
      (appended_of_frame hbefore))
    simpa [List.flatMap_map] using appended_trans hquiet happ

/-- R34: RPOS is known by its two registers. -/
theorem rpos_fields {s : State} {n : Nat} (h : s.rpos = n) :
    s.rposByte = BitVec.ofNat 32 (n / 8) ∧ s.rposBit = BitVec.ofNat 3 (n % 8) := by
  rw [← h]
  have hself := setRpos_rpos_self s
  exact ⟨(congrArg State.rposByte hself).symm, (congrArg State.rposBit hself).symm⟩

/-- Settles O38: DESERIALIZE stores the trie, the length is read, and each code is walked to its symbol. -/
theorem expandDecodesTheUnit : Obligations.ExpandDecodesTheUnit := by
  unfold Obligations.ExpandDecodesTheUnit
  intro s tr n ps bits hbits hnodup hps hcount hfit hcap hin hstream
  have hstart : Frame [.rpos, .output, .written] s (s.setRpos 0).resetPacker :=
    ((frame_setRpos s 0).mono (by simp)).trans ((frame_resetPacker _).mono (by simp))
  have hpos : ((s.setRpos 0).resetPacker).rpos = 0 := rfl
  rw [List.append_assoc] at hbits
  have hup : Upcoming (s.setRpos 0).resetPacker bits := by
    refine ⟨hcap, by rw [hpos]; simpa using hin, ?_⟩
    rw [hpos, streamBits_of_sameHostSide hstart.fixed]
    exact hstream
  have hroom : (s.setRpos 0).resetPacker.hasRoom (8 * ps.length) := by
    show 0 + (0 + 8 * ps.length) / 8 ≤ s.capOut.toNat
    omega
  obtain ⟨t, hrun, hrpos, htrie, hroot, hnnodes, hnleaves, htrieValid, hcodesValid, hdlen, hdcount, happ⟩ :=
    expandUnit_ok hnodup hps hcount (hbits ▸ hup) hroom
  rw [← hbits, hpos, Nat.zero_add] at hrpos
  have hframe := (keeps_expandUnit _).ok hrun
  obtain ⟨houtLen, houtBytes, hwcnt, hwacc⟩ := outBytes_of_appended rfl rfl rfl happ
  rw [List.length_map, hcount] at houtLen
  refine ⟨t.complete, (exec_eq_runCommand .expand s).trans (runCommand_of_ok hrun), ?_, htrie,
    BitVec.eq_of_toNat_eq houtLen, houtBytes, hwcnt, hwacc, fun a ha => ?_⟩
  · have hrest {p : Part} (hp : p ∉ [.rpos, .nodes, .trieValid, .codesValid, .output, .decoded, .written]) :
        s.agrees t p :=
      agrees_trans (hstart.parts p (by simp_all)) (hframe.parts p (by simp_all))
    refine congrArg State.complete (eq_of_agrees ?_ fun p hp => ?_)
    · obtain ⟨hhost, hstatus⟩ := hstart.fixed.trans hframe.fixed
      exact ⟨hhost, hstatus⟩
    cases p with
    | result => exact hrest (p := .result) (by simp)
    | freq => exact hrest (p := .freq) (by simp)
    | codes => exact hrest (p := .codes) (by simp)
    | haz => exact hrest (p := .haz) (by simp)
    | nodes => exact ⟨rfl, hroot, hnnodes, hnleaves⟩
    | trieValid => exact htrieValid
    | codesValid => exact hcodesValid
    | rpos => exact rpos_fields hrpos
    | decoded => exact ⟨hdlen, hdcount⟩
    | output => exact ⟨rfl, rfl, rfl, rfl⟩
    | written => exact absurd rfl hp
  · obtain ⟨-, -, -, hbyte⟩ := happ
    exact hbyte a (.inr (houtLen ▸ ha))

end Sys2Proof.Machine
end

section
/-! PROOFS. The HOST's accesses that the map of offsets does not decide alone: busy reads (R75, R241), misaligned
accesses (R69), and idle accesses to the buffers (R61, R62, R70). -/

namespace Sys2Proof.Machine

section
variable {s : State} {rest : List Event} {off : BitVec 16}

/-- R75: the reads that are exact while BUSY = 1. -/
theorem exactWhenBusy_eq_true_iff {x : Option Target} : exactWhenBusy x = true ↔
    x = some (.reg .status) ∨ x = some (.reg .id) ∨ x = some (.reg .capIn) ∨ x = some (.reg .capOut) := by
  cases x with
  | none => simp [exactWhenBusy]
  | some x =>
    cases x with
    | reg r => cases r <;> simp [exactWhenBusy]
    | _ => simp [exactWhenBusy]

/-- R75: a busy read of one of the four registers is exact. -/
theorem step_of_busy_exactRead (r : Reg) (hexact : exactWhenBusy (some (.reg r)) = true)
    (hoff : regOffset r = off.toNat) (h : s.schedule = .host (.regRead off) :: rest) :
    step s = .next { s with schedule := rest, portData := some (.word (s.readReg r)) } := by
  obtain ⟨-, halign, hat⟩ := targetAt_targetOffset (.reg r)
  have hx : targetOffset (.reg r) = off.toNat := hoff
  rw [hx] at halign hat
  rw [step_of_host h, State.hostAccess, State.regRead, if_neg (not_not_intro halign), hat, hexact, if_neg (by simp),
    readOffset_targetOffset _ hx, readTarget_schedule]
  rfl

/-- R241: any other busy aligned read gives the next unspecified word. -/
theorem step_of_busy_otherRead (hbusy : s.pending.isSome = true) (halign : off.toNat % 4 = 0)
    (hoff : off ∉ [0x004, 0x03C, 0x040, 0x044]) (h : s.schedule = .host (.regRead off) :: rest) :
    step s = .next
      { s with schedule := rest, portData := some (.word (Config.busyWord s.draws)), draws := s.draws + 1 } := by
  have hexact : exactWhenBusy (targetAt off.toNat) = false := by
    rw [← Bool.not_eq_true, exactWhenBusy_eq_true_iff]
    simp only [List.mem_cons, List.not_mem_nil, or_false, not_or, ← BitVec.toNat_inj] at hoff
    obtain ⟨hstatus, hid, hcapIn, hcapOut⟩ := hoff
    rintro (hat | hat | hat | hat)
    · exact hstatus (targetOffset_of_targetAt halign hat).symm
    · exact hid (targetOffset_of_targetAt halign hat).symm
    · exact hcapIn (targetOffset_of_targetAt halign hat).symm
    · exact hcapOut (targetOffset_of_targetAt halign hat).symm
  rw [step_of_host h, State.hostAccess, State.regRead, if_neg (not_not_intro halign), hexact,
    if_pos (by simpa using hbusy)]

/-- R75: a busy buffer read gives the next unspecified byte, whatever stands at its address. -/
theorem bufferRead_busy (b : Byte) (hbusy : s.pending.isSome = true) : s.bufferRead b =
    { s with portData := some (.byte (Config.busyByte s.draws)), draws := s.draws + 1 } := by
  rw [State.bufferRead, if_pos hbusy]

theorem bufferRead_idle (b : Byte) (hidle : s.pending = none) :
    s.bufferRead b = { s with portData := some (.byte b) } := by
  rw [State.bufferRead, if_neg (by simp [hidle])]

/-- R61: IBUF after a byte is stored. -/
theorem ibufByte_store (s : State) (a x : Nat) (b : Byte) :
    State.ibufByte { s with ibuf := Memory.store s.ibuf a b } x = if x = a then b else s.ibufByte x := by
  unfold State.ibufByte
  split
  case isTrue h => rw [h, Memory.lookup_store_same, Option.getD_some]
  case isFalse h => rw [Memory.lookup_store_other _ _ h]

/-- R61: an idle write below the capacity stores its byte. -/
theorem ibufWrite_idle {a : Nat} (b : Byte) (hidle : s.pending = none) (ha : a < s.capIn.toNat) :
    s.ibufWrite a b = { s with ibuf := Memory.store s.ibuf a b } := by
  rw [State.ibufWrite, if_pos ha, unlessBusy_idle _ hidle]

end

/-- Settles O52: the four exact registers by their offsets, every other read by its absence from them. -/
theorem busyReadIsExactOrUnspecified : Obligations.BusyReadIsExactOrUnspecified := by
  unfold Obligations.BusyReadIsExactOrUnspecified
  intro s rest hbusy
  refine ⟨fun off h halign => ⟨?_, ?_, ?_, ?_, fun hoff => step_of_busy_otherRead hbusy halign hoff h⟩, ?_⟩
  · rintro rfl
    exact step_of_busy_exactRead .status rfl rfl h
  · rintro rfl
    exact step_of_busy_exactRead .id rfl rfl h
  · rintro rfl
    exact step_of_busy_exactRead .capIn rfl rfl h
  · rintro rfl
    exact step_of_busy_exactRead .capOut rfl rfl h
  · rintro a (h | h)
    · exact (step_of_host h).trans (congrArg _ (bufferRead_busy (s := { s with schedule := rest }) _ hbusy))
    · exact (step_of_host h).trans (congrArg _ (bufferRead_busy (s := { s with schedule := rest }) _ hbusy))

/-- Settles O53: the test of alignment comes first in a read and in a write. -/
theorem misalignedAccessSetsHaz : Obligations.MisalignedAccessSetsHaz := by
  unfold Obligations.MisalignedAccessSetsHaz
  intro s rest off v hoff
  refine ⟨fun h => ?_, fun h => ?_⟩
  · rw [step_of_host h, State.hostAccess, State.regRead, if_pos hoff]
    rfl
  · rw [step_of_host h, State.hostAccess, State.regWrite, if_pos hoff]
    rfl

/-- Settles O58: a write below the capacity and past it, and the two reads. -/
theorem idleBufferAccess : Obligations.IdleBufferAccess := by
  unfold Obligations.IdleBufferAccess
  intro s rest a b hidle
  refine ⟨fun h ha => ?_, fun h ha => ?_, fun h => ?_, fun h => ?_⟩
  · exact ⟨_, (step_of_host h).trans (congrArg _ (ibufWrite_idle (s := { s with schedule := rest }) b hidle ha)), rfl,
      fun x => ibufByte_store s a x b⟩
  · rw [step_of_host h, State.hostAccess, State.ibufWrite, if_neg (Nat.not_lt.mpr ha)]
  · exact (step_of_host h).trans (congrArg _ (bufferRead_idle (s := { s with schedule := rest }) _ hidle))
  · exact (step_of_host h).trans (congrArg _ (bufferRead_idle (s := { s with schedule := rest }) _ hidle))

end Sys2Proof.Machine
end

section
/-! PROOFS. The encoder's writes (R101, R145, R146, R150): a body that writes a bit sequence field by field writes all
of it where it fits, and otherwise raises OUTPUT_OVERFLOW with the fields before the one that does not fit kept (R207). -/

namespace Sys2Proof.Machine

open Sys2Proof.Claims

/-- From s, x writes these bits where they fit in OBUF (R101); where they do not it raises OUTPUT_OVERFLOW, with a part
of them written that does fit (R203, R207). -/
def Emits (x : Engine PUnit) (s : State) (bits : List Bool) : Prop :=
  (s.hasRoom bits.length ∧ x s = .ok ⟨⟩ (s.pushBits bits)) ∨
  (¬s.hasRoom bits.length ∧ ∃ kept, kept <+: bits ∧ s.hasRoom kept.length ∧
    x s = .error (.error .outputOverflow 0 (s.pushBits kept).outLen) (s.pushBits kept))

section
variable {x y : Engine PUnit} {s : State} {l m : List Bool}

/-- After l the rest fits exactly where both fit together. -/
theorem hasRoom_append_iff (h : s.hasRoom l.length) :
    s.hasRoom (l ++ m).length ↔ (s.pushBits l).hasRoom m.length := by
  obtain ⟨-, hpos, -⟩ := appended_pushBits h
  have hcap : (s.pushBits l).capOut = s.capOut := by rw [pushBits_frame]; rfl
  have := (s.pushBits l).wcnt.isLt
  simp only [State.hasRoom, hcap, List.length_append]
  omega

theorem hasRoom_zero_pushBits (h : s.hasRoom l.length) : (s.pushBits l).hasRoom 0 :=
  (hasRoom_append_iff (m := []) h).mp (by simpa using h)

theorem emits_congr (h : x s = y s) : Emits x s l ↔ Emits y s l := by
  rw [Emits, Emits, h]

theorem emits_pure (h : s.hasRoom 0) : Emits (pure ⟨⟩) s [] := .inl ⟨h, rfl⟩

/-- R101: `WriteBits` has no partial effect. -/
theorem emits_writeBits {n : Nat} (v : BitVec n) (h : s.hasRoom 0) : Emits (writeBits v) s (msbBits v) := by
  obtain ⟨hroom, hrun⟩ | ⟨hroom, hrun⟩ := writeBits_cases v s
  · exact .inl ⟨by simpa using hroom, hrun⟩
  · exact .inr ⟨by simpa using hroom, [], List.nil_prefix, h, hrun⟩

/-- What two statements write, one after the other. -/
theorem Emits.bind (hx : Emits x s l) (hy : s.hasRoom l.length → Emits y (s.pushBits l) m) :
    Emits (x >>= fun _ => y) s (l ++ m) := by
  obtain ⟨hroom, hrun⟩ | ⟨hroom, kept, hkept, hfit, hrun⟩ := hx
  · have hiff : s.hasRoom (l ++ m).length ↔ (s.pushBits l).hasRoom m.length := hasRoom_append_iff hroom
    obtain ⟨hroom', hrun'⟩ | ⟨hroom', kept, hkept, hfit, hrun'⟩ := hy hroom
    · exact .inl ⟨hiff.mpr hroom', by rw [run_bind_ok hrun, hrun', pushBits_append]⟩
    · refine .inr ⟨mt hiff.mp hroom', l ++ kept, (List.prefix_append_right_inj l).mpr hkept,
        (hasRoom_append_iff hroom).mpr hfit, ?_⟩
      rw [run_bind_ok hrun, hrun', pushBits_append]
  · refine .inr ⟨fun h => hroom (hasRoom_mono (by simp) h), kept, hkept.trans (List.prefix_append l m), hfit, ?_⟩
    rw [run_bind_error hrun]

/-- What a loop writes, if each pass writes its part after any others. -/
theorem emits_forM {ι : Type} {f : ι → Engine PUnit} {g : ι → List Bool} (is : List ι) (h0 : s.hasRoom 0)
    (h : ∀ i ∈ is, ∀ l, s.hasRoom l.length → Emits (f i) (s.pushBits l) (g i)) :
    Emits (is.forM f) s (is.flatMap g) := by
  induction is generalizing s with
  | nil => exact emits_pure h0
  | cons i is ih =>
    rw [List.forM_eq_forM, List.forM_cons, List.flatMap_cons, ← List.forM_eq_forM]
    refine (h i List.mem_cons_self [] h0).bind fun hroom => ?_
    refine ih (hasRoom_zero_pushBits hroom) fun j hj l hl => ?_
    rw [pushBits_nil, ← pushBits_append]
    exact h j (List.mem_cons_of_mem _ hj) _ ((hasRoom_append_iff hroom).mpr hl)

end

/-! ### SERIALIZE -/

section
variable {s : State} {tr : Trie}

theorem node_pushBits (s : State) (l : List Bool) : (s.pushBits l).node = s.node := by rw [pushBits_frame]; rfl

/-- R146: `SerializeNode` writes the trie in pre-order. -/
theorem emits_serializeNode {fuel i : Nat} (h : trieAt s.node fuel i = some tr) (h0 : s.hasRoom 0) :
    Emits (serializeNode fuel i) s tr.bits := by
  induction fuel generalizing s i tr with
  | zero => simp [trieAt] at h
  | succ fuel ih =>
    obtain ⟨e, he, ⟨hleaf, rfl⟩ | ⟨hleaf, l, r, rfl, hl, hr⟩⟩ := trieAt_cases h
    · have hrun : serializeNode (fuel + 1) i s = (writeBits 1#1 >>= fun _ => writeBits e.sym) s := by
        rw [serializeNode, run_bind_ok (nodeAt_ok he), if_pos hleaf]
      exact (emits_congr hrun).mpr <| (emits_writeBits 1#1 h0).bind fun hroom =>
        emits_writeBits e.sym (hasRoom_zero_pushBits hroom)
    · have hrun : serializeNode (fuel + 1) i s = (writeBits 0#1 >>= fun _ =>
          serializeNode fuel e.left.toNat >>= fun _ => serializeNode fuel e.right.toNat) s := by
        rw [serializeNode, run_bind_ok (nodeAt_ok he), if_neg (by simp [hleaf])]
      refine (emits_congr hrun).mpr <| (emits_writeBits 0#1 h0).bind fun hroom => ?_
      refine (ih ((node_pushBits _ _).symm ▸ hl) (hasRoom_zero_pushBits hroom)).bind fun hroom' => ?_
      refine ih ?_ (hasRoom_zero_pushBits hroom')
      rw [node_pushBits, node_pushBits]
      exact hr

theorem emits_serializeBody (h : s.trie = some tr) (h0 : s.hasRoom 0) : Emits serializeBody s tr.bits :=
  (emits_congr (run_bind_ok (run_get s))).mpr (emits_serializeNode h h0)

/-- R66: a trie of r leaves takes 10r - 1 bits. -/
theorem Trie.length_bits (tr : Trie) : tr.bits.length + 1 = 10 * tr.leaves.length := by
  induction tr with
  | leaf b => simp [Trie.bits, Trie.leaves]
  | node l r hl hr => simp only [Trie.bits, Trie.leaves, List.length_cons, List.length_append]; omega

/-! ### ENCODE -/

theorem code_pushBits (s : State) (l : List Bool) (b : Byte) : (s.pushBits l).code b = s.code b := by
  rw [pushBits_frame]; rfl

@[simp] theorem length_code (s : State) (b : Byte) : (s.code b).length = (s.codeLenOf b).len.toNat := by
  simp [State.code]

/-- R150: one pass writes the code of its input byte. -/
theorem emits_encodeByte {i : Nat} (hi : i < s.capIn.toNat) (hcode : (s.codeLenOf (s.ibufByte i)).present = true)
    (h0 : s.hasRoom 0) : Emits (encodeByte i) s (s.code (s.ibufByte i)) := by
  have hrun : encodeByte i s = ((s.code (s.ibufByte i)).forM fun bit => writeBits (BitVec.ofBool bit)) s := by
    rw [encodeByte, run_bind_ok (ibufRead_ok hi), run_bind_ok (run_get s), if_pos hcode]
  have hbits := emits_forM (f := fun bit => writeBits (BitVec.ofBool bit)) (g := fun bit => [bit])
    (s.code (s.ibufByte i)) h0 fun bit _ l hl => by
      simpa only [msbBits_ofBool] using emits_writeBits (BitVec.ofBool bit) (hasRoom_zero_pushBits hl)
  rw [List.flatMap_singleton'] at hbits
  exact (emits_congr hrun).mpr hbits

/-- R150: ENCODE writes the codes of the input bytes in order. -/
theorem emits_encodeBody (hcap : s.inLen.toNat ≤ s.capIn.toNat)
    (hcode : ∀ b ∈ s.inBytes, (s.codeLenOf b).present = true) (h0 : s.hasRoom 0) :
    Emits encodeBody s (s.inBytes.flatMap s.code) := by
  refine (emits_congr (run_bind_ok (run_get s))).mpr ?_
  rw [State.inBytes, List.flatMap_map]
  refine emits_forM _ h0 fun i hi l hl => ?_
  have hi' : i < s.inLen.toNat := List.mem_range.mp hi
  have hpresent := hcode (s.ibufByte i) (List.mem_map_of_mem hi)
  have hbyte : (s.pushBits l).ibufByte i = s.ibufByte i := by rw [pushBits_frame]; rfl
  have hemit : Emits (encodeByte i) (s.pushBits l) _ :=
    emits_encodeByte (by rw [pushBits_frame]; exact hi'.trans_le hcap) (by rw [pushBits_frame]; exact hpresent)
      (hasRoom_zero_pushBits hl)
  rwa [hbyte, code_pushBits] at hemit

end

/-! ### FLUSH behind a whole unit -/

section
variable {s t : State} {bits : List Bool}

/-- R35: the accumulator is its pending bits, then zeros. -/
theorem msbBits_wacc (h : s.packerClean) :
    msbBits s.wacc = (msbBits s.wacc).take s.wcnt.toNat ++ List.replicate (8 - s.wcnt.toNat) false := by
  conv_lhs => rw [← List.take_append_drop s.wcnt.toNat (msbBits s.wacc)]
  congr 1
  refine List.ext_getElem (by simp) fun i hi _ => ?_
  have hi' : i < 8 - s.wcnt.toNat := by simpa using hi
  have hbit := h (7 - (s.wcnt.toNat + i)) (by omega)
  simpa [msbBits, BitVec.getMsbD_eq_getLsbD, show s.wcnt.toNat + i < 8 by omega] using hbit

/-- R102, R111: bits written to an empty packer and flushed stand in OBUF from index 0, with a zero pad to a byte. -/
theorem flushBits_ok (hlen : s.outLen = 0) (hacc : s.wacc = 0) (hcnt : s.wcnt = 0) (h : appended s t bits)
    (hfit : bits.length ≤ 8 * t.capOut.toNat) :
    ∃ u, flushBits t = .ok ⟨⟩ u ∧ u = t.withPackerOf u ∧ u.outLen.toNat = (bits.length + 7) / 8 ∧
      u.outBytes.flatMap msbBits = bits ++ List.replicate ((8 - bits.length % 8) % 8) false ∧
      u.wcnt = 0 ∧ u.wacc = 0 := by
  obtain ⟨hpacked, hpos, hclean, -⟩ := h
  have hclean' := hclean (packerClean_of_wacc_zero hacc)
  have hw := t.wcnt.isLt
  have hcap := t.capOut.isLt
  replace hpos : 8 * t.outLen.toNat + t.wcnt.toNat = bits.length := by simpa [hlen, hcnt] using hpos
  replace hpacked : t.outBytes.flatMap msbBits ++ (msbBits t.wacc).take t.wcnt.toNat = bits := by
    simpa [State.packed, State.outBytes, hlen, hcnt] using hpacked
  obtain ⟨hzero, hrun⟩ | ⟨hne, hfull, -⟩ | ⟨hne, -, hrun⟩ := flushBits_cases t
  · have hzero' : t.wcnt.toNat = 0 := by rw [hzero]; rfl
    refine ⟨t, hrun, rfl, by omega, ?_, hzero, ?_⟩
    · rw [show (8 - bits.length % 8) % 8 = 0 by omega]
      simpa [hzero'] using hpacked
    · exact BitVec.eq_of_getLsbD_eq fun i hi => by rw [hclean' i (by omega)]; simp
  · have hne' : t.wcnt.toNat ≠ 0 := fun h => hne (BitVec.eq_of_toNat_eq h)
    have : t.outLen.toNat = t.capOut.toNat := by rw [hfull]
    omega
  · have hne' : t.wcnt.toNat ≠ 0 := fun h => hne (BitVec.eq_of_toNat_eq h)
    refine ⟨t.emitByte t.wacc, hrun, rfl, ?_, ?_, by simp, by simp⟩
    · rw [emitByte_outLen _ (by omega)]
      omega
    · rw [outBytes_emitByte _ (by omega), List.flatMap_append, List.flatMap_singleton, msbBits_wacc hclean',
        ← List.append_assoc, hpacked, show (8 - bits.length % 8) % 8 = 8 - t.wcnt.toNat by omega]

/-- R102: where the pad's byte does not fit, `FlushBits` raises OUTPUT_OVERFLOW and changes nothing. -/
theorem flushBits_overflow (hlen : s.outLen = 0) (hcnt : s.wcnt = 0) (h : appended s t bits)
    (hle : t.outLen.toNat ≤ t.capOut.toNat) (hover : 8 * t.capOut.toNat < bits.length) :
    flushBits t = .error (.error .outputOverflow 0 t.outLen) t := by
  obtain ⟨-, hpos, -⟩ := h
  have hw := t.wcnt.isLt
  replace hpos : 8 * t.outLen.toNat + t.wcnt.toNat = bits.length := by simpa [hlen, hcnt] using hpos
  have hne : t.wcnt ≠ 0 := fun h => by
    have : t.wcnt.toNat = 0 := by rw [h]; rfl
    omega
  have hfull : t.outLen = t.capOut := BitVec.eq_of_toNat_eq (by omega)
  obtain ⟨hzero, -⟩ | ⟨-, -, hrun⟩ | ⟨-, hroom, -⟩ := flushBits_cases t
  · exact absurd hzero hne
  · exact hrun
  · exact absurd hfull hroom

end

end Sys2Proof.Machine
end

section
/-! PROOFS. TABULATE, BUILD and DERIVE as COMPRESS runs them (R155): they read and write neither DONE, PENDING nor the
output, so that they leave the same tables whether they run as commands of their own or inside COMPRESS. -/

namespace Sys2Proof.Machine

open Sys2Proof.Claims

/-! ### Bodies blind to the output -/

/-- s with DONE, PENDING and the output of p: what the end of a command and the start of COMPRESS change (R155,
R206). -/
def State.withSideOf (s p : State) : State := { s.withPackerOf p with done := p.done, pending := p.pending }

theorem complete_eq_withSideOf (s : State) : s.complete = s.withSideOf s.complete := rfl

theorem resetPacker_eq_withSideOf (s : State) : s.resetPacker = s.withSideOf s.resetPacker := rfl

section
variable {α β : Type}

/-- Where x ends well, it does so with any DONE, PENDING and output, and leaves them alone. -/
def Blind (x : Engine α) : Prop :=
  ∀ (s p t : State) (a : α), x s = .ok a t → x (s.withSideOf p) = .ok a (t.withSideOf p)

theorem blind_pure (a : α) : Blind (pure a : Engine α) := by
  rintro s p t b h
  cases h
  rfl

theorem blind_raise (e : ErrCode) (sub : BitVec 4) (info : Word) : Blind (raise e sub info : Engine α) := by
  rintro s p t a h
  cases h

theorem blind_stop (f : Fault) : Blind (stop f : Engine α) := by
  rintro s p t a h
  cases h

theorem blind_modify {f : State → State} (h : ∀ s p : State, f (s.withSideOf p) = (f s).withSideOf p) :
    Blind (modify f : Engine PUnit) := by
  rintro s p t a hrun
  cases hrun
  exact congrArg _ (h s p)

theorem Blind.bind {x : Engine α} {k : α → Engine β} (hx : Blind x) (hk : ∀ a, Blind (k a)) : Blind (x >>= k) := by
  intro s p u b h
  obtain ⟨a, t, hrun, hrest⟩ := bind_ok_inv h
  rw [run_bind_ok (hx s p t a hrun), hk a t p u b hrest]

/-- A read of the state whose use depends on nothing else. -/
theorem blind_get_bind {k : State → Engine β} (hk : ∀ s p : State, k (s.withSideOf p) = k s)
    (h : ∀ s, Blind (k s)) : Blind (get >>= k) := by
  intro s p t b hrun
  rw [run_bind_ok (run_get _), hk]
  exact h s s p t b hrun

theorem Blind.ite {c : Prop} [Decidable c] {x y : Engine α} (hx : Blind x) (hy : Blind y) :
    Blind (if c then x else y) := by
  split
  · exact hx
  · exact hy

theorem blind_forM {ι : Type} {f : ι → Engine PUnit} (h : ∀ i, Blind (f i)) (l : List ι) : Blind (l.forM f) := by
  induction l with
  | nil => exact blind_pure _
  | cons i l ih => exact (h i).bind fun _ => ih

theorem blind_foldlM {ι : Type} {f : β → ι → Engine β} (h : ∀ b i, Blind (f b i)) (l : List ι) (b : β) :
    Blind (l.foldlM f b) := by
  induction l generalizing b with
  | nil => exact blind_pure b
  | cons i l ih =>
    rw [List.foldlM_cons]
    exact (h b i).bind ih

end

theorem setNode_withSideOf (s p : State) (i : Nat) (e : Node) :
    (s.withSideOf p).setNode i e = (s.setNode i e).withSideOf p := by
  unfold State.setNode State.updateNode
  split <;> rfl

theorem blind_tabulateBody : Blind tabulateBody :=
  (blind_modify fun _ _ => rfl).bind fun _ => blind_get_bind (fun _ _ => rfl) fun _ =>
    (blind_forM (fun _ => (blind_get_bind (fun _ _ => rfl) fun _ => (blind_pure _).ite (blind_stop _)).bind fun _ =>
      blind_modify fun _ _ => rfl) _).bind fun _ => blind_modify fun _ _ => rfl

theorem blind_seedLeaf (pq : List Entry) (b : Byte) : Blind (seedLeaf pq b) := by
  intro s p t a h
  rw [seedLeaf_run] at h ⊢
  cases h
  rw [setNode_withSideOf]
  rfl

theorem blind_mergeLoop (fuel : Nat) (pq : List Entry) (n : Nat) : Blind (mergeLoop fuel pq n) := by
  induction fuel generalizing pq n with
  | zero => exact blind_pure n
  | succ fuel ih =>
    unfold mergeLoop
    split
    · exact blind_pure n
    · split
      · exact blind_pure n
      · exact (blind_modify fun s p => setNode_withSideOf s p _ _).bind fun _ => ih _ _

theorem blind_buildBody : Blind buildBody :=
  (blind_modify fun _ _ => rfl).bind fun _ => blind_get_bind (fun _ _ => rfl) fun _ =>
    (blind_foldlM blind_seedLeaf _ _).bind fun _ => (blind_raise _ _ _).ite <|
      (blind_mergeLoop _ _ _).bind fun _ => blind_modify fun _ _ => rfl

theorem blind_visit (fuel i : Nat) (c : List Bool) : Blind (visit fuel i c) := by
  induction fuel generalizing i c with
  | zero => exact blind_stop _
  | succ fuel ih =>
    refine (blind_get_bind (fun _ _ => rfl) fun s => ?_).bind fun e =>
      (blind_modify fun _ _ => rfl).ite ((ih _ _).bind fun _ => ih _ _)
    split
    · exact blind_pure _
    · exact blind_stop _

theorem blind_deriveBody : Blind deriveBody :=
  (blind_modify fun _ _ => rfl).bind fun _ => (blind_modify fun _ _ => rfl).bind fun _ =>
    blind_get_bind (fun _ _ => rfl) fun _ => (blind_visit _ _ _).bind fun _ => blind_modify fun _ _ => rfl

/-! ### The tables of an input -/

section
variable {s : State}

theorem ibufByte_setFreq (s : State) (b : Byte) (v : Word) : (s.setFreq b v).ibufByte = s.ibufByte := rfl

/-- R131: the counting loop adds to each FREQ word how often its byte value was read. -/
theorem countLoop_ok (l : List Nat) (h : ∀ i ∈ l, i < s.capIn.toNat) : ∃ t, l.forM countByte s = .ok ⟨⟩ t ∧
    ∀ b, t.freqOf b = s.freqOf b + BitVec.ofNat 32 ((l.map s.ibufByte).count b) := by
  induction l generalizing s with
  | nil => exact ⟨s, rfl, by simp⟩
  | cons i l ih =>
    have hrun : countByte i s = .ok ⟨⟩ (s.setFreq (s.ibufByte i) (s.freqOf (s.ibufByte i) + 1)) := by
      rw [countByte, run_bind_ok (ibufRead_ok (h i List.mem_cons_self)), run_modify]
    obtain ⟨t, hrest, hcount⟩ := ih (s := s.setFreq (s.ibufByte i) (s.freqOf (s.ibufByte i) + 1))
      fun j hj => h j (List.mem_cons_of_mem _ hj)
    refine ⟨t, ?_, fun b => ?_⟩
    · rw [List.forM_eq_forM, List.forM_cons, run_bind_ok hrun]
      exact hrest
    · rw [hcount, ibufByte_setFreq, freqOf_setFreq, List.map_cons, List.count_cons]
      obtain rfl | hne := eq_or_ne b (s.ibufByte i)
      · simp [BitVec.ofNat_add, BitVec.add_assoc, BitVec.add_comm 1#32]
      · simp [hne, Ne.symm hne]

/-- R131: TABULATE's counts are those of the input, and none wraps. -/
theorem tabulateBody_ok (hcap : s.inLen.toNat ≤ s.capIn.toNat) : ∃ t, tabulateBody s = .ok () t ∧ t.freqValid = true ∧
    ∀ b, (t.freqOf b).toNat = s.inBytes.count b := by
  obtain ⟨t, hrun, hcount⟩ := countLoop_ok (s := s.clearFreq) (List.range s.inLen.toNat)
    fun i hi => (List.mem_range.mp hi).trans_le hcap
  refine ⟨{ t with freqValid := true }, ?_, rfl, fun b => ?_⟩
  · rw [tabulateBody, run_bind_ok (run_modify _ s), run_bind_ok (run_get _)]
    exact run_bind_ok hrun
  · have hle : s.inBytes.count b < 2 ^ 32 := by
      refine List.count_le_length.trans_lt ?_
      simpa [State.inBytes] using s.inLen.isLt
    have hb : t.freqOf b = BitVec.ofNat 32 (s.inBytes.count b) := by
      rw [hcount, freqOf_clearFreq]
      exact BitVec.zero_add _
    exact (congrArg BitVec.toNat hb).trans (Nat.mod_eq_of_lt hle)

theorem mem_presentBytes_iff (b : Byte) : b ∈ s.presentBytes ↔ (s.freqOf b).toNat ≠ 0 := by
  simp [State.presentBytes, mem_allBytes, ← BitVec.toNat_inj]

/-- R131 to R142: TABULATE, BUILD and DERIVE over a non-empty input leave its counts, a trie of its byte values and the
codes of that trie, and change nothing else. -/
theorem tables_ok (hne : s.inLen ≠ 0) (hcap : s.inLen.toNat ≤ s.capIn.toNat) : ∃ u v w tr,
    tabulateBody s = .ok () u ∧ buildBody u = .ok () v ∧ deriveBody v = .ok () w ∧ u.freqValid = true ∧
      v.trieValid = true ∧ w = tablesOf s w ∧ (∀ b, (w.freqOf b).toNat = s.inBytes.count b) ∧ w.trie = some tr ∧
      tr.leaves.Nodup ∧ (∀ b, b ∈ tr.leaves ↔ b ∈ s.inBytes) ∧ w.holdsCodes tr := by
  obtain ⟨u, htab, hfreqValid, hcount⟩ := tabulateBody_ok hcap
  have hpresent (b : Byte) : b ∈ u.dropTrie.presentBytes ↔ b ∈ s.inBytes := by
    rw [mem_presentBytes_iff, show u.dropTrie.freqOf b = u.freqOf b from rfl, hcount, ← Nat.pos_iff_ne_zero,
      List.count_pos_iff]
  have hsome : u.dropTrie.presentBytes ≠ [] := by
    have hlen : 0 < s.inLen.toNat := Nat.pos_of_ne_zero fun h => hne (BitVec.eq_of_toNat_eq h)
    exact List.ne_nil_of_mem ((hpresent (s.ibufByte 0)).mpr (List.mem_map_of_mem (List.mem_range.mpr hlen)))
  obtain ⟨v, tr, hbuild, htrieValid, htrie, hperm⟩ := buildTrie_ok hsome
  have hnodup : tr.leaves.Nodup := hperm.nodup_iff.mpr (nodup_presentBytes _)
  have hbuild' : buildBody u = .ok () v := by rw [buildBody_eq, run_bind_ok (run_modify _ u), hbuild]
  obtain ⟨w, hderive, hw, hcodes⟩ := deriveBody_ok htrie.trie hnodup
  have htabFrame := (keeps_tabulateBody s).ok htab
  have hbuildFrame := (keeps_buildBody u).ok hbuild'
  have hderiveFrame := (keeps_deriveBody v).ok hderive
  have hfreq : u.agrees w .freq := agrees_trans (hbuildFrame.parts .freq (by simp)) (hderiveFrame.parts .freq (by simp))
  refine ⟨u, v, w, tr, htab, hbuild', hderive, hfreqValid, htrieValid, ?_, fun b => ?_, ?_, hnodup, fun b => ?_, hcodes⟩
  · have hframe : Frame [.freq, .nodes, .trieValid, .codes, .codesValid] s w :=
      (htabFrame.mono (by simp)).trans ((hbuildFrame.mono (by simp)).trans (hderiveFrame.mono (by simp)))
    refine eq_of_agrees ⟨hframe.fixed.host, hframe.fixed.status⟩ fun p hp => ?_
    cases p with
    | freq => exact ⟨rfl, hfreq.2.trans hfreqValid⟩
    | nodes => exact ⟨rfl, rfl, rfl, rfl⟩
    | trieValid => exact Eq.trans (hderiveFrame.parts .trieValid (by simp)) htrieValid
    | codes => exact ⟨rfl, rfl⟩
    | codesValid => rw [hw]; rfl
    | result => exact hframe.parts .result (by simp)
    | rpos => exact hframe.parts .rpos (by simp)
    | decoded => exact hframe.parts .decoded (by simp)
    | haz => exact hframe.parts .haz (by simp)
    | output => exact hframe.parts .output (by simp)
    | written => exact absurd rfl hp
  · rw [← hcount, State.freqOf, State.freqOf]
    simp only [hfreq.1]
  · exact (trie_of_agrees (hderiveFrame.parts .nodes (by simp))).trans htrie.trie
  · rw [hperm.mem_iff, hpresent]

end

/-! ### COMPRESS -/

/-- R155, R66: COMPRESS behind its tables: the trie, the length and the codes, and the flush. -/
def writeUnit (inLen : Word) : Engine Unit := do
  serializeBody
  writeBits inLen
  encodeBody
  flushBits

section
variable {s : State} {tr : Trie}

/-- R140: each leaf's symbol has a code. -/
theorem present_of_mem_leaves (hcodes : s.holdsCodes tr) {b : Byte} (h : b ∈ tr.leaves) :
    (s.codeLenOf b).present = true := by
  obtain ⟨⟨_, c⟩, hmem, rfl⟩ := List.mem_map.mp (show b ∈ tr.codes.map Prod.fst by rwa [map_fst_codes])
  obtain ⟨hpresent, -⟩ := hcodes.1 _ c hmem
  exact hpresent

/-- R66: the three parts of a unit, before the flush. -/
theorem emits_unit (hcap : s.inLen.toNat ≤ s.capIn.toNat) (htrie : s.trie = some tr) (hcodes : s.holdsCodes tr)
    (hmem : ∀ b ∈ s.inBytes, b ∈ tr.leaves) (h0 : s.hasRoom 0) :
    Emits (do serializeBody; writeBits s.inLen; encodeBody) s
      (tr.bits ++ (msbBits s.inLen ++ s.inBytes.flatMap s.code)) := by
  refine (emits_serializeBody htrie h0).bind fun hroom => ?_
  refine (emits_writeBits s.inLen (hasRoom_zero_pushBits hroom)).bind fun hroom' => ?_
  rw [← pushBits_append]
  generalize hl : tr.bits ++ msbBits s.inLen = l
  have hroom'' : s.hasRoom l.length := hl ▸ (hasRoom_append_iff hroom).mpr hroom'
  have hin : (s.pushBits l).inBytes = s.inBytes := by rw [pushBits_frame]; rfl
  have hcode : (s.pushBits l).code = s.code := funext fun b => code_pushBits s l b
  have hpresent : ∀ b ∈ (s.pushBits l).inBytes, ((s.pushBits l).codeLenOf b).present = true := fun b hb => by
    rw [pushBits_frame]
    exact present_of_mem_leaves hcodes (hmem b (hin ▸ hb))
  have hemit : Emits encodeBody (s.pushBits l) _ :=
    emits_encodeBody (by rw [pushBits_frame]; exact hcap) hpresent (hasRoom_zero_pushBits hroom'')
  rwa [hin, hcode] at hemit

theorem writeUnit_eq (inLen : Word) :
    writeUnit inLen = (do serializeBody; writeBits inLen; encodeBody) >>= fun _ => flushBits := by
  simp only [writeUnit, bind_assoc]

/-- R111: an empty packer holds no bit. -/
theorem packed_of_empty (hlen : s.outLen = 0) (hcnt : s.wcnt = 0) : s.packed = [] := by
  simp [State.packed, State.outBytes, hlen, hcnt]

/-- R102, R155: a unit written to an empty packer stands in OBUF from index 0 where it fits, zero pad to a byte; where
it does not, COMPRESS stops with OUTPUT_OVERFLOW and a part of it. -/
theorem writeUnit_cases {bits : List Bool} (hcap : s.inLen.toNat ≤ s.capIn.toNat) (htrie : s.trie = some tr)
    (hcodes : s.holdsCodes tr) (hmem : ∀ b ∈ s.inBytes, b ∈ tr.leaves) (hlen : s.outLen = 0) (hacc : s.wacc = 0)
    (hcnt : s.wcnt = 0) (hbits : bits = tr.bits ++ (msbBits s.inLen ++ s.inBytes.flatMap s.code)) :
    (bits.length ≤ 8 * s.capOut.toNat ∧ ∃ t, writeUnit s.inLen s = .ok () t ∧ t = s.withPackerOf t ∧
      t.outLen.toNat = (bits.length + 7) / 8 ∧
      t.outBytes.flatMap msbBits = bits ++ List.replicate ((8 - bits.length % 8) % 8) false ∧ t.wcnt = 0 ∧ t.wacc = 0) ∨
    (8 * s.capOut.toNat < bits.length ∧ ∃ t, writeUnit s.inLen s = .error (.error .outputOverflow 0 t.outLen) t ∧
      t = s.withPackerOf t ∧ t.packed <+: bits) := by
  have h0 : s.hasRoom 0 := by simp [hlen, hcnt]
  have hunit := emits_unit hcap htrie hcodes hmem h0
  rw [← hbits] at hunit
  have hempty := packed_of_empty hlen hcnt
  rw [writeUnit_eq]
  obtain ⟨hroom, hrun⟩ | ⟨hroom, kept, hkept, hfit, hrun⟩ := hunit
  · have happ := appended_pushBits hroom
    have hle := (extends_pushBits bits hroom).outLen_le
    have hpacker := pushBits_frame s bits
    have hcapOut : (s.pushBits bits).capOut = s.capOut := by rw [hpacker]; rfl
    generalize s.pushBits bits = t at *
    rw [run_bind_ok hrun, ← hcapOut]
    obtain hfits | hover := le_or_gt bits.length (8 * t.capOut.toNat)
    · obtain ⟨u, hflush, hu, hout⟩ := flushBits_ok hlen hacc hcnt happ hfits
      exact .inl ⟨hfits, u, hflush, hu.trans (by rw [hpacker]; rfl), hout⟩
    · refine .inr ⟨hover, t, flushBits_overflow hlen hcnt happ hle hover, hpacker, ?_⟩
      rw [packed_of_appended happ, hempty, List.nil_append]
  · refine .inr ⟨?_, s.pushBits kept, run_bind_error hrun, pushBits_frame s kept, ?_⟩
    · simp only [State.hasRoom, hlen, hcnt, BitVec.ofNat_eq_ofNat, BitVec.toNat_ofNat] at hroom
      omega
    · rw [packed_of_appended (appended_pushBits hfit), hempty, List.nil_append]
      exact hkept

end

/-- R155: COMPRESS of a non-empty input writes its unit over the tables that the three commands leave. -/
theorem compressBody_run_of_tables {s u v w : State} (hne : s.inLen ≠ 0) (htab : tabulateBody s = .ok () u)
    (hbuild : buildBody u = .ok () v) (hderive : deriveBody v = .ok () w) :
    compressBody s = writeUnit s.inLen (w.withSideOf s.resetPacker) := by
  rw [compressBody_run, if_neg fun h => hne h.1, compressUnit, if_neg hne, resetPacker_eq_withSideOf,
    run_bind_ok (blind_tabulateBody s s.resetPacker u () htab),
    run_bind_ok (blind_buildBody u s.resetPacker v () hbuild),
    run_bind_ok (blind_deriveBody v s.resetPacker w () hderive)]
  rfl

/-- R130 to R142: the three commands, one after the other, leave the tables of their bodies. -/
theorem exec_tables {s u v w : State} (htab : tabulateBody s = .ok () u) (hbuild : buildBody u = .ok () v)
    (hderive : deriveBody v = .ok () w) (hfreqValid : u.freqValid = true) (htrieValid : v.trieValid = true) :
    ∃ v' p, exec .tabulate s = .next u.complete ∧ exec .build u.complete = .next v' ∧
      exec .derive v' = .next (w.withSideOf p) := by
  have hbuild' := blind_buildBody u u.complete v () hbuild
  generalize hv : (v.withSideOf u.complete).complete = v'
  have hderive' : deriveBody v' = .ok () (w.withSideOf v') := hv ▸ blind_deriveBody v v' w () hderive
  have hvalid : v'.trieValid = true := hv ▸ htrieValid
  have hneedFreq : needFreq u.complete = .ok () u.complete := (needFreq_run _).trans (if_pos hfreqValid)
  have hneedTrie : needTrie v' = .ok () v' := (needTrie_run _).trans (if_pos hvalid)
  have hexecBuild : exec .build u.complete = .next (v.withSideOf u.complete).complete :=
    (exec_eq_runCommand .build _).trans (runCommand_of_ok ((run_bind_ok hneedFreq).trans hbuild'))
  have hexecDerive : exec .derive v' = .next (w.withSideOf v').complete :=
    (exec_eq_runCommand .derive _).trans (runCommand_of_ok ((run_bind_ok hneedTrie).trans hderive'))
  exact ⟨v', (w.withSideOf v').complete, (exec_eq_runCommand .tabulate s).trans (runCommand_of_ok htab),
    hv ▸ hexecBuild, hexecDerive⟩

/-- Settles O30: COMPRESS leaves the tables of the three commands, and then writes the unit or a part of it. -/
theorem compressWritesTheUnit : Obligations.CompressWritesTheUnit := by
  unfold Obligations.CompressWritesTheUnit
  intro s hne hcap
  obtain ⟨u, v, w, tr, htab, hbuild, hderive, hfreqValid, htrieValid, hw, hcount, htrie, hnodup, hmem, hcodes⟩ :=
    tables_ok hne hcap
  obtain ⟨v', p, hexecTab, hexecBuild, hexecDerive⟩ := exec_tables htab hbuild hderive hfreqValid htrieValid
  have hbody : commandBody s .compress s = writeUnit s.inLen (w.withSideOf s.resetPacker) :=
    compressBody_run_of_tables hne htab hbuild hderive
  have hinLen : w.inLen = s.inLen := by rw [hw]; rfl
  have hcapIn : w.capIn = s.capIn := by rw [hw]; rfl
  have hcapOut : w.capOut = s.capOut := by rw [hw]; rfl
  have hinBytes : w.inBytes = s.inBytes := by rw [hw]; rfl
  have htables {t : State} (ht : t = (w.withSideOf s.resetPacker).withPackerOf t) :
      t = tablesOf (s.withPackerOf t) w :=
    calc t = ((tablesOf s w).withSideOf s.resetPacker).withPackerOf t := by rw [← hw]; exact ht
      _ = tablesOf (s.withPackerOf t) w := rfl
  generalize hbits : tr.bits ++ msbBits s.inLen ++ s.inBytes.flatMap w.code = bits
  have hlength : bits.length =
      10 * tr.leaves.length - 1 + 32 + (s.inBytes.map fun b => (w.codeLenOf b).len.toNat).sum := by
    have hleaves := tr.length_bits
    rw [← hbits, List.length_append, List.length_append, length_msbBits, List.length_flatMap]
    simp only [length_code]
    omega
  have hunit := writeUnit_cases (s := w.withSideOf s.resetPacker) (tr := tr) (bits := bits)
    (show w.inLen.toNat ≤ w.capIn.toNat by rw [hinLen, hcapIn]; exact hcap) htrie hcodes
    (show ∀ b ∈ w.inBytes, b ∈ tr.leaves from fun b hb => (hmem b).mpr (hinBytes ▸ hb)) rfl rfl rfl
    (show bits = tr.bits ++ (msbBits w.inLen ++ w.inBytes.flatMap w.code) by
      rw [hinLen, hinBytes, ← List.append_assoc, hbits])
  rw [show (w.withSideOf s.resetPacker).inLen = s.inLen from hinLen, ← hbody,
    show (w.withSideOf s.resetPacker).capOut = s.capOut from hcapOut] at hunit
  have hcommand {t : State} (hexec : exec .compress s = .next t) :
      t.outLen.toNat ≤ s.capOut.toNat ∧ ∀ a, t.outLen.toNat ≤ a → t.obufByte a = s.obufByte a := by
    have hext := exec_extends_empty hexec (by simp) fun h => hne h.2.1
    exact ⟨hext.capOut_eq ▸ hext.outLen_le, fun a ha => hext.bytes a (.inr ha)⟩
  obtain ⟨hfits, t, hrun, ht, houtLen, hout, hwcnt, hwacc⟩ | ⟨hover, t, hrun, ht, hpacked⟩ := hunit
  · have hexec : exec .compress s = .next t.complete := (exec_eq_runCommand .compress s).trans (runCommand_of_ok hrun)
    exact ⟨u.complete, v', w.withSideOf p, t.complete, tr, bits, hexecTab, hexecBuild, hexecDerive, hcount, htrie, hnodup,
      hmem, hcodes, hbits.symm, hlength, hexec,
      fun _ => ⟨congrArg State.complete (htables ht), houtLen, hout, hwcnt, hwacc⟩,
      fun h => absurd h (Nat.not_lt.mpr hfits), (hcommand hexec).2⟩
  · have hexec : exec .compress s = .next (t.raiseError .outputOverflow 0 t.outLen) :=
      (exec_eq_runCommand .compress s).trans (runCommand_of_error hrun)
    exact ⟨u.complete, v', w.withSideOf p, _, tr, bits, hexecTab, hexecBuild, hexecDerive, hcount, htrie, hnodup,
      hmem, hcodes, hbits.symm, hlength, hexec, fun h => absurd hover (Nat.not_lt.mpr h),
      fun _ => ⟨congrArg (State.raiseError · .outputOverflow 0 t.outLen) (htables ht), hpacked, (hcommand hexec).1⟩,
      (hcommand hexec).2⟩

end Sys2Proof.Machine
end

section
/-! PROOFS. The command word (R81 to R86): its three fields determine it, the opcode map inverts the table of opcodes,
and the decoder accepts exactly the words of the well-formed commands. -/

namespace Sys2Proof.Machine

open Sys2Proof.Claims

/-! ### The fields of a word (R81) -/

/-- R81: OP, RSV and IMM8 are the whole word. -/
theorem append_fields (w : Word) : opField w ++ rsvField w ++ imm8Field w = w := by
  have htop : opField w ++ rsvField w = w.extractLsb' 8 24 := BitVec.extractLsb'_append_extractLsb'_eq_extractLsb' rfl
  calc opField w ++ rsvField w ++ imm8Field w = w.extractLsb' 8 24 ++ w.extractLsb' 0 8 := by rw [htop]; rfl
    _ = w.extractLsb' 0 32 := BitVec.extractLsb'_append_extractLsb'_eq_extractLsb' rfl
    _ = w := BitVec.extractLsb'_eq_self

/-- R82: IMM8[7:1] within the word. -/
theorem imm8Field_extractLsb' (w : Word) : (imm8Field w).extractLsb' 1 7 = w.extractLsb' 1 7 := by
  rw [imm8Field, ← BitVec.setWidth_eq_extractLsb' (by decide), BitVec.extractLsb'_setWidth_of_le (by decide)]

/-! ### The opcode map (R84) and the bits of IMM8 (R82) -/

/-- A command that uses no bit of IMM8 leaves all of it unused (R82). -/
theorem and_not_zero (b : Byte) : b &&& ~~~0x00 = b := by
  show b &&& ~~~0#8 = b
  rw [BitVec.not_zero, BitVec.and_allOnes]

/-- R84: the assigned values of OP. -/
def assignedOpcodes : List Byte :=
  [0x00, 0x01, 0x10, 0x11, 0x12, 0x13, 0x18, 0x19, 0x1A, 0x20, 0x21, 0x22, 0x23, 0x24, 0x28, 0x29, 0x30, 0x31]

theorem ofOpcode_opcode (i : Instr) : ofOpcode (opcode i) (imm8Of i) = some i := by
  cases i <;> rfl

theorem opcode_of_ofOpcode {op b : Byte} {i : Instr} (h : ofOpcode op b = some i) : opcode i = op := by
  unfold ofOpcode at h
  split at h <;> cases h <;> exact (BitVec.eq_of_toNat_eq ‹_›).symm

/-- R82: the operand is IMM8 where the word sets no bit of it that the command does not use. -/
theorem imm8Of_of_ofOpcode {op b : Byte} {i : Instr} (h : ofOpcode op b = some i) (hused : b &&& ~~~immUsed i = 0) :
    imm8Of i = b := by
  unfold ofOpcode at h
  split at h <;> cases h
  case h_3 | h_4 => rfl
  all_goals exact ((and_not_zero b).symm.trans hused).symm

theorem ofOpcode_eq_none_iff (op b : Byte) : ofOpcode op b = none ↔ op ∉ assignedOpcodes := by
  have hoperand : ofOpcode op b = none ↔ ofOpcode op 0 = none := by
    unfold ofOpcode
    split <;> simp
  rw [hoperand]
  clear hoperand
  revert op
  decide

/-- R82: which bits of IMM8 a command leaves unused: IMM8[7:1] for WBIT, none for WBYTE, and all for any other. -/
theorem unusedImm8_iff (i : Instr) (b : Byte) : b &&& ~~~immUsed i ≠ 0 ↔
    (opcode i = 0x10 ∧ b.extractLsb' 1 7 ≠ 0) ∨ (opcode i ≠ 0x10 ∧ opcode i ≠ 0x11 ∧ b ≠ 0) := by
  cases i with
  | wbit _ =>
    have hused : b &&& ~~~0x01 = 0 ↔ b.extractLsb' 1 7 = 0 := (Laws.CommandWord.wbit b).2.symm.trans beq_iff_eq
    rw [immUsed, ne_eq, hused]
    simp [opcode]
  | wbyte _ => simp [immUsed, opcode]
  | _ =>
    rw [immUsed, and_not_zero]
    simp [opcode]

/-- R82: a command is well formed where it sets no bit of IMM8 that it does not use. -/
theorem wellFormed_iff (i : Instr) : i.wellFormed = true ↔ imm8Of i &&& ~~~immUsed i = 0 := by
  cases i with
  | wbit b => exact (Laws.CommandWord.wbit b).2
  | wbyte b => exact (Laws.CommandWord.wbyte b).2
  | _ => exact iff_of_true rfl rfl

/-! ### The decoder (R85) -/

section
variable {w : Word} {i : Instr}

theorem decode_of_unassigned (h : ofOpcode (opField w) (imm8Field w) = none) :
    decode w = .illegal .unassignedOpcode := by
  simp [decode, h]

theorem decode_of_assigned (h : ofOpcode (opField w) (imm8Field w) = some i) :
    decode w = if rsvField w ≠ 0 then .illegal .reservedBits
      else if imm8Field w &&& ~~~immUsed i ≠ 0 then .illegal .unusedImmediate else .command i := by
  simp [decode, h]

/-- R81, R85: the three fields of the words that decode to a command. -/
theorem decode_eq_command_iff : decode w = .command i ↔
    i.wellFormed = true ∧ opField w = opcode i ∧ rsvField w = 0 ∧ imm8Field w = imm8Of i := by
  constructor
  · intro h
    cases hop : ofOpcode (opField w) (imm8Field w) with
    | none => simp [decode_of_unassigned hop] at h
    | some j =>
      rw [decode_of_assigned hop] at h
      split_ifs at h with hrsv hused
      obtain rfl : j = i := by simpa using h
      rw [not_not] at hrsv hused
      have himm := imm8Of_of_ofOpcode hop hused
      exact ⟨(wellFormed_iff j).mpr (himm ▸ hused), (opcode_of_ofOpcode hop).symm, hrsv, himm.symm⟩
  · rintro ⟨hwf, hop, hrsv, himm⟩
    rw [decode_of_assigned (hop ▸ himm ▸ ofOpcode_opcode i), himm]
    simp [hrsv, (wellFormed_iff i).mp hwf]

theorem decodeTableWord_toNat (h : decode w = .command i) : decodeTableWord 32 w.toNat = some i := by
  simp [decodeTableWord, Nat.mod_eq_of_lt w.isLt, h]

end

/-- Settles O4: the fields of the command's word are what the decoder asks of it. -/
theorem encodeThenDecodeIsTheCommand : Obligations.EncodeThenDecodeIsTheCommand := by
  unfold Obligations.EncodeThenDecodeIsTheCommand
  intro i hwf
  have hdecode := decode_eq_command_iff.mpr ⟨hwf, Laws.fields_word i⟩
  exact ⟨hdecode, decodeTableWord_toNat hdecode⟩

/-- Settles O5: the word is put together from the three fields that the decoder found. -/
theorem decodeThenEncodeIsTheWord : Obligations.DecodeThenEncodeIsTheWord := by
  unfold Obligations.DecodeThenEncodeIsTheWord
  intro w i h
  obtain ⟨hwf, hop, hrsv, himm⟩ := decode_eq_command_iff.mp h
  refine ⟨hwf, ?_⟩
  calc encode i = opField w ++ rsvField w ++ imm8Field w := by rw [hop, hrsv, himm]; rfl
    _ = w := append_fields w

/-- Settles O6: the opcode map by its list of assigned values, then the two tests of the decoder in their order. -/
theorem illegalWordsByFirstFailedCheck : Obligations.IllegalWordsByFirstFailedCheck := by
  unfold Obligations.IllegalWordsByFirstFailedCheck
  intro w assigned hassigned
  have hnone : ofOpcode (opField w) (imm8Field w) = none ↔ ¬assigned :=
    (ofOpcode_eq_none_iff _ _).trans (not_congr hassigned.symm)
  change _ ∧ (_ ↔ _ ∧ rsvField w ≠ 0) ∧ (_ ↔ _ ∧ rsvField w = 0 ∧
    ((opField w = 0x10 ∧ _) ∨ (opField w ≠ 0x10 ∧ opField w ≠ 0x11 ∧ imm8Field w ≠ 0)))
  cases hop : ofOpcode (opField w) (imm8Field w) with
  | none => simp [decode_of_unassigned hop, hnone.mp hop]
  | some i =>
    have hyes : assigned := not_not.mp fun h => by simp [hnone.mpr h] at hop
    rw [decode_of_assigned hop, ← imm8Field_extractLsb', ← opcode_of_ofOpcode hop, ← unusedImm8_iff]
    split_ifs <;> simp_all

/-- Settles O3: twenty closed words, each decoded by computation. -/
theorem wordsOfTheOpcodeMapDecode : Obligations.WordsOfTheOpcodeMapDecode := by
  unfold Obligations.WordsOfTheOpcodeMapDecode
  decide

/-- R85, R205: the ENGINE's turn on an illegal word. -/
theorem engineTurn_of_illegal {s : State} {w : Word} {c : IllegalCause} (hw : s.pending = some w)
    (h : decode w = .illegal c) : engineTurn s = .next (failed s .illegalCmd (illegalSub c) w) := by
  simp only [engineTurn, hw, h]
  rfl

/-- Settles O8: each check's illegal word is the ENGINE's turn with that check's sub-cause. -/
theorem stepReportsAnIllegalWord : Obligations.StepReportsAnIllegalWord := by
  unfold Obligations.StepReportsAnIllegalWord
  intro s rest w hnext hw
  rw [step_of_engineNext hnext]
  exact ⟨engineTurn_of_illegal hw, engineTurn_of_illegal hw, engineTurn_of_illegal hw⟩

end Sys2Proof.Machine
end

section
/-! PROOFS. The bit-stream commands (R100 to R110): fields written one after another and flushed are the bits that the
reads of the same widths take, and each command is one primitive run as the ENGINE's step. -/

namespace Sys2Proof.Machine

open Sys2Proof.Claims

/-! ### Fields written and read back (R110) -/

/-- The bits of a list of fields, one field after another (R65, R110). -/
def fieldBits (fs : List (Σ n : Nat, BitVec n)) : List Bool := fs.flatMap fun f => msbBits f.2

section
variable {s t : State} {fs : List (Σ n : Nat, BitVec n)} {l : List Bool}

/-- R101, R110: fields that were written without an error fit in OBUF, and FLUSH ran behind all their bits. -/
theorem writeFields_ok_inv (h0 : s.hasRoom 0) (h : writeFields fs s = .ok () t) :
    s.hasRoom (fieldBits fs).length ∧ flushBits (s.pushBits (fieldBits fs)) = .ok () t := by
  induction fs generalizing s with
  | nil => exact ⟨h0, h⟩
  | cons f fs ih =>
    rw [writeFields] at h
    obtain ⟨hroom, hrun⟩ | ⟨-, hrun⟩ := writeBits_cases f.2 s
    · have hfit : s.hasRoom (msbBits f.2).length := by rwa [length_msbBits]
      rw [run_bind_ok hrun] at h
      obtain ⟨hrest, hflush⟩ := ih (hasRoom_zero_pushBits hfit) h
      exact ⟨(hasRoom_append_iff hfit).mpr hrest, (pushBits_append s _ _).symm ▸ hflush⟩
    · rw [run_bind_error hrun] at h
      cases h

/-- R102, R111: where FLUSH succeeds, OBUF holds what was written to an empty packer, then its pad. -/
theorem outBytes_of_flushBits_ok (hlen : s.outLen = 0) (hcnt : s.wcnt = 0) (hacc : s.wacc = 0)
    (hroom : s.hasRoom l.length) (h : flushBits (s.pushBits l) = .ok () t) :
    ∃ pad, t.outBytes.flatMap msbBits = l ++ pad := by
  have happ := appended_pushBits hroom
  have hle : (s.pushBits l).hasRoom 0 := hasRoom_zero_pushBits hroom
  have hfit : l.length ≤ 8 * (s.pushBits l).capOut.toNat := by
    by_contra hover
    have hraise := flushBits_overflow hlen hcnt happ (by simp only [State.hasRoom] at hle; omega) (by omega)
    rw [hraise] at h
    cases h
  obtain ⟨u, hflush, -, -, hbits, -⟩ := flushBits_ok hlen hacc hcnt happ hfit
  obtain rfl : u = t := by
    rw [hflush] at h
    cases h
    rfl
  exact ⟨_, hbits⟩

/-- R64: the eight stream bits of one input byte. -/
theorem streamBits_byte (s : State) (i : Nat) : s.streamBits (8 * i) 8 = msbBits (s.ibufByte i) := by
  refine List.map_congr_left fun j hj => ?_
  have hj' : j < 8 := List.mem_range.mp hj
  rw [State.streamBit, show (8 * i + j) / 8 = i by omega, show (8 * i + j) % 8 = j by omega,
    BitVec.getMsbD_eq_getLsbD, decide_eq_true hj', Bool.true_and]

/-- R32, R64: the input stream is the bits of the input bytes. -/
theorem streamBits_inBytes (s : State) : s.streamBits 0 (8 * s.inLen.toNat) = s.inBytes.flatMap msbBits := by
  rw [State.inBytes]
  induction s.inLen.toNat with
  | zero => rfl
  | succ k ih =>
    rw [Nat.mul_succ, streamBits_add, ih, Nat.zero_add, streamBits_byte, List.range_succ, List.map_append,
      List.flatMap_append, List.map_singleton, List.flatMap_singleton]

/-- At RPOS = 0 the whole input is still to be read. -/
theorem upcoming_of_inBytes (hcap : s.inLen.toNat ≤ s.capIn.toNat) (hrpos : s.rpos = 0) :
    Upcoming s (s.inBytes.flatMap msbBits) := by
  have hlen : (s.inBytes.flatMap msbBits).length = 8 * s.inLen.toNat := by
    rw [← streamBits_inBytes, length_streamBits]
  exact ⟨hcap, by rw [hrpos, hlen, Nat.zero_add], by rw [hrpos, hlen, streamBits_inBytes]⟩

/-- R100, R110: reads of the widths of the fields that come next give the fields. -/
theorem readFields_ok (h : Upcoming s (fieldBits fs)) :
    ∃ v, readFields (fs.map fun f => f.1) s = .ok (fs.map fun f => f.2.toNat) v := by
  induction fs generalizing s with
  | nil => exact ⟨s, rfl⟩
  | cons f fs ih =>
    have h' : Upcoming s (msbBits f.2 ++ fieldBits fs) := h
    obtain ⟨v, hrest⟩ := ih h'.setRpos
    rw [length_msbBits] at hrest
    refine ⟨v, ?_⟩
    rw [List.map_cons, readFields, run_bind_ok (readBits_of_upcoming f.2 h'.left), run_bind_ok hrest]
    rfl

end

/-- Settles O16: the fields' bits stand first in the flushed output, so they are what the reads find in the input. -/
theorem fieldsWrittenAreReadBack : Obligations.FieldsWrittenAreReadBack := by
  unfold Obligations.FieldsWrittenAreReadBack
  intro fs s t u _ hlen hcnt hacc hrun hbytes hrpos hcap
  have hempty : s.hasRoom 0 := by simp [State.hasRoom, hlen, hcnt]
  obtain ⟨hroom, hflush⟩ := writeFields_ok_inv hempty hrun
  obtain ⟨pad, hbits⟩ := outBytes_of_flushBits_ok hlen hcnt hacc hroom hflush
  have hinput := upcoming_of_inBytes hcap hrpos
  rw [hbytes, hbits] at hinput
  exact readFields_ok hinput.left

/-! ### The commands as the ENGINE's step -/

section
variable {s t : State} {i : Instr} {bits : List Bool} {n : Nat}

/-- R206: a command whose body ends well completes. -/
theorem exec_of_ok (h : commandBody s i s = .ok () t) : exec i s = .next (finished t) :=
  (exec_eq_runCommand i s).trans (runCommand_of_ok h)

/-- R205: a command whose body raises an error reports it. -/
theorem exec_of_error {e : ErrCode} {sub : BitVec 4} {info : Word}
    (h : commandBody s i s = .error (.error e sub info) t) : exec i s = .next (failed t e sub info) :=
  (exec_eq_runCommand i s).trans (runCommand_of_error h)

/-- R103: the operand of WBIT is one bit. -/
theorem msbBits_wbitOperand (imm8 : Byte) : msbBits (wbitOperand imm8) = [imm8.getLsbD 0] := by
  simp [msbBits, wbitOperand, BitVec.getMsbD_eq_getLsbD]

/-- R103 to R105: a write command is `WriteBits` of its operand. -/
theorem commandBody_of_written (h : written i s = some bits) :
    ∃ (n : Nat) (v : BitVec n), commandBody s i = writeBits v ∧ msbBits v = bits := by
  cases i with
  | wbit imm8 => exact ⟨1, wbitOperand imm8, rfl, (msbBits_wbitOperand imm8).trans (Option.some.inj h)⟩
  | wbyte imm8 => exact ⟨8, imm8, rfl, Option.some.inj h⟩
  | wint => exact ⟨32, s.arg, rfl, Option.some.inj h⟩
  | _ => cases h

/-- R107 to R109: a read command is `ReadBits` of its width into RESULT. -/
theorem commandBody_of_readWidth (h : readWidth i = some n) : commandBody s i = readToResult n := by
  cases i with
  | rbit | rbyte | rint => cases h; rfl
  | _ => cases h

end

/-- Settles O13: the body is one `WriteBits`, which appends all its bits or raises before the first. -/
theorem writeCommandsAppendTheirBits : Obligations.WriteCommandsAppendTheirBits := by
  unfold Obligations.WriteCommandsAppendTheirBits
  intro i s bits hw
  obtain ⟨n, v, hbody, rfl⟩ := commandBody_of_written hw
  refine ⟨fun hfit => ?_, fun hfit => ?_⟩
  · have hrun : commandBody s i s = .ok () (s.pushBits (msbBits v)) := by
      rw [hbody, writeBits_ok (length_msbBits v ▸ hfit : fits s n)]
    exact ⟨_, exec_of_ok hrun, congrArg finished (pushBits_frame s _), appended_pushBits hfit⟩
  · exact exec_of_error (by rw [hbody, writeBits_overflow (length_msbBits v ▸ hfit : ¬fits s n)])

/-- R102, R111: the partial byte stored is the pending bits and their pad. -/
theorem packed_emitByte_wacc {s : State} (hclean : s.packerClean) (hlt : s.outLen.toNat < s.capOut.toNat) :
    (s.emitByte s.wacc).packed = s.packed ++ List.replicate (8 - s.wcnt.toNat) false := by
  have hnext : s.outLen.toNat + 1 < 2 ^ 32 := by have := s.capOut.isLt; omega
  rw [State.packed, outBytes_emitByte _ hnext, List.flatMap_append, List.flatMap_singleton, msbBits_wacc hclean,
    ← List.append_assoc]
  exact List.append_nil _

/-- Settles O14: the three cases of `FlushBits`. -/
theorem flushStoresThePartialByte : Obligations.FlushStoresThePartialByte := by
  unfold Obligations.FlushStoresThePartialByte
  intro s
  obtain ⟨hzero, hrun⟩ | ⟨hne, hfull, hrun⟩ | ⟨hne, hroom, hrun⟩ := flushBits_cases s
  · exact ⟨fun _ => exec_of_ok hrun, fun h => absurd hzero h, fun h => absurd hzero h⟩
  · exact ⟨fun h => absurd h hne, fun _ _ => exec_of_error hrun, fun _ hlt => by rw [hfull] at hlt; omega⟩
  · refine ⟨fun h => absurd h hne, fun _ h => absurd h hroom, fun _ hlt hclean => ?_⟩
    have hnext : s.outLen.toNat + 1 < 2 ^ 32 := by have := s.capOut.isLt; omega
    have hbyte := obufByte_emitByte s s.wacc
    exact ⟨finished (s.emitByte s.wacc), exec_of_ok hrun, rfl, emitByte_outLen s.wacc hnext, rfl, rfl,
      (hbyte _).trans (if_pos rfl), packed_emitByte_wacc hclean hlt, fun a ha => (hbyte a).trans (if_neg ha)⟩

/-- R30, R100: RESULT takes the number that the next n bits denote, zero-extended. -/
theorem readToResult_ok {n : Nat} {s : State} (hin : s.hasBits n) (hcap : s.inLen.toNat ≤ s.capIn.toNat) :
    readToResult n s = .ok ⟨⟩
      { readerAt s (s.rpos + n) with result := BitVec.ofNat 32 (natOfBits (s.streamBits s.rpos n)) } := by
  have hlt : natOfBits (s.streamBits s.rpos n) < 2 ^ n := by
    simpa using natOfBits_lt (s.streamBits s.rpos n)
  have hzext : (BitVec.ofNat n (natOfBits (s.streamBits s.rpos n))).zeroExtend 32 =
      BitVec.ofNat 32 (natOfBits (s.streamBits s.rpos n)) := by
    rw [BitVec.zeroExtend, ← BitVec.ofNat_toNat, BitVec.toNat_ofNat, Nat.mod_eq_of_lt hlt]
  rw [readToResult, run_bind_ok (readBits_ok hin hcap), run_modify, State.setResult, hzext]
  rfl

/-- Settles O15: the body is one `ReadBits` into RESULT, which takes all its bits or raises before the first. -/
theorem readCommandsReturnTheNextBits : Obligations.ReadCommandsReturnTheNextBits := by
  unfold Obligations.ReadCommandsReturnTheNextBits
  intro i n s hn
  refine ⟨fun hcap hin => ?_, fun hshort => ?_⟩
  · exact exec_of_ok (by rw [commandBody_of_readWidth hn, readToResult_ok hin hcap])
  · have hraise : readBits n s = _ := readBits_underflow (Nat.not_le.mpr hshort)
    exact exec_of_error (by rw [commandBody_of_readWidth hn, readToResult, run_bind_error hraise])

end Sys2Proof.Machine
end

section
/-! PROOFS. A unit and its expansion (R155, R156, R160): COMPRESS of an empty input, and that EXPAND gives back what
COMPRESS wrote. -/

namespace Sys2Proof.Machine

open Sys2Proof.Claims

/-! ### COMPRESS of an empty input (R160) -/

/-- EmitSentinel behind its tables (R160): a leaf's marker and its byte, the length, and the flush. -/
def writeSentinel : Engine Unit := do
  writeBits 1#1
  writeBits (0x00 : Byte)
  writeBits (0 : Word)
  flushBits

/-- The state whose packer the sentinel unit is written to: empty, with the tables of no input (R155, R160). -/
def State.sentinelStart (s : State) : State :=
  { s.resetPacker.clearFreq with freqValid := true, trieValid := false, codesValid := false }

/-- The sentinel unit before its flush: the trie of one leaf 0x00 and the length 0 (R160). -/
def sentinelBits : List Bool := (Trie.leaf 0).bits ++ msbBits (0 : Word)

section
variable {s t : State} {bits tail : List Bool} {bs : List Byte}

/-- R155: COMPRESS of an empty input without EMPTY_MODE writes the sentinel unit. -/
theorem compressBody_run_of_empty (hlen : s.inLen = 0) (hmode : s.emptyMode = false) :
    commandBody s .compress s = writeSentinel s.sentinelStart := by
  have hunit : commandBody s .compress s = compressUnit s.inLen s.resetPacker :=
    (compressBody_run s).trans (if_neg (by simp [hmode]))
  rw [hunit, compressUnit, if_pos hlen]
  rfl

/-- R35, R111: what stands in OBUF and in WACC once whole bytes and a few bits more were written to an empty packer. -/
theorem output_of_appended (hlen : s.outLen = 0) (hacc : s.wacc = 0) (hcnt : s.wcnt = 0)
    (h : appended s t (bs.flatMap msbBits ++ tail)) (htail : tail.length < 8) :
    t.outBytes = bs ∧ t.wcnt.toNat = tail.length ∧ msbBits t.wacc = tail ++ List.replicate (8 - tail.length) false := by
  obtain ⟨hpacked, hpos, hclean, -⟩ := h
  have hbits : (bs.flatMap msbBits).length = 8 * bs.length := by simp [List.length_flatMap, Nat.mul_comm]
  have hw := t.wcnt.isLt
  replace hpos : 8 * t.outLen.toNat + t.wcnt.toNat = 8 * bs.length + tail.length := by
    simpa [hlen, hcnt, hbits] using hpos
  have hpend : t.wcnt.toNat = tail.length := by omega
  have hbytes : t.outBytes.length = bs.length := by rw [length_outBytes]; omega
  rw [packed_of_empty hlen hcnt, List.nil_append, State.packed] at hpacked
  obtain ⟨hout, hlast⟩ := List.append_inj hpacked (by simp [List.length_flatMap, ← hbytes])
  refine ⟨flatMap_msbBits_inj hbytes hout, hpend, ?_⟩
  rw [msbBits_wacc (hclean (packerClean_of_wacc_zero hacc)), hlast, hpend]

theorem eq_of_msbBits_eq {n : Nat} {v w : BitVec n} (h : msbBits v = msbBits w) : v = w :=
  BitVec.eq_of_toNat_eq (by simpa using congrArg natOfBits h)

/-- What an empty packer has room for. -/
theorem hasRoom_sentinelStart {n : Nat} : s.sentinelStart.hasRoom n ↔ n / 8 ≤ s.capOut.toNat := by
  show 0 + (0 + n) / 8 ≤ s.capOut.toNat ↔ _
  omega

@[simp] theorem length_sentinelBits : sentinelBits.length = 41 := rfl

/-- R101: after these bits another field still fits exactly where they all fit together. -/
theorem hasRoom_sentinelStart_pushBits {l : List Bool} (hl : l.length / 8 ≤ s.capOut.toNat) {n : Nat} :
    (s.sentinelStart.pushBits l).hasRoom n ↔ (l.length + n) / 8 ≤ s.capOut.toNat := by
  have hiff : _ ↔ (s.sentinelStart.pushBits l).hasRoom (List.replicate n false).length :=
    hasRoom_append_iff (hasRoom_sentinelStart.mpr hl)
  rw [List.length_append, List.length_replicate, hasRoom_sentinelStart] at hiff
  exact hiff.symm

/-- R160: the marker always fits. -/
theorem writeSentinel_marker : writeSentinel s.sentinelStart = (do
    writeBits (0x00 : Byte)
    writeBits (0 : Word)
    flushBits : Engine Unit) (s.sentinelStart.pushBits [true]) :=
  run_bind_ok (writeBits_ok (hasRoom_sentinelStart.mpr (by omega)))

/-- R160: with a byte of OBUF the leaf's byte fits too. -/
theorem writeSentinel_leaf (hcap : 1 ≤ s.capOut.toNat) : writeSentinel s.sentinelStart = (do
    writeBits (0 : Word)
    flushBits : Engine Unit) (s.sentinelStart.pushBits (Trie.leaf 0).bits) := by
  have hroom : (s.sentinelStart.pushBits [true]).hasRoom 8 := (hasRoom_sentinelStart_pushBits (by simp)).mpr hcap
  rw [writeSentinel_marker, run_bind_ok (writeBits_ok hroom), ← pushBits_append]
  rfl

/-- R160: with five bytes of OBUF the length fits too. -/
theorem writeSentinel_length (hcap : 5 ≤ s.capOut.toNat) :
    writeSentinel s.sentinelStart = flushBits (s.sentinelStart.pushBits sentinelBits) := by
  have hroom : (s.sentinelStart.pushBits (Trie.leaf 0).bits).hasRoom 32 :=
    (hasRoom_sentinelStart_pushBits (by show 9 / 8 ≤ _; omega)).mpr hcap
  rw [writeSentinel_leaf (by omega), run_bind_ok (writeBits_ok hroom), ← pushBits_append]
  rfl

/-- R160: in an OBUF of six bytes or more the sentinel unit fits. -/
theorem writeSentinel_ok (hcap : 6 ≤ s.capOut.toNat) : ∃ t, writeSentinel s.sentinelStart = .ok () t ∧
    t = s.sentinelStart.withPackerOf t ∧ t.outBytes = [0x80, 0x00, 0x00, 0x00, 0x00, 0x00] ∧ t.wcnt = 0 ∧
    t.wacc = 0 := by
  have happ : appended s.sentinelStart (s.sentinelStart.pushBits sentinelBits) sentinelBits :=
    appended_pushBits (hasRoom_sentinelStart.mpr (by rw [length_sentinelBits]; omega))
  have hfit : sentinelBits.length ≤ 8 * (s.sentinelStart.pushBits sentinelBits).capOut.toNat := by
    rw [pushBits_frame, length_sentinelBits]
    show 41 ≤ 8 * s.capOut.toNat
    omega
  obtain ⟨t, hflush, ht, hlen, hbits, hwcnt, hwacc⟩ := flushBits_ok rfl rfl rfl happ hfit
  rw [length_sentinelBits] at hlen hbits
  have hunit : sentinelBits ++ List.replicate 7 false =
      ([0x80, 0x00, 0x00, 0x00, 0x00, 0x00] : List Byte).flatMap msbBits := by decide
  exact ⟨t, (writeSentinel_length (by omega)).trans hflush,
    ht.trans (by rw [pushBits_frame, withPackerOf_withPackerOf]),
    flatMap_msbBits_inj (by rw [length_outBytes, hlen]; rfl) (hbits.trans hunit), hwcnt, hwacc⟩

/-- R160, R207: where the sentinel unit stops it has written so many whole bytes and one bit more. -/
theorem sentinel_stops {b : Bool} (hbits : bits = bs.flatMap msbBits ++ [b]) (hfit : bits.length / 8 ≤ s.capOut.toNat)
    (hrun : writeSentinel s.sentinelStart = .error (.error .outputOverflow 0 (s.sentinelStart.pushBits bits).outLen)
      (s.sentinelStart.pushBits bits)) : ∃ t,
    writeSentinel s.sentinelStart = .error (.error .outputOverflow 0 t.outLen) t ∧
    t = s.sentinelStart.withPackerOf t ∧ t.outBytes = bs ∧ t.wcnt = 1 ∧
    t.wacc = if b then 0x80 else 0x00 := by
  have happ : appended s.sentinelStart (s.sentinelStart.pushBits bits) (bs.flatMap msbBits ++ [b]) :=
    hbits ▸ appended_pushBits (hasRoom_sentinelStart.mpr hfit)
  obtain ⟨hout, hwcnt, hwacc⟩ := output_of_appended rfl rfl rfl happ (by simp)
  refine ⟨_, hrun, pushBits_frame _ _, hout, BitVec.eq_of_toNat_eq hwcnt, eq_of_msbBits_eq (hwacc.trans ?_)⟩
  cases b <;> decide

end

/-- R160, R207: in an OBUF of less than six bytes the first write that does not fit raises OUTPUT_OVERFLOW: the flush
with five bytes, else the length, or the leaf's byte where there is none. -/
theorem writeSentinel_overflow {s : State} (hcap : s.capOut.toNat < 6) : ∃ t,
    writeSentinel s.sentinelStart = .error (.error .outputOverflow 0 t.outLen) t ∧
    t = s.sentinelStart.withPackerOf t ∧ t.wcnt = 1 ∧
    (s.capOut.toNat = 5 → t.outBytes = [0x80, 0x00, 0x00, 0x00, 0x00] ∧ t.wacc = 0) ∧
    (1 ≤ s.capOut.toNat → s.capOut.toNat < 5 → t.outBytes = [0x80] ∧ t.wacc = 0) ∧
    (s.capOut.toNat = 0 → t.outBytes = [] ∧ t.wacc = 0x80) := by
  obtain hzero | hsmall | hfive : s.capOut.toNat = 0 ∨ (1 ≤ s.capOut.toNat ∧ s.capOut.toNat < 5) ∨
      s.capOut.toNat = 5 := by omega
  · have hfull : ¬(s.sentinelStart.pushBits [true]).hasRoom 8 :=
      mt (hasRoom_sentinelStart_pushBits (by simp)).mp (by simp [hzero])
    obtain ⟨t, hrun, ht, hout, hwcnt, hwacc⟩ := sentinel_stops (bs := []) (b := true) rfl (by simp)
      (writeSentinel_marker.trans (run_bind_error (writeBits_overflow hfull)))
    exact ⟨t, hrun, ht, hwcnt, by omega, by omega, fun _ => ⟨hout, hwacc⟩⟩
  · have hfull : ¬(s.sentinelStart.pushBits (Trie.leaf 0).bits).hasRoom 32 :=
      mt (hasRoom_sentinelStart_pushBits (by show 9 / 8 ≤ _; omega)).mp (by show ¬41 / 8 ≤ _; omega)
    obtain ⟨t, hrun, ht, hout, hwcnt, hwacc⟩ := sentinel_stops (bs := [0x80]) (b := false) (by decide)
      (by show 9 / 8 ≤ _; omega)
      ((writeSentinel_leaf hsmall.1).trans (run_bind_error (writeBits_overflow hfull)))
    exact ⟨t, hrun, ht, hwcnt, by omega, fun _ _ => ⟨hout, hwacc⟩, by omega⟩
  · have happ : appended s.sentinelStart (s.sentinelStart.pushBits sentinelBits) sentinelBits :=
      appended_pushBits (hasRoom_sentinelStart.mpr (by rw [length_sentinelBits]; omega))
    have hcapOut : (s.sentinelStart.pushBits sentinelBits).capOut.toNat = 5 := by rw [pushBits_frame]; exact hfive
    have hle : (s.sentinelStart.pushBits sentinelBits).hasRoom 0 :=
      (hasRoom_sentinelStart_pushBits (by rw [length_sentinelBits]; omega)).mpr (by rw [length_sentinelBits]; omega)
    have hflush := flushBits_overflow rfl rfl happ (by simp only [State.hasRoom] at hle; omega)
      (by rw [hcapOut, length_sentinelBits]; omega)
    obtain ⟨t, hrun, ht, hout, hwcnt, hwacc⟩ := sentinel_stops (bs := [0x80, 0x00, 0x00, 0x00, 0x00]) (b := false)
      (by decide) (by rw [length_sentinelBits]; omega) ((writeSentinel_length (by omega)).trans hflush)
    exact ⟨t, hrun, ht, hwcnt, fun _ => ⟨hout, hwacc⟩, by omega, by omega⟩

/-- Settles O29: EMPTY_INPUT is raised first of all; else the sentinel unit fits in six bytes, and in fewer the first of
its writes that does not fit raises. -/
theorem compressOfAnEmptyInput : Obligations.CompressOfAnEmptyInput := by
  unfold Obligations.CompressOfAnEmptyInput
  intro s hlen
  refine ⟨fun hmode => exec_compress_emptyInput ⟨hlen, hmode⟩, fun hmode hcap => ?_, fun hmode hcap => ?_⟩
  · obtain ⟨t, hrun, ht, hout, hwcnt, hwacc⟩ := writeSentinel_ok hcap
    have hexec : exec .compress s = .next (finished t) :=
      exec_of_ok ((compressBody_run_of_empty hlen hmode).trans hrun)
    have hext := exec_extends_empty hexec (by simp) (by simp [hmode])
    have houtLen : t.outLen.toNat = 6 := by rw [← length_outBytes, hout]; rfl
    exact ⟨finished t, hexec, congrArg finished ht, hout, hwcnt, hwacc, fun a ha => hext.bytes a (.inr (houtLen ▸ ha))⟩
  · obtain ⟨t, hrun, ht, hwcnt, hfive, hsmall, hzero⟩ := writeSentinel_overflow hcap
    have hexec : exec .compress s = .next (failed t .outputOverflow 0 t.outLen) :=
      exec_of_error ((compressBody_run_of_empty hlen hmode).trans hrun)
    have hext := exec_extends_empty hexec (by simp) (by simp [hmode])
    exact ⟨_, hexec, congrArg (failed · .outputOverflow 0 t.outLen) ht, hfive, hsmall, hzero, hwcnt,
      fun a ha => hext.bytes a (.inr ha)⟩

/-! ### EXPAND of what COMPRESS wrote (R156) -/

/-- OBUF holds a unit over this input (R66): a trie of distinct symbols, the input's length, the path of each input byte
in order, and a pad. -/
def State.holdsUnitOf (t s : State) : Prop :=
  ∃ (tr : Trie) (ps : List (Byte × List Bool)) (pad : List Bool), tr.leaves.Nodup ∧ (∀ p ∈ ps, p ∈ tr.codes) ∧
    ps.map (fun p => p.1) = s.inBytes ∧
    t.outBytes.flatMap msbBits = (tr.bits ++ msbBits s.inLen ++ ps.flatMap fun p => p.2) ++ pad

section
variable {s t : State}

@[simp] theorem length_inBytes (s : State) : s.inBytes.length = s.inLen.toNat := by simp [State.inBytes]

/-- R160: the sentinel unit is a unit over the empty input. -/
theorem holdsUnitOf_sentinel (hlen : s.inLen = 0) (h : t.outBytes = [0x80, 0x00, 0x00, 0x00, 0x00, 0x00]) :
    t.holdsUnitOf s := by
  have hunit : ([0x80, 0x00, 0x00, 0x00, 0x00, 0x00] : List Byte).flatMap msbBits =
      sentinelBits ++ List.replicate 7 false := by decide
  refine ⟨.leaf 0, [], List.replicate 7 false, by simp [Trie.leaves], by simp, by simp [State.inBytes, hlen], ?_⟩
  rw [h, hunit, hlen, List.flatMap_nil, List.append_nil]
  rfl

/-- R140: the code of a leaf's symbol is the path to the leaf. -/
theorem mem_codes_of_mem_leaves {tr : Trie} (hcodes : s.holdsCodes tr) {b : Byte} (h : b ∈ tr.leaves) :
    (b, s.code b) ∈ tr.codes := by
  obtain ⟨⟨_, c⟩, hmem, rfl⟩ := List.mem_map.mp (show b ∈ tr.codes.map Prod.fst by rwa [map_fst_codes])
  obtain ⟨-, hcode⟩ := hcodes.1 _ c hmem
  rwa [hcode]

/-- R66, R155, R160: a COMPRESS that ends with DONE has written a unit over its input. -/
theorem holdsUnitOf_of_compress (hcap : s.inLen.toNat ≤ s.capIn.toNat) (hdone : s.done = false)
    (hexec : exec .compress s = .next t) (ht : t.done = true) : t.holdsUnitOf s := by
  have result {t' : State} (h : exec .compress s = .next t') : t' = t := Host.Outcome.next.inj (h.symm.trans hexec)
  have notDone (h : t.done = s.done) : False := by simp [h, hdone] at ht
  by_cases hlen : s.inLen = 0
  · obtain ⟨hraise, hfits, hover⟩ := compressOfAnEmptyInput s hlen
    cases hmode : s.emptyMode with
    | true =>
      obtain rfl := result (hraise hmode)
      exact (notDone rfl).elim
    | false =>
      obtain hroom | hroom := Nat.lt_or_ge s.capOut.toNat 6
      · obtain ⟨t', h, ht', -⟩ := hover hmode hroom
        obtain rfl := result h
        exact (notDone (by rw [ht']; rfl)).elim
      · obtain ⟨t', h, -, hout, -⟩ := hfits hmode hroom
        obtain rfl := result h
        exact holdsUnitOf_sentinel hlen hout
  · obtain ⟨-, -, w, t', tr, bits, -, -, -, -, -, hnodup, hmem, hcodes, hbits, -, h, hfits, hover, -⟩ :=
      compressWritesTheUnit s hlen hcap
    obtain rfl := result h
    obtain hroom | hroom := le_or_gt bits.length (8 * s.capOut.toNat)
    · obtain ⟨-, -, hout, -⟩ := hfits hroom
      refine ⟨tr, s.inBytes.map fun b => (b, w.code b), _, hnodup, fun p hp => ?_, by simp [Function.comp_def],
        hout.trans (congrArg (· ++ _) ?_)⟩
      · obtain ⟨b, hb, rfl⟩ := List.mem_map.mp hp
        exact mem_codes_of_mem_leaves hcodes ((hmem b).mpr hb)
      · rw [hbits, List.flatMap_map]
    · obtain ⟨ht', -⟩ := hover hroom
      exact (notDone (by rw [ht']; rfl)).elim

/-- R32, R64: the input stream begins as the input bytes do. -/
theorem streamBits_of_inBytes {bits pad : List Bool} (h : s.inBytes.flatMap msbBits = bits ++ pad) :
    bits.length ≤ 8 * s.inLen.toNat ∧ s.streamBits 0 bits.length = bits := by
  have hstream := (streamBits_inBytes s).trans h
  have hlen : 8 * s.inLen.toNat = bits.length + pad.length := by
    rw [← List.length_append, ← hstream, length_streamBits]
  rw [hlen, streamBits_add] at hstream
  exact ⟨by omega, List.append_inj_left hstream (length_streamBits _ _ _)⟩

end

/-- Settles O40: a COMPRESS that ends with DONE wrote a unit over its input, and EXPAND decodes every unit. -/
theorem expandUndoesCompress : Obligations.ExpandUndoesCompress := by
  unfold Obligations.ExpandUndoesCompress
  intro s t u hcap hdone hexec ht hbytes hcapIn hroom
  obtain ⟨tr, ps, pad, hnodup, hps, hsymbols, hunit⟩ := holdsUnitOf_of_compress hcap hdone hexec ht
  obtain ⟨hinside, hstream⟩ := streamBits_of_inBytes ((congrArg (List.flatMap msbBits) hbytes).trans hunit)
  have hcount : ps.length = s.inLen.toNat := by rw [← length_inBytes, ← hsymbols, List.length_map]
  obtain ⟨v, hv, hframe, -, -, hout, hwcnt, -⟩ :=
    expandDecodesTheUnit u tr s.inLen ps _ rfl hnodup hps hcount hroom hcapIn hinside hstream
  refine ⟨v, hv, ?_, ?_, hout.trans hsymbols, ?_, ?_, hwcnt⟩
  all_goals rw [hframe]; rfl

end Sys2Proof.Machine
end

section
/-! PROOFS. TABULATE, DERIVE, SERIALIZE and ENCODE as commands of their own (R130, R131, R143, R145 to R150). -/

namespace Sys2Proof.Machine

open Sys2Proof.Claims

/-! ### TABULATE (R130, R131) -/

/-- Each byte of a sequence is counted under its own value. -/
theorem sum_count_allBytes (l : List Byte) : (allBytes.map fun b => l.count b).sum = l.length := by
  rw [← List.sum_toFinset _ nodup_allBytes]
  simpa using Multiset.sum_count_eq_card (s := allBytes.toFinset) (m := (l : Multiset Byte))
    fun b _ => List.mem_toFinset.mpr (mem_allBytes b)

section
variable {s t : State}

/-- R131: the counts of a sequence sum to its length. -/
theorem freqSum_of_count {l : List Byte} (h : ∀ b, (s.freqOf b).toNat = l.count b) : s.freqSum = l.length := by
  rw [State.freqSum, ← sum_count_allBytes l]
  exact congrArg List.sum (List.map_congr_left fun b _ => h b)

/-- R130: TABULATE changes FREQ and FREQ_VALID alone. -/
theorem tabulateBody_frame (h : tabulateBody s = .ok () t) (hvalid : t.freqValid = true) :
    t = { s with freq := t.freq, freqValid := true } := by
  have hframe := (keeps_tabulateBody s).ok h
  refine eq_of_agrees ⟨hframe.fixed.host, hframe.fixed.status⟩ fun p hp => ?_
  by_cases hfreq : p = .freq
  · subst hfreq
    exact ⟨rfl, hvalid⟩
  · have hagree := hframe.parts p (by simpa using hfreq)
    cases p
    case freq => exact absurd rfl hfreq
    case written => exact absurd rfl hp
    all_goals exact hagree

/-- R130, R131: TABULATE as a command. -/
theorem exec_tabulate (hcap : s.inLen.toNat ≤ s.capIn.toNat) : ∃ t, exec .tabulate s = .next (finished t) ∧
    t = { s with freq := t.freq, freqValid := true } ∧ (∀ b, (t.freqOf b).toNat = s.inBytes.count b) ∧
    t.freqSum = s.inLen.toNat := by
  obtain ⟨t, hrun, hvalid, hcount⟩ := tabulateBody_ok hcap
  exact ⟨t, exec_of_ok hrun, tabulateBody_frame hrun hvalid, hcount,
    (freqSum_of_count hcount).trans (length_inBytes s)⟩

end

/-- Settles O17: the counting loop counts each byte value of the input. -/
theorem tabulateCountsTheInput : Obligations.TabulateCountsTheInput := by
  unfold Obligations.TabulateCountsTheInput
  intro s hcap
  obtain ⟨t, hexec, ht, hcount, hsum⟩ := exec_tabulate hcap
  exact ⟨finished t, hexec, congrArg finished ht, hcount, hsum⟩

/-! ### DERIVE (R143) -/

/-- R143: no path to a leaf is the beginning of a path to another. -/
theorem eq_of_codes_prefix {tr : Trie} {p q : Byte × List Bool} (hp : p ∈ tr.codes) (hq : q ∈ tr.codes)
    (h : p.2 <+: q.2) : p = q := by
  induction tr generalizing p q with
  | leaf b =>
    obtain rfl : p = (b, []) := by simpa [Trie.codes] using hp
    exact (by simpa [Trie.codes] using hq : q = (b, [])).symm
  | node l r ihl ihr =>
    simp only [Trie.codes, List.mem_append, List.mem_map] at hp hq
    obtain ⟨p, hp, rfl⟩ | ⟨p, hp, rfl⟩ := hp <;> obtain ⟨q, hq, rfl⟩ | ⟨q, hq, rfl⟩ := hq
    · rw [ihl hp hq (List.cons_prefix_cons.mp h).2]
    · exact absurd (List.cons_prefix_cons.mp h).1 (by decide)
    · exact absurd (List.cons_prefix_cons.mp h).1 (by decide)
    · rw [ihr hp hq (List.cons_prefix_cons.mp h).2]

/-- With distinct symbols a symbol has one path. -/
theorem code_unique {tr : Trie} (hnodup : tr.leaves.Nodup) {b : Byte} {c c' : List Bool} (h : (b, c) ∈ tr.codes)
    (h' : (b, c') ∈ tr.codes) : c' = c :=
  (Prod.ext_iff.mp (List.inj_on_of_nodup_map (map_fst_codes tr ▸ hnodup) h' h rfl)).2

/-- R43: a symbol that has a code is a leaf's. -/
theorem mem_leaves_of_present {s : State} {tr : Trie} (hcodes : s.holdsCodes tr) {b : Byte}
    (h : (s.codeLenOf b).present = true) : b ∈ tr.leaves := by
  obtain ⟨-, habsent, -⟩ := hcodes
  by_contra hb
  simp [habsent b hb] at h

/-- Settles O25: the codes recorded are the paths to the leaves, and a leaf lies above no other. -/
theorem derivedCodesArePrefixFree : Obligations.DerivedCodesArePrefixFree := by
  unfold Obligations.DerivedCodesArePrefixFree
  intro s t tr hvalid htrie hnodup hexec
  obtain ⟨t', hexec', -, hcodes⟩ := deriveRecordsThePathOfEachLeaf s tr hvalid htrie hnodup
  obtain rfl : t' = t := Host.Outcome.next.inj (hexec'.symm.trans hexec)
  refine ⟨fun b hb => ?_, fun b b' hne hb hb' hprefix => hne ?_⟩
  · have hmem := mem_codes_of_mem_leaves hcodes hb
    have hdepth := length_lt_of_mem_codes htrie hmem
    exact ⟨t'.code b, hmem, fun c' => code_unique hnodup hmem, present_of_mem_leaves hcodes hb, rfl,
      (length_code t' b).symm, Nat.le_of_lt_succ hdepth⟩
  · have path {c : Byte} (hc : (t'.codeLenOf c).present = true) :=
      mem_codes_of_mem_leaves hcodes (mem_leaves_of_present hcodes hc)
    exact congrArg Prod.fst (eq_of_codes_prefix (path hb) (path hb') hprefix)

/-! ### SERIALIZE and ENCODE (R145 to R150) -/

section
variable {i : Instr} {s : State} {x : Engine Unit} {bits : List Bool}

theorem Emits.ok (h : Emits x s bits) (hroom : s.hasRoom bits.length) : x s = .ok () (s.pushBits bits) := by
  obtain ⟨-, hrun⟩ | ⟨hfull, -⟩ := h
  · exact hrun
  · exact absurd hroom hfull

/-- A command that only writes bits appends them where they fit (R111). -/
theorem exec_of_emits (hbody : commandBody s i s = x s) (h : Emits x s bits) (hfit : fits s bits.length) :
    ∃ t, exec i s = .next t ∧ t = finished (s.withPackerOf t) ∧ appended s t bits :=
  ⟨finished (s.pushBits bits), exec_of_ok (hbody.trans (h.ok hfit)), congrArg finished (pushBits_frame s bits),
    appended_pushBits hfit⟩

end

/-- Settles O26: SERIALIZE writes the trie in pre-order, and nothing else. -/
theorem serializeAppendsThePreOrderTrie : Obligations.SerializeAppendsThePreOrderTrie := by
  unfold Obligations.SerializeAppendsThePreOrderTrie
  intro s tr hvalid htrie hfit
  have hbody : commandBody s .serialize s = serializeBody s := run_bind_ok (by rw [needTrie_run, if_pos hvalid])
  have hlength := tr.length_bits
  obtain ⟨t, hexec, ht, happ⟩ :=
    exec_of_emits hbody (emits_serializeBody htrie (hasRoom_mono (Nat.zero_le _) hfit)) hfit
  exact ⟨t, hexec, ht, happ, by omega⟩

/-- Settles O27: ENCODE writes the code of each input byte in order, and nothing else. -/
theorem encodeAppendsTheCodesOfTheInput : Obligations.EncodeAppendsTheCodesOfTheInput := by
  unfold Obligations.EncodeAppendsTheCodesOfTheInput
  intro s hvalid hcap hcode hfit
  have hbody : commandBody s .encode s = encodeBody s := run_bind_ok (by rw [needCodes_run, if_pos hvalid])
  exact exec_of_emits hbody (emits_encodeBody hcap hcode (hasRoom_mono (Nat.zero_le _) hfit)) hfit

section
variable {s : State} {k : Nat}

theorem take_inBytes (hk : k ≤ s.inLen.toNat) : s.inBytes.take k = (List.range k).map s.ibufByte := by
  rw [State.inBytes, ← List.map_take, List.take_range, Nat.min_eq_left hk]

/-- R150: the first k passes of ENCODE write the codes of the first k input bytes. -/
theorem emits_encodePasses (hcap : s.inLen.toNat ≤ s.capIn.toNat) (hk : k ≤ s.inLen.toNat)
    (hcode : ∀ b ∈ s.inBytes.take k, (s.codeLenOf b).present = true) (h0 : s.hasRoom 0) :
    Emits ((List.range k).forM encodeByte) s ((s.inBytes.take k).flatMap s.code) := by
  rw [take_inBytes hk] at hcode ⊢
  rw [List.flatMap_map]
  refine emits_forM _ h0 fun i hi l hl => ?_
  have hlt : i < s.capIn.toNat := by have := List.mem_range.mp hi; omega
  have hpresent := hcode (s.ibufByte i) (List.mem_map_of_mem hi)
  have hbyte : (s.pushBits l).ibufByte i = s.ibufByte i := by rw [pushBits_frame]; rfl
  have hemit : Emits (encodeByte i) (s.pushBits l) _ :=
    emits_encodeByte (by rw [pushBits_frame]; exact hlt) (by rw [pushBits_frame]; exact hpresent)
      (hasRoom_zero_pushBits hl)
  rwa [hbyte, code_pushBits] at hemit

/-- R150: a byte without a code is reported by its index. -/
theorem encodeByte_noCode (hk : k < s.capIn.toNat) (h : (s.codeLenOf (s.ibufByte k)).present = false) :
    encodeByte k s = .error (.error .noCode 0 (BitVec.ofNat 32 k)) s := by
  rw [encodeByte, run_bind_ok (ibufRead_ok hk), run_bind_ok (run_get s), if_neg (by simp [h]), run_raise]

/-- R150: the loop of ENCODE up to pass k, pass k, and the rest. -/
theorem encodeBody_split (hk : k < s.inLen.toNat) : ∃ rest : Engine PUnit, encodeBody s =
    ((List.range k).forM encodeByte >>= fun _ => encodeByte k >>= fun _ => rest) s := by
  obtain ⟨m, hm⟩ : ∃ m, s.inLen.toNat = k + (m + 1) := ⟨s.inLen.toNat - k - 1, by omega⟩
  refine ⟨((List.range m).map fun j => k + (j + 1)).forM encodeByte, (run_bind_ok (run_get s)).trans ?_⟩
  rw [State.inputLength, hm, List.range_add, List.range_succ_eq_map]
  simp [List.forM_eq_forM, List.forM_append, Function.comp_def]

end

/-- Settles O28: the passes before the byte write their codes, and its own pass raises. -/
theorem encodeStopsAtAByteWithoutACode : Obligations.EncodeStopsAtAByteWithoutACode := by
  unfold Obligations.EncodeStopsAtAByteWithoutACode
  intro s k hvalid hcap hk hcode hnone hfit
  generalize hbits : (s.inBytes.take k).flatMap s.code = bits at hfit ⊢
  have hpasses : ((List.range k).forM encodeByte) s = .ok () (s.pushBits bits) :=
    (hbits ▸ emits_encodePasses hcap hk.le hcode (hasRoom_mono (Nat.zero_le _) hfit)).ok hfit
  have hstop : encodeByte k (s.pushBits bits) = .error (.error .noCode 0 (BitVec.ofNat 32 k)) (s.pushBits bits) := by
    refine encodeByte_noCode ?_ ?_
    · rw [pushBits_frame]; exact hk.trans_le hcap
    · rw [pushBits_frame]; exact hnone
  obtain ⟨rest, hsplit⟩ := encodeBody_split hk
  have hbody : commandBody s .encode s = .error (.error .noCode 0 (BitVec.ofNat 32 k)) (s.pushBits bits) := by
    rw [commandBody, run_bind_ok (a := ()) (t := s) (by rw [needCodes_run, if_pos hvalid]), hsplit,
      run_bind_ok hpasses, run_bind_error hstop]
  exact ⟨_, exec_of_error hbody, congrArg (failed · .noCode 0 (BitVec.ofNat 32 k)) (pushBits_frame s bits),
    appended_pushBits hfit⟩

end Sys2Proof.Machine
end

section
/-! PROOFS. The entries that BUILD makes (R132 to R139): the leaves in ascending order, then one entry per merge, each
over the two members of PQ that come first. -/

namespace Sys2Proof.Machine

open Sys2Proof.Claims

/-! ### The entries written, in order (R134, R135) -/

/-- NODE with these entries from index n on (R12, R44). -/
def State.storeNodes (s : State) (n : Nat) : List Node → State
  | [] => s
  | e :: es => (s.setNode n e).storeNodes (n + 1) es

/-- The leaves of the present byte values, each with its count (R134). -/
def State.leafNodes (s : State) (bs : List Byte) : List Node := bs.map fun b => leafNode b (s.freqOf b)

/-- PQ over these leaves, which stand from index n on (R133, R134). -/
def State.leafEntries (s : State) (n : Nat) (bs : List Byte) : List Entry :=
  (bs.zipIdx n).map fun p => { freq := s.freqOf p.1, idx := p.2 }

section
variable {s t : State} {n : Nat} {es : List Node}

@[simp] theorem length_leafNodes (s : State) (bs : List Byte) : (s.leafNodes bs).length = bs.length :=
  List.length_map _

@[simp] theorem length_leafEntries (s : State) (n : Nat) (bs : List Byte) :
    (s.leafEntries n bs).length = bs.length := by
  simp [State.leafEntries]

theorem storeNodes_append (s : State) (n : Nat) (es fs : List Node) :
    s.storeNodes n (es ++ fs) = (s.storeNodes n es).storeNodes (n + es.length) fs := by
  induction es generalizing s n with
  | nil => rfl
  | cons e es ih =>
    rw [List.cons_append, State.storeNodes, ih, List.length_cons, Nat.add_comm es.length, ← Nat.add_assoc]
    rfl

/-- Storing entries changes NODE alone. -/
theorem storeNodes_frame (s : State) (n : Nat) (es : List Node) :
    s.storeNodes n es = { s with node := (s.storeNodes n es).node } := by
  induction es generalizing s n with
  | nil => rfl
  | cons e es ih =>
    have hset : s.setNode n e = { s with node := (s.setNode n e).node } := updateNode_frame s n _
    rw [State.storeNodes]
    generalize hu : (s.setNode n e).storeNodes (n + 1) es = u
    rw [← hu, ih, hset]

/-- The entries below those stored, those stored, and those above them. -/
theorem getElem?_storeNodes (hn : n + es.length ≤ Config.maxNodes) (j : Nat) :
    (s.storeNodes n es).node[j]? = if n ≤ j ∧ j < n + es.length then es[j - n]? else s.node[j]? := by
  induction es generalizing s n with
  | nil => rw [if_neg (by simp only [List.length_nil]; omega)]; rfl
  | cons e es ih =>
    rw [List.length_cons] at hn ⊢
    rw [State.storeNodes, ih (by omega), getElem?_setNode s j e (by omega)]
    obtain hlt | rfl | hgt := Nat.lt_trichotomy j n
    · rw [if_neg (by omega), if_neg (by omega), if_neg (by omega)]
    · rw [if_neg (by omega), if_pos rfl, if_pos (by omega), Nat.sub_self, List.getElem?_cons_zero]
    · obtain ⟨m, rfl⟩ : ∃ m, j = n + 1 + m := ⟨j - (n + 1), by omega⟩
      rw [if_neg (show n + 1 + m ≠ n by omega), show n + 1 + m - n = m + 1 by omega, List.getElem?_cons_succ,
        Nat.add_sub_cancel_left]
      exact if_congr (by omega) rfl rfl

/-- R134: the seeding loop stores the leaves and fills PQ with them. -/
theorem seedLoop_run (bs : List Byte) (pq : List Entry) (s : State) : bs.foldlM seedLeaf pq s =
    .ok (pq ++ s.leafEntries pq.length bs) (s.storeNodes pq.length (s.leafNodes bs)) := by
  induction bs generalizing pq s with
  | nil => exact congrArg (EStateM.Result.ok · s) (List.append_nil pq).symm
  | cons b bs ih =>
    have hfreq : (s.setNode pq.length (leafNode b (s.freqOf b))).freqOf = s.freqOf := by
      funext c
      simp [State.freqOf]
    rw [List.foldlM_cons, run_bind_ok (seedLeaf_run pq b s), ih]
    simp [State.leafEntries, State.leafNodes, State.storeNodes, hfreq]

end

/-! ### The queue (R133, R135) -/

section
variable {x y : Entry} {pq : List Entry}

/-- R133: the lexicographic order of (frequency, node index), in numbers. -/
theorem entryBefore_iff : entryBefore x y = true ↔
    x.freq.toNat < y.freq.toNat ∨ (x.freq.toNat = y.freq.toNat ∧ x.idx < y.idx) := by
  simp [entryBefore, BitVec.toNat_inj]

/-- The first of two entries comes after neither. -/
theorem firstEntry_least (x y : Entry) :
    ¬entryBefore x (firstEntry x y) = true ∧ ¬entryBefore y (firstEntry x y) = true := by
  unfold firstEntry
  split <;> simp only [entryBefore_iff] at * <;> omega

/-- R133: no member of PQ comes before the entry that PopMin takes. -/
theorem foldl_firstEntry_least (l : List Entry) (e : Entry) :
    ∀ z ∈ e :: l, ¬entryBefore z (l.foldl firstEntry e) = true := by
  induction l generalizing e with
  | nil => simp [entryBefore]
  | cons x l ih =>
    intro z hz
    have hfirst := firstEntry_least e x
    have hleast := ih (firstEntry e x) _ List.mem_cons_self
    have hrest := ih (firstEntry e x) z
    rw [List.foldl_cons]
    simp only [entryBefore_iff] at *
    obtain rfl | rfl | hz : z = e ∨ z = x ∨ z ∈ l := by simpa using hz
    · omega
    · omega
    · exact hrest (List.mem_cons_of_mem _ hz)

/-- R133: PopMin takes the entry that comes before all others, where no two have one index. -/
theorem popMin_first (h : pq ≠ []) (hnodup : (pq.map Entry.idx).Nodup) : ∃ x rest, popMin pq = some (x, rest) ∧
    pq.Perm (x :: rest) ∧ ∀ z ∈ rest, entryBefore x z = true := by
  cases pq with
  | nil => exact absurd rfl h
  | cons e pq =>
    have hperm := List.perm_cons_erase (mem_foldl_firstEntry pq e)
    refine ⟨_, _, rfl, hperm, fun z hz => ?_⟩
    have hleast := foldl_firstEntry_least pq e z (hperm.mem_iff.mpr (List.mem_cons_of_mem _ hz))
    have hne : (pq.foldl firstEntry e).idx ≠ z.idx := fun heq =>
      (List.nodup_cons.mp ((hperm.map Entry.idx).nodup_iff.mp hnodup)).1 (heq ▸ List.mem_map_of_mem hz)
    simp only [entryBefore_iff] at *
    omega

/-- The entry of the internal node at index n over x and y (R135). -/
def mergedEntry (x y : Entry) (n : Nat) : Entry := { freq := x.freq + y.freq, idx := n }

/-- R132, R135: from PQ and the next free index n the loop makes these entries: one per merge, over the two members that
come first, until one member is left. -/
inductive Merges : Nat → List Entry → List Node → Prop
  | last (n : Nat) (x : Entry) : Merges n [x] []
  | merge {n : Nat} {pq rest : List Entry} {x y : Entry} {es : List Node} (hperm : pq.Perm (x :: y :: rest))
      (hx : ∀ z ∈ y :: rest, entryBefore x z = true) (hy : ∀ z ∈ rest, entryBefore y z = true)
      (h : Merges (n + 1) (mergedEntry x y n :: rest) es) :
      Merges n pq (internalNode (x.freq + y.freq) x.idx y.idx :: es)

/-- The members of PQ stand below the next free index after a merge too. -/
theorem idx_lt_of_merged {n : Nat} {rest : List Entry} (hperm : pq.Perm (x :: y :: rest))
    (hidx : ∀ z ∈ pq, z.idx < n) : ∀ z ∈ mergedEntry x y n :: rest, z.idx < n + 1 := by
  intro z hz
  obtain rfl | hz := List.mem_cons.mp hz
  · exact Nat.lt_succ_self n
  · exact (hidx z (hperm.mem_iff.mpr (by simp [hz]))).trans (Nat.lt_succ_self n)

/-- Each merge makes one member of two. -/
theorem Merges.length {n : Nat} {es : List Node} (h : Merges n pq es) : es.length + 1 = pq.length := by
  induction h with
  | last => rfl
  | merge hperm _ _ _ ih =>
    rw [hperm.length_eq, List.length_cons, ih]
    rfl

/-- R132, R135: the merging loop stores the entries of the merges, whatever the state. -/
theorem mergeLoop_run (fuel : Nat) {n : Nat} (hpq : pq ≠ []) (hfuel : pq.length ≤ fuel + 1)
    (hnodup : (pq.map Entry.idx).Nodup) (hidx : ∀ x ∈ pq, x.idx < n) :
    ∃ es, Merges n pq es ∧ ∀ s, mergeLoop fuel pq n s = .ok (n + es.length) (s.storeNodes n es) := by
  induction fuel generalizing pq n with
  | zero =>
    obtain ⟨x, rfl⟩ : ∃ x, pq = [x] := List.length_eq_one_iff.mp (by have := List.length_pos_iff.mpr hpq; omega)
    exact ⟨[], .last n x, fun _ => rfl⟩
  | succ fuel ih =>
    obtain ⟨x, pq1, hpop, hperm, hx⟩ := popMin_first hpq hnodup
    obtain rfl | hpq1 := eq_or_ne pq1 []
    · obtain rfl := List.perm_singleton.mp hperm
      exact ⟨[], .last n x, fun s => by rw [mergeLoop, hpop]; rfl⟩
    · have hnodup1 := (hperm.map Entry.idx).nodup_iff.mp hnodup
      obtain ⟨y, rest, hpop1, hperm1, hy⟩ := popMin_first hpq1 (List.nodup_cons.mp hnodup1).2
      have hall : pq.Perm (x :: y :: rest) := hperm.trans (hperm1.cons x)
      have hrest : ∀ z ∈ rest, z.idx < n := fun z hz => hidx z (hall.mem_iff.mpr (by simp [hz]))
      have hnodup2 : ((mergedEntry x y n :: rest).map Entry.idx).Nodup := by
        have hsub := (List.nodup_cons.mp (List.nodup_cons.mp ((hall.map Entry.idx).nodup_iff.mp hnodup)).2).2
        refine List.nodup_cons.mpr ⟨fun hmem => ?_, hsub⟩
        obtain ⟨z, hz, hzn⟩ := List.mem_map.mp hmem
        exact absurd (hrest z hz) (by simp [hzn, mergedEntry])
      obtain ⟨es, hes, hrun⟩ := ih (pq := mergedEntry x y n :: rest) (n := n + 1) (by simp)
        (by have := hall.length_eq; simp only [List.length_cons] at *; omega) hnodup2 (idx_lt_of_merged hall hidx)
      refine ⟨_, .merge hall (fun z hz => hx z (hperm1.mem_iff.mpr hz)) hy hes, fun s => ?_⟩
      simp only [mergeLoop, hpop, hpop1]
      rw [run_bind_ok (run_modify _ s)]
      exact (hrun _).trans (by rw [List.length_cons, Nat.add_comm es.length, ← Nat.add_assoc]; rfl)

end

/-- R133, R135, R136: internal node n is over the two members of PQ that come first, the first on the left, and its
frequency is their sum. -/
def MergedAt (t : State) (r n : Nat) : Prop :=
  ∃ e x y, t.node[n]? = some e ∧ e.leaf = false ∧ e.sym = 0 ∧ e.left.toNat = x ∧ e.right.toNat = y ∧
    inQueue t r n x ∧ inQueue t r n y ∧ comesBefore t x y ∧
    (∀ z, inQueue t r n z → z ≠ x → z ≠ y → comesBefore t y z) ∧ e.freq.toNat = freqAt t x + freqAt t y

/-- When internal node n is made, PQ holds the nodes of t that no internal node before n took, each with its frequency,
and the frequencies sum to `total` (R133, R139). -/
structure Queue (t : State) (r n total : Nat) (pq : List Entry) : Prop where
  mem_iff : ∀ i, inQueue t r n i ↔ i ∈ pq.map Entry.idx
  nodup : (pq.map Entry.idx).Nodup
  freq : ∀ x ∈ pq, freqAt t x.idx = x.freq.toNat
  sum : (pq.map fun x => x.freq.toNat).sum = total
  below : ∀ m e, r ≤ m → m < n → t.node[m]? = some e → e.left.toNat < m ∧ e.right.toNat < m

section
variable {t : State} {r n total : Nat} {pq rest : List Entry} {x y : Entry} {es : List Node}

/-- R44: an index of the store fits LEFT and RIGHT. -/
theorem toNat_index {i : Nat} (h : i < Config.maxNodes) : (BitVec.ofNat 9 i).toNat = i :=
  Nat.mod_eq_of_lt (by simp only [Config.maxNodes] at h; omega)

theorem freqAt_of_node {e : Node} {i : Nat} (h : t.node[i]? = some e) : freqAt t i = e.freq.toNat := by
  rw [freqAt, h]
  rfl

theorem Queue.mem (h : Queue t r n total pq) (hx : x ∈ pq) : inQueue t r n x.idx :=
  (h.mem_iff _).mpr (List.mem_map_of_mem hx)

/-- R139: no member's frequency passes the sum of all. -/
theorem Queue.freqAt_le (h : Queue t r n total pq) {i : Nat} (hi : inQueue t r n i) : freqAt t i ≤ total := by
  obtain ⟨x, hx, rfl⟩ := List.mem_map.mp ((h.mem_iff i).mp hi)
  rw [h.freq x hx, ← h.sum]
  exact List.single_le_sum (by simp) _ (List.mem_map_of_mem (f := fun x : Entry => x.freq.toNat) hx)

theorem Queue.perm {pq' : List Entry} (h : Queue t r n total pq) (hperm : pq.Perm pq') : Queue t r n total pq' where
  mem_iff i := (h.mem_iff i).trans (hperm.map Entry.idx).mem_iff
  nodup := (hperm.map Entry.idx).nodup_iff.mp h.nodup
  freq z hz := h.freq z (hperm.mem_iff.mpr hz)
  sum := (hperm.map fun x => x.freq.toNat).sum_eq.symm.trans h.sum
  below := h.below

/-- R133: entries in order are nodes in order. -/
theorem Queue.comesBefore (h : Queue t r n total pq) (hx : x ∈ pq) (hy : y ∈ pq) (hxy : entryBefore x y = true) :
    comesBefore t x.idx y.idx := by
  rw [Claims.comesBefore, h.freq x hx, h.freq y hy]
  exact entryBefore_iff.mp hxy

/-- R135, R136: node n made over the two entries that come first. -/
theorem Queue.mergedAt (h : Queue t r n total (x :: y :: rest)) (htotal : total < 2 ^ 32) (hn : n < Config.maxNodes)
    (hnode : t.node[n]? = some (internalNode (x.freq + y.freq) x.idx y.idx))
    (hx : ∀ z ∈ y :: rest, entryBefore x z = true) (hy : ∀ z ∈ rest, entryBefore y z = true) :
    MergedAt t r n ∧ freqAt t n = x.freq.toNat + y.freq.toNat := by
  have hsum := h.sum
  simp only [List.map_cons, List.sum_cons] at hsum
  have hfreq : (x.freq + y.freq).toNat = x.freq.toNat + y.freq.toNat := by
    rw [BitVec.toNat_add, Nat.mod_eq_of_lt (by omega)]
  have index {z : Entry} (hz : z ∈ x :: y :: rest) : (BitVec.ofNat 9 z.idx).toNat = z.idx := by
    obtain ⟨hlt, -⟩ := h.mem hz
    exact toNat_index (hlt.trans hn)
  refine ⟨⟨_, x.idx, y.idx, hnode, rfl, rfl, index (by simp), index (by simp), h.mem (by simp), h.mem (by simp),
    h.comesBefore (by simp) (by simp) (hx y (by simp)), fun z hz hzx hzy => ?_, ?_⟩, (freqAt_of_node hnode).trans hfreq⟩
  · obtain ⟨z, hmem, rfl⟩ := List.mem_map.mp ((h.mem_iff z).mp hz)
    obtain rfl | rfl | hrest : z = x ∨ z = y ∨ z ∈ rest := by simpa using hmem
    · exact absurd rfl hzx
    · exact absurd rfl hzy
    · exact h.comesBefore (by simp) hmem (hy z hrest)
  · rw [h.freq x (by simp), h.freq y (by simp)]
    exact hfreq

/-- The queue once internal node n is made: its two children leave and it enters. -/
theorem inQueue_succ (hr : r ≤ n) {e : Node} (hnode : t.node[n]? = some e)
    (hbelow : ∀ m e, r ≤ m → m < n → t.node[m]? = some e → e.left.toNat < m ∧ e.right.toNat < m)
    (hleft : e.left.toNat < n) (hright : e.right.toNat < n) (i : Nat) :
    inQueue t r (n + 1) i ↔ i = n ∨ (inQueue t r n i ∧ i ≠ e.left.toNat ∧ i ≠ e.right.toNat) := by
  constructor
  · rintro ⟨hlt, hfree⟩
    obtain ⟨h1, h2⟩ := hfree n e hr (Nat.lt_succ_self n) hnode
    by_cases hi : i = n
    · exact .inl hi
    · exact .inr ⟨⟨by omega, fun m e' hm hmn => hfree m e' hm (by omega)⟩, h1.symm, h2.symm⟩
  · rintro (rfl | ⟨⟨hlt, hfree⟩, h1, h2⟩)
    · refine ⟨Nat.lt_succ_self i, fun m e' hm hmn he' => ?_⟩
      obtain rfl | hne := eq_or_ne m i
      · obtain rfl := Option.some.inj (hnode.symm.trans he')
        omega
      · have := hbelow m e' hm (by omega) he'
        omega
    · refine ⟨by omega, fun m e' hm hmn he' => ?_⟩
      obtain rfl | hne := eq_or_ne m n
      · obtain rfl := Option.some.inj (hnode.symm.trans he')
        exact ⟨h1.symm, h2.symm⟩
      · exact hfree m e' hm (by omega) he'

/-- R135: a merge keeps the queue. -/
theorem Queue.merge (h : Queue t r n total (x :: y :: rest)) (hr : r ≤ n) (hn : n < Config.maxNodes)
    (hnode : t.node[n]? = some (internalNode (x.freq + y.freq) x.idx y.idx))
    (hfreq : freqAt t n = x.freq.toNat + y.freq.toNat) :
    Queue t r (n + 1) total (mergedEntry x y n :: rest) := by
  have hxn : x.idx < n := (h.mem (by simp)).1
  have hyn : y.idx < n := (h.mem (by simp)).1
  have hleft : (BitVec.ofNat 9 x.idx).toNat = x.idx := toNat_index (hxn.trans hn)
  have hright : (BitVec.ofNat 9 y.idx).toNat = y.idx := toNat_index (hyn.trans hn)
  have hnodup := h.nodup
  simp only [List.map_cons, List.nodup_cons, List.mem_cons, not_or] at hnodup
  obtain ⟨⟨-, hx⟩, hy, hrest⟩ := hnodup
  have hmerged : (mergedEntry x y n).freq.toNat = x.freq.toNat + y.freq.toNat :=
    (freqAt_of_node hnode).symm.trans hfreq
  refine ⟨fun i => ?_, ?_, fun z hz => ?_, ?_, fun m e hm hmn he => ?_⟩
  · rw [inQueue_succ hr hnode h.below (hleft.trans_lt hxn) (hright.trans_lt hyn), h.mem_iff,
      internalNode, hleft, hright]
    simp only [List.map_cons, List.mem_cons, mergedEntry]
    constructor
    · tauto
    · rintro (hi | hi)
      · exact .inl hi
      · exact .inr ⟨.inr (.inr hi), fun h => hx (h ▸ hi), fun h => hy (h ▸ hi)⟩
  · refine List.nodup_cons.mpr ⟨fun hmem => ?_, hrest⟩
    have hqueued := (h.mem_iff n).mpr (List.mem_cons_of_mem _ (List.mem_cons_of_mem _ hmem))
    exact Nat.lt_irrefl n hqueued.1
  · obtain rfl | hz := List.mem_cons.mp hz
    · exact hfreq.trans hmerged.symm
    · exact h.freq z (by simp [hz])
  · have hsum := h.sum
    simp only [List.map_cons, List.sum_cons] at hsum ⊢
    omega
  · obtain rfl | hne := eq_or_ne m n
    · obtain rfl := Option.some.inj (hnode.symm.trans he)
      exact ⟨hleft.trans_lt hxn, hright.trans_lt hyn⟩
    · exact h.below m e hm (by omega) he

/-- R139: the last node made is the one member left, and its frequency the sum of all. -/
theorem Queue.freqAt_last (h : Queue t r n total [x]) (hr : r ≤ n) (hpos : 0 < r) : freqAt t (n - 1) = total := by
  have hlast : inQueue t r n (n - 1) := by
    refine ⟨by omega, fun m e hm hmn he => ?_⟩
    have := h.below m e hm hmn he
    omega
  obtain ⟨z, hz, hidx⟩ := List.mem_map.mp ((h.mem_iff _).mp hlast)
  obtain rfl : z = x := by simpa using hz
  rw [← hidx, h.freq z hz, ← h.sum]
  simp

/-- R135, R136, R139: every merge takes the two first of the queue, no frequency passes the sum of the counts, and the
last node's is that sum. -/
theorem Merges.mergedAt (h : Merges n pq es) (hq : Queue t r n total pq) (hr : r ≤ n) (hpos : 0 < r)
    (htotal : total < 2 ^ 32) (hn : n + es.length ≤ Config.maxNodes)
    (hstored : ∀ k, k < es.length → t.node[n + k]? = es[k]?) :
    (∀ k, n ≤ k → k < n + es.length → MergedAt t r k ∧ freqAt t k ≤ total) ∧
      freqAt t (n + es.length - 1) = total := by
  induction h with
  | last n x => exact ⟨fun k hk hk' => by simp at hk'; omega, hq.freqAt_last hr hpos⟩
  | @merge n pq rest x y es hperm hx hy h ih =>
    rw [List.length_cons] at hn hstored ⊢
    have hq := hq.perm hperm
    have hnode : t.node[n]? = some (internalNode (x.freq + y.freq) x.idx y.idx) := by
      simpa using hstored 0 (by omega)
    obtain ⟨hmerged, hfreq⟩ := hq.mergedAt htotal (by omega) hnode hx hy
    have hnext := hq.merge hr (by omega) hnode hfreq
    obtain ⟨hall, hlast⟩ := ih hnext (by omega) (by omega) fun k hk => by
      simpa [Nat.add_assoc, Nat.add_comm 1] using hstored (k + 1) (by omega)
    refine ⟨fun k hk hk' => ?_, by rw [← hlast]; congr 1; omega⟩
    obtain rfl | hne := eq_or_ne k n
    · exact ⟨hmerged, hnext.freqAt_le (hnext.mem (x := mergedEntry x y k) (by simp))⟩
    · exact hall k (by omega) (by omega)

end

/-! ### BUILD's body (R132 to R137) -/

/-- s with these entries as its trie, r of them leaves (R137). -/
def State.withTrie (s : State) (es : List Node) (r : Nat) : State :=
  { s.storeNodes 0 es with
    root := BitVec.ofNat 9 (es.length - 1), nnodes := BitVec.ofNat 10 es.length, nleaves := BitVec.ofNat 9 r
    trieValid := true }

section
variable {s : State}

theorem leafEntries_idx (s : State) (n : Nat) (bs : List Byte) :
    (s.leafEntries n bs).map Entry.idx = List.range' n bs.length := by
  rw [State.leafEntries, List.map_map, ← List.zipIdx_map_snd n bs]
  rfl

theorem idx_lt_of_mem_leafEntries {bs : List Byte} {x : Entry} (hx : x ∈ s.leafEntries 0 bs) : x.idx < bs.length := by
  have hmem := List.mem_map_of_mem (f := Entry.idx) hx
  rw [leafEntries_idx, List.mem_range'_1] at hmem
  omega

/-- R132 to R137: BUILD stores the leaves of the present byte values and the entries of the merges, which depend on FREQ
alone. -/
theorem buildTrie_run (h : s.presentBytes ≠ []) : ∃ es,
    Merges s.presentBytes.length (s.leafEntries 0 s.presentBytes) es ∧ ∀ s' : State, s'.freq = s.freq →
      buildTrie s' = .ok () (s'.withTrie (s.leafNodes s.presentBytes ++ es) s.presentBytes.length) := by
  generalize hbs : s.presentBytes = bs at *
  have hlen := length_leafEntries s 0 bs
  have hpos := List.length_pos_iff.mpr h
  have hidx := leafEntries_idx s 0 bs
  obtain ⟨es, hes, hrun⟩ := mergeLoop_run (pq := s.leafEntries 0 bs) bs.length (n := bs.length)
    (by rw [← List.length_pos_iff]; omega) (by omega) (hidx ▸ List.nodup_range') fun x hx =>
      idx_lt_of_mem_leafEntries hx
  refine ⟨es, hes, fun s' hfreq => ?_⟩
  have hof : s'.freqOf = s.freqOf := by funext b; simp only [State.freqOf, hfreq]
  have hpresent : s'.seeds = bs := by rw [seeds_eq_presentBytes, ← hbs, State.presentBytes, State.presentBytes, hof]
  have hseed := seedLoop_run bs [] s'
  have hnodes : s'.leafNodes bs = s.leafNodes bs := by rw [State.leafNodes, State.leafNodes, hof]
  have hentries : s'.leafEntries 0 bs = s.leafEntries 0 bs := by rw [State.leafEntries, State.leafEntries, hof]
  rw [List.length_nil, List.nil_append, hnodes, hentries] at hseed
  rw [buildTrie, run_bind_ok (run_get s'), hpresent, run_bind_ok hseed, hlen, if_neg (by omega), run_bind_ok (hrun _),
    run_modify, State.withTrie, storeNodes_append, List.length_append, length_leafNodes, Nat.zero_add]

/-- R137: NODE after BUILD: the entries made, and above them the old ones. -/
theorem getElem?_withTrie {es : List Node} (hn : es.length ≤ Config.maxNodes) (r j : Nat) :
    (s.withTrie es r).node[j]? = if j < es.length then es[j]? else s.node[j]? := by
  have hget := getElem?_storeNodes (s := s) (n := 0) (es := es) (by omega) j
  show (s.storeNodes 0 es).node[j]? = _
  simpa using hget

end

/-- R132: BUILD with valid counts of which one is not 0. -/
theorem exec_build {s : State} (hvalid : s.freqValid = true) (h : s.presentBytes ≠ []) : ∃ es,
    Merges s.presentBytes.length (s.leafEntries 0 s.presentBytes) es ∧
    es.length + 1 = s.presentBytes.length ∧ exec .build s = .next (finished
      (s.dropTrie.withTrie (s.leafNodes s.presentBytes ++ es) s.presentBytes.length)) := by
  obtain ⟨es, hes, hrun⟩ := buildTrie_run h
  refine ⟨es, hes, by simpa using hes.length, exec_of_ok ?_⟩
  rw [commandBody, run_bind_ok (a := ()) (t := s) (by rw [needFreq_run, if_pos hvalid]), buildBody_eq,
    run_bind_ok (run_modify _ s), hrun s.dropTrie (by simp)]

/-- Settles O19: with no present byte value the seeding leaves PQ empty. -/
theorem buildWithoutLeavesIsEmptyInput : Obligations.BuildWithoutLeavesIsEmptyInput := by
  unfold Obligations.BuildWithoutLeavesIsEmptyInput
  intro s hvalid hzero
  have hempty : s.dropTrie.presentBytes = [] := List.filter_eq_nil_iff.mpr fun b _ => by
    simp [show s.dropTrie.freqOf b = 0 from hzero b]
  refine exec_of_error (s := s) (i := .build) (t := s.dropTrie) ?_
  rw [commandBody, run_bind_ok (a := ()) (t := s) (by rw [needFreq_run, if_pos hvalid]), buildBody_eq,
    run_bind_ok (run_modify _ s), buildTrie_empty hempty]

/-- Settles O20: the seeding stores the leaves, and the merges store one entry less behind them. -/
theorem buildSeedsOneLeafPerPresentByte : Obligations.BuildSeedsOneLeafPerPresentByte := by
  unfold Obligations.BuildSeedsOneLeafPerPresentByte
  intro s hvalid hpresent
  obtain ⟨es, -, hes, hexec⟩ := exec_build hvalid hpresent
  have hle := length_presentBytes_le s
  have hlen : (s.leafNodes s.presentBytes ++ es).length = 2 * s.presentBytes.length - 1 := by
    rw [List.length_append, length_leafNodes]
    omega
  have hget := getElem?_withTrie (s := s.dropTrie) (es := s.leafNodes s.presentBytes ++ es)
    (by rw [hlen]; simp only [Config.maxNodes]; omega) s.presentBytes.length
  rw [hlen] at hget
  refine ⟨_, hexec, ?_, hle, nodup_presentBytes s, ?_, ?_, ?_, fun k b hk => ?_, fun i hi => ?_⟩
  · rw [State.withTrie, storeNodes_frame]
    rfl
  · exact Nat.mod_eq_of_lt (by omega)
  · exact (Nat.mod_eq_of_lt (by omega)).trans hlen
  · exact (Nat.mod_eq_of_lt (by omega)).trans (by omega)
  · obtain ⟨hlt, -⟩ := List.getElem?_eq_some_iff.mp hk
    refine (hget k).trans ?_
    rw [if_pos (by omega), List.getElem?_append_left (by simpa using hlt), State.leafNodes, List.getElem?_map, hk]
    rfl
  · exact (hget i).trans ((if_neg (by omega)).trans (by simp))

section
variable {s t : State}

/-- R131: the byte values that do not occur add nothing to the sum. -/
theorem sum_presentBytes (s : State) : (s.presentBytes.map fun b => (s.freqOf b).toNat).sum = s.freqSum := by
  rw [State.presentBytes, State.freqSum]
  induction allBytes with
  | nil => rfl
  | cons b l ih =>
    rw [List.map_cons, List.sum_cons, ← ih]
    by_cases hb : s.freqOf b = 0
    · rw [List.filter_cons_of_neg (by simpa using hb), hb]
      exact (Nat.zero_add _).symm
    · rw [List.filter_cons_of_pos (by simpa using hb), List.map_cons, List.sum_cons]

/-- R133, R134: PQ over the leaves before the first merge. -/
theorem queue_leafEntries (h : ∀ (k : Nat) (b : Byte), s.presentBytes[k]? = some b →
      t.node[k]? = some { leaf := true, left := 0, right := 0, sym := b, freq := s.freqOf b }) :
    Queue t s.presentBytes.length s.presentBytes.length s.freqSum (s.leafEntries 0 s.presentBytes) := by
  have hidx := leafEntries_idx s 0 s.presentBytes
  refine ⟨fun i => ?_, hidx ▸ List.nodup_range', fun x hx => ?_, ?_, fun m e hm hm' => by omega⟩
  · rw [hidx, List.mem_range'_1]
    exact ⟨fun hq => ⟨Nat.zero_le i, by simpa using hq.1⟩, fun hi => ⟨by simpa using hi.2, fun m e hm hm' => by omega⟩⟩
  · obtain ⟨p, hp, rfl⟩ := List.mem_map.mp hx
    exact freqAt_of_node (h _ _ (List.mem_zipIdx_iff_getElem?.mp hp))
  · rw [← sum_presentBytes s, State.leafEntries, List.map_map]
    conv_rhs => rw [← List.zipIdx_map_fst 0 s.presentBytes, List.map_map]
    rfl

/-- R133 to R139: what BUILD leaves, where the counts sum below 2^32. -/
theorem exec_build_merged (hvalid : s.freqValid = true) (hpresent : s.presentBytes ≠ [])
    (hsum : s.freqSum < 2 ^ 32) : ∃ t, exec .build s = .next t ∧
      t.nnodes.toNat = 2 * s.presentBytes.length - 1 ∧
      (∀ (k : Nat) (b : Byte), s.presentBytes[k]? = some b →
        t.node[k]? = some { leaf := true, left := 0, right := 0, sym := b, freq := s.freqOf b }) ∧
      (∀ n, s.presentBytes.length ≤ n → n < 2 * s.presentBytes.length - 1 → MergedAt t s.presentBytes.length n) ∧
      (∀ n, n < 2 * s.presentBytes.length - 1 → freqAt t n ≤ s.freqSum) ∧ freqAt t t.root.toNat = s.freqSum := by
  obtain ⟨t, hexec, -, hle, -, -, hnnodes, hroot, hleaves, -⟩ := buildSeedsOneLeafPerPresentByte s hvalid hpresent
  obtain ⟨es, hes, hlen, hexec'⟩ := exec_build hvalid hpresent
  have hpos := List.length_pos_iff.mpr hpresent
  have hstored (k : Nat) (hk : k < es.length) : t.node[s.presentBytes.length + k]? = es[k]? := by
    obtain rfl := Host.Outcome.next.inj (hexec'.symm.trans hexec)
    have hget := getElem?_withTrie (s := s.dropTrie) (es := s.leafNodes s.presentBytes ++ es)
      (by rw [List.length_append, length_leafNodes]; simp only [Config.maxNodes]; omega) s.presentBytes.length
      (s.presentBytes.length + k)
    refine hget.trans ?_
    rw [if_pos (by rw [List.length_append, length_leafNodes]; omega),
      List.getElem?_append_right (by rw [length_leafNodes]; omega), length_leafNodes, Nat.add_sub_cancel_left]
  have hqueue := queue_leafEntries hleaves
  obtain ⟨hmerged, hlast⟩ :=
    hes.mergedAt hqueue (Nat.le_refl _) hpos hsum (by simp only [Config.maxNodes]; omega) hstored
  refine ⟨t, hexec, hnnodes, hleaves, fun n hn hn' => (hmerged n hn (by omega)).1, fun n hn => ?_, ?_⟩
  · obtain hlt | hge := Nat.lt_or_ge n s.presentBytes.length
    · exact hqueue.freqAt_le ⟨hlt, fun m e hm hm' => by omega⟩
    · exact (hmerged n hge (by omega)).2
  · rw [← hlast, hroot]
    congr 1
    omega

end

/-- Settles O21: each merge takes the two entries of PQ that come first, and PQ's entries are the nodes not yet
taken. -/
theorem buildMergesTheTwoFirstOfTheQueue : Obligations.BuildMergesTheTwoFirstOfTheQueue := by
  unfold Obligations.BuildMergesTheTwoFirstOfTheQueue
  intro s hvalid hpresent hsum
  obtain ⟨t, hexec, -, -, hmerged, -⟩ := exec_build_merged hvalid hpresent hsum
  exact ⟨t, hexec, hmerged⟩

/-! ### The sums (R139) -/

section
variable {nodes : Vector Node Config.maxNodes} {fuel i : Nat} {e : Node}

theorem leafFreqAt_leaf (he : nodes[i]? = some e) (hleaf : e.leaf = true) :
    leafFreqAt nodes (fuel + 1) i = some e.freq.toNat := by
  obtain ⟨hi, rfl⟩ := Vector.getElem?_eq_some_iff.mp he
  simp [leafFreqAt, hi, hleaf]

theorem leafFreqAt_node {l r : Nat} (he : nodes[i]? = some e) (hleaf : e.leaf = false)
    (hl : leafFreqAt nodes fuel e.left.toNat = some l) (hr : leafFreqAt nodes fuel e.right.toNat = some r) :
    leafFreqAt nodes (fuel + 1) i = some (l + r) := by
  obtain ⟨hi, rfl⟩ := Vector.getElem?_eq_some_iff.mp he
  simp [leafFreqAt, hi, hleaf, hl, hr]

/-- R139: where r leaves stand first and every later node is a merge of two before it, a node's frequency is the sum of
those of the leaves below it. Below node i lie at most i + 1 - r internal nodes one under the other (R51). -/
theorem leafFreqAt_of_mergedAt {t : State} {r m : Nat}
    (hleaves : ∀ k, k < r → ∃ e, t.node[k]? = some e ∧ e.leaf = true)
    (hmerged : ∀ n, r ≤ n → n < m → MergedAt t r n) (hi : i < m) (hfuel : i + 1 - r < fuel) :
    leafFreqAt t.node fuel i = some (freqAt t i) := by
  induction fuel generalizing i with
  | zero => omega
  | succ fuel ih =>
    obtain hlt | hge := Nat.lt_or_ge i r
    · obtain ⟨e, he, hleaf⟩ := hleaves i hlt
      rw [leafFreqAt_leaf he hleaf, freqAt_of_node he]
    · obtain ⟨e, x, y, he, hleaf, -, rfl, rfl, ⟨hx, -⟩, ⟨hy, -⟩, -, -, hfreq⟩ := hmerged i hge hi
      rw [leafFreqAt_node he hleaf (ih (by omega) (by omega)) (ih (by omega) (by omega)), freqAt_of_node he, hfreq]

end

/-- Settles O23: the leaves have the counts of the input, every merge the sum of its two nodes, and the last merge
the sum of all. -/
theorem nodeFrequencySumsItsLeaves : Obligations.NodeFrequencySumsItsLeaves := by
  unfold Obligations.NodeFrequencySumsItsLeaves
  intro s hcap hne
  obtain ⟨u, htab, hu, -, hsum⟩ := exec_tabulate hcap
  have hpresent : (finished u).presentBytes ≠ [] := fun hnil => by
    have hzero : u.freqSum = 0 := by rw [← sum_presentBytes, show u.presentBytes = [] from hnil]; rfl
    exact hne (BitVec.eq_of_toNat_eq (hsum.symm.trans hzero))
  have hvalid : (finished u).freqValid = true := by rw [hu]; rfl
  have hle := length_presentBytes_le (finished u)
  obtain ⟨t, hexec, hnnodes, hleaves, hmerged, hbound, hroot⟩ := exec_build_merged hvalid hpresent
    (show u.freqSum < 2 ^ 32 from hsum ▸ s.inLen.isLt)
  refine ⟨finished u, t, htab, hexec, fun i hi => ?_, hroot, hroot.trans hsum, fun i hi => ?_⟩
  · rw [hnnodes] at hi
    refine leafFreqAt_of_mergedAt (fun k hk => ?_) hmerged hi (by simp only [Config.maxDepth]; omega)
    exact ⟨_, hleaves k _ (List.getElem?_eq_getElem hk), rfl⟩
  · exact (hbound i (hnnodes ▸ hi)).trans_eq hsum

end Sys2Proof.Machine
end

section
/-! PROOFS. What COMPRESS depends on and what it can raise (R155, R156, R201): it reads no byte past IBUF, its tables
follow from the input alone, and it writes its unit as a sequence of fields that the tables fix. -/

namespace Sys2Proof.Machine

open Sys2Proof.Claims

/-! ### The input lies in IBUF (R60) -/

section
variable {s t : State}

/-- What holds before a body holds wherever it ends. -/
theorem post_const {α : Type} {P : Prop} (hP : P) (x : Engine α) (s : State) :
    Post x s (fun _ _ => P) (fun _ _ => P) :=
  (post_true x s).mono (fun _ _ _ => hP) fun _ _ _ => hP

/-- R60: a pass of the counting loop stops the model unless its byte exists. -/
theorem post_countByte_inside (i : Nat) (s : State) :
    Post (countByte i) s (fun _ t => i < s.capIn.toNat ∧ t.capIn = s.capIn) (fun _ _ => False) := by
  rw [countByte, post_bind, ibufRead, post_bind, post_get]
  refine post_ite (fun hi => ?_) fun _ => trivial
  rw [post_pure, post_modify]
  exact ⟨hi, rfl⟩

theorem post_countLoop_inside (l : List Nat) (s : State) :
    Post (l.forM countByte) s (fun _ _ => ∀ i ∈ l, i < s.capIn.toNat) (fun _ _ => False) := by
  induction l generalizing s with
  | nil => exact (post_pure ()).mpr (by simp)
  | cons i l ih =>
    rw [List.forM_eq_forM, List.forM_cons, post_bind]
    refine (post_countByte_inside i s).mono (fun _ t ⟨hi, hcap⟩ => ?_) fun _ _ h => h
    refine (ih t).mono (fun _ _ hl => ?_) fun _ _ h => h
    exact List.forall_mem_cons.mpr ⟨hi, hcap ▸ hl⟩

/-- R32, R60: TABULATE ends only over an input that lies in IBUF. -/
theorem post_tabulateBody_inside (s : State) :
    Post tabulateBody s (fun _ _ => s.inLen.toNat ≤ s.capIn.toNat) (fun _ _ => False) := by
  rw [tabulateBody, post_bind, post_modify, post_bind, post_get, post_bind]
  refine (post_countLoop_inside _ s.clearFreq).mono (fun _ t hl => ?_) fun _ _ h => h
  by_contra hover
  exact absurd (hl s.capIn.toNat (List.mem_range.mpr (Nat.not_le.mp hover))) (Nat.lt_irrefl _)

/-- R155: COMPRESS of a non-empty input ends only over an input that lies in IBUF. -/
theorem inLen_le_of_compress (hne : s.inLen ≠ 0) (h : exec .compress s = .next t) :
    s.inLen.toNat ≤ s.capIn.toNat := by
  have hrun : commandBody s .compress s = compressUnit s.inLen s.resetPacker :=
    (compressBody_run s).trans (if_neg fun hempty => hne hempty.1)
  have hpost : Post (compressUnit s.inLen) s.resetPacker (fun _ _ => s.inLen.toNat ≤ s.capIn.toNat)
      (fun _ _ => s.inLen.toNat ≤ s.capIn.toNat) := by
    rw [compressUnit, if_neg hne, post_bind]
    exact (post_tabulateBody_inside s.resetPacker).mono (fun _ t hle => post_const hle _ t) fun _ _ h => h.elim
  obtain ⟨u, hu, -⟩ | ⟨e, sub, info, u, hu, -⟩ := exec_next h
  · exact hpost.ok (hrun ▸ hu)
  · exact hpost.error (hrun ▸ hu)

/-- R155: COMPRESS over a non-empty input ends with DONE, or with OUTPUT_OVERFLOW. -/
theorem exec_compress_errCode (hne : s.inLen ≠ 0) (herr : s.err = false) (h : exec .compress s = .next t)
    (ht : t.err = true) : t.errCode = .outputOverflow := by
  obtain ⟨-, -, w, t', -, bits, -, -, -, -, -, -, -, -, -, -, h', hfits, hover, -⟩ :=
    compressWritesTheUnit s hne (inLen_le_of_compress hne h)
  obtain rfl : t' = t := Host.Outcome.next.inj (h'.symm.trans h)
  obtain hroom | hroom := le_or_gt bits.length (8 * s.capOut.toNat)
  · obtain ⟨hend, -⟩ := hfits hroom
    rw [hend] at ht
    exact absurd (herr.symm.trans ht) (by decide)
  · obtain ⟨hend, -⟩ := hover hroom
    rw [hend]
    rfl

/-- R160: COMPRESS over an empty input ends with DONE, with EMPTY_INPUT, or with OUTPUT_OVERFLOW. -/
theorem exec_compress_empty_errCode (hlen : s.inLen = 0) (herr : s.err = false) (h : exec .compress s = .next t)
    (ht : t.err = true) : t.errCode ∈ [.emptyInput, .outputOverflow] := by
  obtain ⟨hraise, hfits, hover⟩ := compressOfAnEmptyInput s hlen
  have result {t' : State} (h' : exec .compress s = .next t') : t' = t := Host.Outcome.next.inj (h'.symm.trans h)
  cases hmode : s.emptyMode with
  | true =>
    obtain rfl := result (hraise hmode)
    simp [failed]
  | false =>
    obtain hroom | hroom := Nat.lt_or_ge s.capOut.toNat 6
    · obtain ⟨t', h', hend, -⟩ := hover hmode hroom
      obtain rfl := result h'
      rw [hend]
      simp [failed]
    · obtain ⟨t', h', hend, -⟩ := hfits hmode hroom
      obtain rfl := result h'
      rw [hend] at ht
      exact absurd (herr.symm.trans ht) (by decide)

end

/-- Settles O45: a command's pseudocode raises its own errors alone, and COMPRESS gives every input byte a code. -/
theorem commandsRaiseOnlyTheirOwnErrors : Obligations.CommandsRaiseOnlyTheirOwnErrors := by
  unfold Obligations.CommandsRaiseOnlyTheirOwnErrors
  intro i s t herr h ht
  by_cases hi : i = .compress
  · subst hi
    by_cases hlen : s.inLen = 0
    · exact exec_compress_empty_errCode hlen herr h ht
    · simp [raisedBy, exec_compress_errCode hlen herr h ht]
  · have hown : raisedBy i = mayRaise i := by
      cases i with
      | compress => exact absurd rfl hi
      | _ => rfl
    obtain ⟨-, ⟨-, hkept, -⟩ | ⟨-, -, hcode⟩⟩ := exec_status h
    · rw [hkept, herr] at ht
      exact absurd ht (by decide)
    · exact hown ▸ hcode

/-! ### The tables follow from the input (R131 to R142) -/

section
variable {nodes nodes' : Vector Node Config.maxNodes} {m fuel i : Nat}

/-- Two stores that agree below m, where the children of every node below m lie below m too, hold the same tries
there. -/
theorem trieAt_congr (hagree : ∀ j, j < m → nodes'[j]? = nodes[j]?)
    (hbelow : ∀ j e, j < m → nodes[j]? = some e → e.leaf = false → e.left.toNat < m ∧ e.right.toNat < m) (hi : i < m) :
    trieAt nodes' fuel i = trieAt nodes fuel i := by
  induction fuel generalizing i with
  | zero => rfl
  | succ fuel ih =>
    have hnode := hagree i hi
    by_cases hin : i < Config.maxNodes
    · have hsome : nodes'[i] = nodes[i] := by simpa [hin] using hnode
      simp only [trieAt, hin, dif_pos, hsome]
      cases hleaf : nodes[i].leaf with
      | true => rfl
      | false =>
        obtain ⟨hl, hr⟩ := hbelow i nodes[i] hi (by simp [hin]) hleaf
        rw [ih hl, ih hr]
    · simp [trieAt, hin]

/-- R135: the children of a merge are older than the last node. -/
theorem Merges.children_lt {n : Nat} {pq : List Entry} {es : List Node} (h : Merges n pq es)
    (hidx : ∀ x ∈ pq, x.idx < n) (hn : n + es.length ≤ Config.maxNodes) :
    ∀ e ∈ es, e.left.toNat < n + es.length ∧ e.right.toNat < n + es.length := by
  induction h with
  | last => simp
  | @merge n pq rest x y es hperm hx hy h ih =>
    rw [List.length_cons] at hn ⊢
    have hmem (z : Entry) (hz : z ∈ x :: y :: rest) : z.idx < n := hidx z (hperm.mem_iff.mpr hz)
    intro e he
    obtain rfl | he := List.mem_cons.mp he
    · have hxn := hmem x (by simp)
      have hyn := hmem y (by simp)
      simp only [internalNode, toNat_index (hxn.trans (by omega)), toNat_index (hyn.trans (by omega))]
      omega
    · have := ih (idx_lt_of_merged hperm hidx) (by omega) e he
      omega

end

section
variable {s s' t t' u u' v v' w w' : State} {tr tr' : Trie}

/-- R132 to R137: the trie that BUILD makes depends on FREQ alone. -/
theorem trie_of_buildBody (hfreq : u'.freq = u.freq) (h : buildBody u = .ok () v) (h' : buildBody u' = .ok () v') :
    v'.trie = v.trie := by
  rw [buildBody_eq, run_bind_ok (run_modify _ _)] at h h'
  obtain hnil | hpresent := eq_or_ne u.dropTrie.presentBytes []
  · rw [buildTrie_empty hnil] at h
    cases h
  obtain ⟨es, hes, hrun⟩ := buildTrie_run hpresent
  have hlen := hes.length
  have hle := length_presentBytes_le u.dropTrie
  have hpos := List.length_pos_iff.mpr hpresent
  rw [length_leafEntries] at hlen
  obtain rfl : _ = v := by simpa using (hrun _ rfl).symm.trans h
  obtain rfl : _ = v' := by simpa using (hrun u'.dropTrie (by simpa using hfreq)).symm.trans h'
  have hchildren := hes.children_lt (fun _ => idx_lt_of_mem_leafEntries) (by simp only [Config.maxNodes]; omega)
  generalize hN : u.dropTrie.leafNodes u.dropTrie.presentBytes ++ es = N
  have hNlen : N.length = u.dropTrie.presentBytes.length + es.length := by
    rw [← hN, List.length_append, length_leafNodes]
  have hget (s : State) (j : Nat) (hj : j < N.length) :
      (s.withTrie N u.dropTrie.presentBytes.length).node[j]? = N[j]? :=
    (getElem?_withTrie (by simp only [Config.maxNodes]; omega) _ j).trans (if_pos hj)
  refine trieAt_congr (m := N.length) (fun j hj => (hget _ j hj).trans (hget _ j hj).symm)
    (fun j e hj he hleaf => ?_) ?_
  · have hmem : e ∈ N := List.mem_of_getElem? ((hget _ j hj).symm.trans he)
    rw [← hN] at hmem
    obtain hmem | hmem := List.mem_append.mp hmem
    · obtain ⟨b, -, rfl⟩ := List.mem_map.mp hmem
      simp [leafNode] at hleaf
    · exact hNlen ▸ hchildren e hmem
  · exact (Nat.mod_le _ _).trans_lt (by omega)

/-- R131: FREQ after TABULATE depends on the input alone. -/
theorem freq_of_tabulateBody (hcap : s.inLen.toNat ≤ s.capIn.toNat) (hcap' : s'.inLen.toNat ≤ s'.capIn.toNat)
    (hin : s'.inBytes = s.inBytes) (h : tabulateBody s = .ok () u) (h' : tabulateBody s' = .ok () u') :
    u'.freq = u.freq := by
  obtain ⟨t, ht, -, hcount⟩ := tabulateBody_ok hcap
  obtain ⟨t', ht', -, hcount'⟩ := tabulateBody_ok hcap'
  obtain rfl : t = u := by simpa using ht.symm.trans h
  obtain rfl : t' = u' := by simpa using ht'.symm.trans h'
  refine Vector.ext fun i hi => ?_
  have hof : t'.freqOf (BitVec.ofNat 8 i) = t.freqOf (BitVec.ofNat 8 i) :=
    BitVec.eq_of_toNat_eq ((hcount' _).trans (hin ▸ (hcount _).symm))
  simpa [State.freqOf, Nat.mod_eq_of_lt hi] using hof

/-- R141: two code tables that hold the codes of one trie hold the same. -/
theorem code_of_holdsCodes (hcodes : w.holdsCodes tr) (hcodes' : w'.holdsCodes tr) {b : Byte} (hb : b ∈ tr.leaves) :
    w'.code b = w.code b :=
  (hcodes'.1 b _ (mem_codes_of_mem_leaves hcodes hb)).2

end

/-! ### The unit as a sequence of fields (R101, R146, R150, R155) -/

/-- One field written whole or not at all (R101). -/
def writeField (l : List Bool) : Engine PUnit := do
  let s ← get
  if s.hasRoom l.length then set (s.pushBits l) else raise .outputOverflow 0 s.outLen

/-- The fields of a unit, each one write of COMPRESS: those of the trie, the length, and the codes bit by bit (R155). -/
def unitFields (tr : Trie) (inLen : Word) (codes : List Bool) : List (List Bool) :=
  tr.fields ++ msbBits inLen :: codes.map ([·])

section
variable {s t : State} {tr : Trie} {l : List Bool}

theorem writeBits_eq_writeField {n : Nat} (v : BitVec n) : writeBits v = writeField (msbBits v) := by
  simp only [writeBits, writeField, length_msbBits]

/-- Everything a field's write can do. -/
theorem writeField_cases (l : List Bool) (s : State) :
    (s.hasRoom l.length ∧ writeField l s = .ok ⟨⟩ (s.pushBits l)) ∨
    (¬s.hasRoom l.length ∧ writeField l s = .error (.error .outputOverflow 0 s.outLen) s) := by
  by_cases h : s.hasRoom l.length
  · exact .inl ⟨h, by rw [writeField, run_bind_ok (run_get s), if_pos h, run_set]⟩
  · exact .inr ⟨h, by rw [writeField, run_bind_ok (run_get s), if_neg h, run_raise]⟩

/-- t differs from s in the packer and OBUF alone. -/
def OnlyPackerDiffers (s t : State) : Prop := t = s.withPackerOf t

theorem OnlyPackerDiffers.trans {u : State} (h : OnlyPackerDiffers s t) (h' : OnlyPackerDiffers t u) :
    OnlyPackerDiffers s u := by
  rw [OnlyPackerDiffers, h', h]
  rfl

theorem onlyPackerDiffers_of_writeField (h : writeField l s = .ok ⟨⟩ t) : OnlyPackerDiffers s t := by
  obtain ⟨-, hrun⟩ | ⟨-, hrun⟩ := writeField_cases l s
  · rw [hrun] at h
    cases h
    exact pushBits_frame s l
  · rw [hrun] at h
    cases h

theorem onlyPackerDiffers_of_writeFields {ls : List (List Bool)} (h : ls.forM writeField s = .ok ⟨⟩ t) :
    OnlyPackerDiffers s t := by
  induction ls generalizing s with
  | nil => cases h; rfl
  | cons l ls ih =>
    rw [List.forM_eq_forM, List.forM_cons] at h
    obtain ⟨_, u, hu, hrest⟩ := bind_ok_inv h
    exact (onlyPackerDiffers_of_writeField hu).trans (ih hrest)

/-- Two statements that run as two others do. -/
theorem bind_congr_run {α β : Type} {x x' : Engine α} {k k' : α → Engine β} (hx : x s = x' s)
    (hk : ∀ a t, x' s = .ok a t → k a t = k' a t) : (x >>= k) s = (x' >>= k') s := by
  rw [run_bind, run_bind, hx]
  cases h : x' s with
  | ok a t => exact hk a t h
  | error r t => rfl

/-- R146: SERIALIZE writes the fields of the trie. -/
theorem serializeNode_eq_fields {fuel i : Nat} (h : trieAt s.node fuel i = some tr) :
    serializeNode fuel i s = tr.fields.forM writeField s := by
  induction fuel generalizing s i tr with
  | zero => simp [trieAt] at h
  | succ fuel ih =>
    obtain ⟨e, he, ⟨hleaf, rfl⟩ | ⟨hleaf, l, r, rfl, hl, hr⟩⟩ := trieAt_cases h
    · rw [serializeNode, run_bind_ok (nodeAt_ok he), if_pos hleaf, writeBits_eq_writeField, writeBits_eq_writeField]
      simp only [Trie.fields, List.forM_eq_forM, List.forM_cons, List.forM_nil, bind_pure_unit]
      rfl
    · rw [serializeNode, run_bind_ok (nodeAt_ok he), if_neg (by simp [hleaf]), writeBits_eq_writeField]
      simp only [Trie.fields, List.forM_eq_forM, List.forM_cons, List.forM_append]
      simp only [← List.forM_eq_forM]
      refine bind_congr_run rfl fun _ t ht => ?_
      have hnode : t.node = s.node := by rw [onlyPackerDiffers_of_writeField ht]; rfl
      refine bind_congr_run (ih (hnode ▸ hl)) fun _ u hu => ?_
      have hnode' : u.node = t.node := by rw [onlyPackerDiffers_of_writeFields hu]; rfl
      exact ih (hnode' ▸ hnode ▸ hr)

/-- R150: a pass of ENCODE writes the code of its byte bit by bit. -/
theorem encodeByte_eq_fields {i : Nat} (hi : i < s.capIn.toNat)
    (hcode : (s.codeLenOf (s.ibufByte i)).present = true) :
    encodeByte i s = ((s.code (s.ibufByte i)).map ([·])).forM writeField s := by
  rw [encodeByte, run_bind_ok (ibufRead_ok hi), run_bind_ok (run_get s), if_pos hcode]
  simp only [writeBits_eq_writeField, msbBits_ofBool, List.forM_eq_forM, List.forM_map]

/-- R150: ENCODE writes the codes of the input bytes bit by bit. -/
theorem encodePasses_eq_fields (is : List Nat) (hi : ∀ i ∈ is, i < s.capIn.toNat)
    (hcode : ∀ i ∈ is, (s.codeLenOf (s.ibufByte i)).present = true) :
    is.forM encodeByte s = ((is.flatMap fun i => s.code (s.ibufByte i)).map ([·])).forM writeField s := by
  induction is generalizing s with
  | nil => rfl
  | cons i is ih =>
    simp only [List.forM_eq_forM, List.forM_cons, List.flatMap_cons, List.map_append, List.forM_append]
    simp only [← List.forM_eq_forM]
    refine bind_congr_run (encodeByte_eq_fields (hi i (by simp)) (hcode i (by simp))) fun _ t ht => ?_
    have hsame := onlyPackerDiffers_of_writeFields ht
    have hrest := ih (s := t) (fun j hj => by rw [hsame]; exact hi j (by simp [hj]))
      fun j hj => by rw [hsame]; exact hcode j (by simp [hj])
    have hbits : (fun j => t.code (t.ibufByte j)) = fun j => s.code (s.ibufByte j) := by rw [hsame]; rfl
    rw [hrest, hbits]

end

section
variable {s : State} {tr : Trie}

/-- R155: COMPRESS over its tables writes the fields of its unit and flushes. -/
theorem writeUnit_eq_fields (hcap : s.inLen.toNat ≤ s.capIn.toNat) (htrie : s.trie = some tr)
    (hcode : ∀ b ∈ s.inBytes, (s.codeLenOf b).present = true) : writeUnit s.inLen s =
      ((unitFields tr s.inLen (s.inBytes.flatMap s.code)).forM writeField >>= fun _ => flushBits) s := by
  simp only [writeUnit, unitFields, List.forM_eq_forM, List.forM_append, List.forM_cons, bind_assoc]
  simp only [← List.forM_eq_forM]
  refine bind_congr_run ((run_bind_ok (run_get s)).trans (serializeNode_eq_fields htrie)) fun _ t ht => ?_
  rw [writeBits_eq_writeField]
  refine bind_congr_run rfl fun _ u hu => ?_
  have hsame := (onlyPackerDiffers_of_writeFields ht).trans (onlyPackerDiffers_of_writeField hu)
  have hinput : encodeBody u = (List.range s.inLen.toNat).forM encodeByte u := by
    rw [encodeBody, run_bind_ok (run_get u), State.inputLength, hsame]
    rfl
  have hpasses := encodePasses_eq_fields (s := u) (List.range s.inLen.toNat)
    (fun i hi => by rw [hsame]; exact (List.mem_range.mp hi).trans_le hcap)
    fun i hi => by rw [hsame]; exact hcode _ (List.mem_map_of_mem hi)
  have hbits : ((List.range s.inLen.toNat).flatMap fun i => u.code (u.ibufByte i)) = s.inBytes.flatMap s.code := by
    rw [State.inBytes, List.flatMap_map, hsame]
    rfl
  exact bind_congr_run (hinput.trans (hbits ▸ hpasses)) fun _ _ _ => rfl

end

/-! ### The output follows from the fields (R156) -/

/-- The packers of s and s' hold the same, within an OBUF of the same size. -/
structure SamePacker (s s' : State) : Prop where
  capOut : s'.capOut = s.capOut
  inside : s.outLen.toNat ≤ s.capOut.toNat
  outLen : s'.outLen = s.outLen
  wacc : s'.wacc = s.wacc
  wcnt : s'.wcnt = s.wcnt
  outBytes : s'.outBytes = s.outBytes

/-- From s and s' x ends the same way, well or with OUTPUT_OVERFLOW, with packers that hold the same. -/
def RunsAlike (x : Engine PUnit) (s s' : State) : Prop :=
  (∃ t t', x s = .ok ⟨⟩ t ∧ x s' = .ok ⟨⟩ t' ∧ SamePacker t t') ∨
  ∃ t t' info, x s = .error (.error .outputOverflow 0 info) t ∧ x s' = .error (.error .outputOverflow 0 info) t' ∧
    SamePacker t t'

section
variable {s s' : State} {x y : Engine PUnit} {l : List Bool} {n : Nat}

theorem SamePacker.hasRoom_iff (h : SamePacker s s') : s'.hasRoom n ↔ s.hasRoom n := by
  simp only [State.hasRoom, h.capOut, h.outLen, h.wcnt]

/-- A byte completed within OBUF is completed alike. -/
theorem SamePacker.emitByte (h : SamePacker s s') (b : Byte) (hlt : s.outLen.toNat < s.capOut.toNat) :
    SamePacker (s.emitByte b) (s'.emitByte b) := by
  have hnext : s.outLen.toNat + 1 < 2 ^ 32 := by have := s.capOut.isLt; omega
  refine ⟨by simp [h.capOut], by rw [emitByte_outLen b hnext]; simpa, by simp [h.outLen], by simp, by simp, ?_⟩
  rw [outBytes_emitByte b hnext, outBytes_emitByte b (h.outLen ▸ hnext), h.outBytes]

theorem SamePacker.pushBit (h : SamePacker s s') (b : Bool) (hroom : s.hasRoom 1) :
    SamePacker (s.pushBit b) (s'.pushBit b) := by
  by_cases h7 : s.wcnt = 7
  · have h7' : s.wcnt.toNat = 7 := by rw [h7]; rfl
    rw [pushBit_of_full b h7, pushBit_of_full b (h.wcnt.trans h7), h.wacc, h.wcnt]
    exact h.emitByte _ (by simp only [State.hasRoom] at hroom; omega)
  · rw [pushBit_of_not_full b h7, pushBit_of_not_full b (h.wcnt ▸ h7), h.wacc, h.wcnt]
    exact ⟨h.capOut, h.inside, h.outLen, rfl, rfl, h.outBytes⟩

theorem SamePacker.pushBits (h : SamePacker s s') (hroom : s.hasRoom l.length) :
    SamePacker (s.pushBits l) (s'.pushBits l) := by
  induction l generalizing s s' with
  | nil => exact h
  | cons b l ih =>
    refine ih (h.pushBit b (hasRoom_mono (by simp) hroom)) ?_
    exact hasRoom_pushBits (l := [b]) (by simpa [Nat.add_comm] using hroom)

theorem runsAlike_writeField (h : SamePacker s s') (l : List Bool) : RunsAlike (writeField l) s s' := by
  obtain ⟨hroom, hrun⟩ | ⟨hroom, hrun⟩ := writeField_cases l s
  · obtain ⟨-, hrun'⟩ | ⟨hroom', -⟩ := writeField_cases l s'
    · exact .inl ⟨_, _, hrun, hrun', h.pushBits hroom⟩
    · exact absurd (h.hasRoom_iff.mpr hroom) hroom'
  · obtain ⟨hroom', -⟩ | ⟨-, hrun'⟩ := writeField_cases l s'
    · exact absurd (h.hasRoom_iff.mp hroom') hroom
    · exact .inr ⟨s, s', _, hrun, h.outLen ▸ hrun', h⟩

/-- R102: the three cases of `FlushBits`. -/
theorem flushBits_run (s : State) : flushBits s =
    if s.wcnt = 0 then .ok ⟨⟩ s
    else if s.outLen = s.capOut then .error (.error .outputOverflow 0 s.outLen) s
    else .ok ⟨⟩ (s.emitByte s.wacc) := by
  obtain ⟨hzero, hrun⟩ | ⟨hne, hfull, hrun⟩ | ⟨hne, hroom, hrun⟩ := flushBits_cases s
  · rw [hrun, if_pos hzero]
  · rw [hrun, if_neg hne, if_pos hfull]
  · rw [hrun, if_neg hne, if_neg hroom]

theorem runsAlike_flushBits (h : SamePacker s s') : RunsAlike flushBits s s' := by
  rw [RunsAlike, flushBits_run s, flushBits_run s', h.wcnt, h.outLen, h.capOut, h.wacc]
  by_cases hzero : s.wcnt = 0
  · exact .inl ⟨s, s', if_pos hzero, if_pos hzero, h⟩
  · rw [if_neg hzero, if_neg hzero]
    by_cases hfull : s.outLen = s.capOut
    · exact .inr ⟨s, s', _, if_pos hfull, if_pos hfull, h⟩
    · have hlt : s.outLen.toNat < s.capOut.toNat :=
        Nat.lt_of_le_of_ne h.inside fun heq => hfull (BitVec.eq_of_toNat_eq heq)
      exact .inl ⟨_, _, if_neg hfull, if_neg hfull, h.emitByte s.wacc hlt⟩

theorem RunsAlike.bind (hx : RunsAlike x s s') (hy : ∀ t t', x s = .ok ⟨⟩ t → SamePacker t t' → RunsAlike y t t') :
    RunsAlike (x >>= fun _ => y) s s' := by
  obtain ⟨t, t', hrun, hrun', h⟩ | ⟨t, t', info, hrun, hrun', h⟩ := hx
  · have hrest := hy t t' hrun h
    rwa [RunsAlike, ← run_bind_ok (k := fun _ => y) hrun, ← run_bind_ok (k := fun _ => y) hrun'] at hrest
  · exact .inr ⟨t, t', info, run_bind_error hrun, run_bind_error hrun', h⟩

theorem runsAlike_writeFields (h : SamePacker s s') (ls : List (List Bool)) :
    RunsAlike (ls.forM writeField) s s' := by
  induction ls generalizing s s' with
  | nil => exact .inl ⟨s, s', rfl, rfl, h⟩
  | cons l ls ih =>
    rw [List.forM_eq_forM, List.forM_cons, ← List.forM_eq_forM]
    exact (runsAlike_writeField h l).bind fun _ _ _ ht => ih ht

end

/-! ### COMPRESS of the same input (R156) -/

section
variable {s s' u v w : State} {tr : Trie}

/-- R155: COMPRESS of a non-empty input, as the fields that its tables fix. -/
theorem compressBody_eq_fields (hne : s.inLen ≠ 0) (hcap : s.inLen.toNat ≤ s.capIn.toNat)
    (htab : tabulateBody s = .ok () u) (hbuild : buildBody u = .ok () v) (hderive : deriveBody v = .ok () w)
    (hw : w = tablesOf s w) (htrie : w.trie = some tr) (hmem : ∀ b, b ∈ tr.leaves ↔ b ∈ s.inBytes)
    (hcodes : w.holdsCodes tr) : compressBody s =
      ((unitFields tr s.inLen (s.inBytes.flatMap w.code)).forM writeField >>= fun _ => flushBits)
        (w.withSideOf s.resetPacker) := by
  have hinLen : w.inLen = s.inLen := by rw [hw]; rfl
  have hcapIn : w.capIn = s.capIn := by rw [hw]; rfl
  have hinBytes : w.inBytes = s.inBytes := by rw [hw]; rfl
  have hunit := writeUnit_eq_fields (s := w.withSideOf s.resetPacker) (tr := tr)
    (show w.inLen.toNat ≤ w.capIn.toNat by rw [hinLen, hcapIn]; exact hcap) htrie
    (show ∀ b ∈ w.inBytes, (w.codeLenOf b).present = true from fun b hb =>
      present_of_mem_leaves hcodes ((hmem b).mpr (hinBytes ▸ hb)))
  rw [compressBody_run_of_tables hne htab hbuild hderive, ← hinLen, ← hinBytes]
  exact hunit

/-- R156 (a), R160: the sentinel unit, over two machines of one output capacity. -/
theorem runsAlike_compress_empty (hlen : s.inLen = 0) (hlen' : s'.inLen = 0) (hmode : s.emptyMode = false)
    (hmode' : s'.emptyMode = false) (hcapOut : s'.capOut = s.capOut) : ∃ (x : Engine PUnit) (p p' : State),
      RunsAlike x p p' ∧ compressBody s = x p ∧ compressBody s' = x p' := by
  have hstart : SamePacker s.sentinelStart s'.sentinelStart := ⟨hcapOut, Nat.zero_le _, rfl, rfl, rfl, rfl⟩
  refine ⟨writeSentinel, _, _, ?_, compressBody_run_of_empty hlen hmode, compressBody_run_of_empty hlen' hmode'⟩
  rw [writeSentinel, writeBits_eq_writeField, writeBits_eq_writeField, writeBits_eq_writeField]
  exact (runsAlike_writeField hstart _).bind fun _ _ _ h => (runsAlike_writeField h _).bind fun _ _ _ h =>
    (runsAlike_writeField h _).bind fun _ _ _ h => runsAlike_flushBits h

/-- R156 (a): over the same input two machines of one output capacity write the same fields. -/
theorem runsAlike_compress_nonempty (hne : s.inLen ≠ 0) (hcap : s.inLen.toNat ≤ s.capIn.toNat)
    (hcap' : s'.inLen.toNat ≤ s'.capIn.toNat) (hlen : s'.inLen = s.inLen) (hin : s'.inBytes = s.inBytes)
    (hcapOut : s'.capOut = s.capOut) : ∃ (x : Engine PUnit) (p p' : State), RunsAlike x p p' ∧
      compressBody s = x p ∧ compressBody s' = x p' := by
  obtain ⟨u, v, w, tr, htab, hbuild, hderive, -, -, hw, -, htrie, -, hmem, hcodes⟩ := tables_ok hne hcap
  obtain ⟨u', v', w', tr', htab', hbuild', hderive', -, -, hw', -, htrie', -, hmem', hcodes'⟩ :=
    tables_ok (hlen ▸ hne) hcap'
  have htries : w'.trie = w.trie := by
    rw [trie_of_agrees (((keeps_deriveBody v).ok hderive).parts .nodes (by simp)),
      trie_of_agrees (((keeps_deriveBody v').ok hderive').parts .nodes (by simp))]
    exact trie_of_buildBody (freq_of_tabulateBody hcap hcap' hin htab htab') hbuild hbuild'
  obtain rfl : tr' = tr := Option.some.inj (htrie'.symm.trans (htries.trans htrie))
  have hbits : s'.inBytes.flatMap w'.code = s.inBytes.flatMap w.code := by
    rw [hin]
    exact List.flatMap_congr fun b hb => code_of_holdsCodes hcodes hcodes' ((hmem b).mpr hb)
  have hstart : SamePacker (w.withSideOf s.resetPacker) (w'.withSideOf s'.resetPacker) :=
    ⟨by rw [hw, hw']; exact hcapOut, Nat.zero_le _, rfl, rfl, rfl, rfl⟩
  refine ⟨_, _, _, (runsAlike_writeFields hstart _).bind fun _ _ _ h => runsAlike_flushBits h,
    compressBody_eq_fields hne hcap htab hbuild hderive hw htrie hmem hcodes, ?_⟩
  rw [compressBody_eq_fields (hlen ▸ hne) hcap' htab' hbuild' hderive' hw' htrie' hmem' hcodes', hlen, hbits]

/-- R206, R207: a COMPRESS that raises leaves DONE as it was. -/
theorem done_of_compress_error {e : ErrCode} {sub : BitVec 4} {info : Word} {t : State}
    (h : compressBody s = .error (.error e sub info) t) : t.done = s.done := by
  obtain ⟨-, hdone, -⟩ := ((keeps_compressBody s).error h).1.fixed.status
  exact hdone

end

/-- Settles O31: over an empty input both write the sentinel unit, over any other the fields of the input's unit, and
packers that start empty are filled alike. -/
theorem compressDependsOnlyOnItsInput : Obligations.CompressDependsOnlyOnItsInput := by
  unfold Obligations.CompressDependsOnlyOnItsInput
  intro s s' t t' hlen hin hmode hcapOut hdone hdone' hunit h h'
  obtain ⟨x, p, p', hx, hrun, hrun'⟩ : ∃ (x : Engine PUnit) (p p' : State), RunsAlike x p p' ∧
      compressBody s = x p ∧ compressBody s' = x p' := by
    by_cases hempty : s.inLen = 0
    · have hoff : s.emptyMode = false := by simpa [hempty] using hunit
      exact runsAlike_compress_empty hempty (hlen ▸ hempty) hoff (hmode ▸ hoff) hcapOut.symm
    · exact runsAlike_compress_nonempty hempty (inLen_le_of_compress hempty h)
        (inLen_le_of_compress (hlen ▸ hempty) h') hlen.symm hin.symm hcapOut.symm
  obtain ⟨v, v', hv, hv', hsame⟩ | ⟨v, v', info, hv, hv', hsame⟩ := hx
  · obtain rfl := Host.Outcome.next.inj ((exec_of_ok (i := .compress) (hrun.trans hv)).symm.trans h)
    obtain rfl := Host.Outcome.next.inj ((exec_of_ok (i := .compress) (hrun'.trans hv')).symm.trans h')
    exact ⟨hsame.outBytes.symm, hsame.outLen.symm, hsame.wacc.symm, hsame.wcnt.symm, rfl⟩
  · have hend : v.done = v'.done := by
      rw [done_of_compress_error (hrun.trans hv), done_of_compress_error (hrun'.trans hv'), hdone, hdone']
    obtain rfl := Host.Outcome.next.inj ((exec_of_error (i := .compress) (hrun.trans hv)).symm.trans h)
    obtain rfl := Host.Outcome.next.inj ((exec_of_error (i := .compress) (hrun'.trans hv')).symm.trans h')
    exact ⟨hsame.outBytes.symm, hsame.outLen.symm, hsame.wacc.symm, hsame.wcnt.symm, hend⟩

end Sys2Proof.Machine
end

section
/-! PROOFS. DESERIALIZE as a command (R170 to R174): the entries it allocates, and how a field that cannot be taken ends
it where the fields before it have been read. -/

namespace Sys2Proof.Machine

open Sys2Proof.Claims

/-! ### The entries that DESERIALIZE allocates (R171) -/

/-- From s to t entries have been allocated from NNODES on, each with frequency 0; the frequencies below stay, and so do
the entries past the new NNODES and ROOT. -/
structure Allocates (s t : State) : Prop where
  root : t.root = s.root
  mono : s.nnodes.toNat ≤ t.nnodes.toNat
  above : ∀ j, t.nnodes.toNat ≤ j → t.node[j]? = s.node[j]?
  below : ∀ j, j < s.nnodes.toNat → (t.node[j]?).map Node.freq = (s.node[j]?).map Node.freq
  fresh : ∀ j e, s.nnodes.toNat ≤ j → j < t.nnodes.toNat → t.node[j]? = some e → e.freq = 0

/-- Wherever x ends it has allocated entries from s on, and nothing else in the node store. -/
def Allocating {α : Type} (x : Engine α) (s : State) : Prop :=
  Post x s (fun _ t => Allocates s t) (fun _ t => Allocates s t)

section
variable {α : Type} {s t u : State} {p : Parse}

theorem Allocates.trans (h : Allocates s t) (h' : Allocates t u) : Allocates s u where
  root := h'.root.trans h.root
  mono := h.mono.trans h'.mono
  above j hj := (h'.above j hj).trans (h.above j (h'.mono.trans hj))
  below j hj := (h'.below j (hj.trans_le h.mono)).trans (h.below j hj)
  fresh j e hlo hhi he := by
    obtain hj | hj := Nat.lt_or_ge j t.nnodes.toNat
    · obtain ⟨e', he', hfreq⟩ := Option.map_eq_some_iff.mp ((h'.below j hj).symm.trans (congrArg _ he))
      exact hfreq.symm.trans (h.fresh j e' hlo hj he')
    · exact h'.fresh j e hj hhi he

theorem allocates_of_agrees (h : s.agrees t .nodes) : Allocates s t := by
  obtain ⟨hnode, hroot, hnnodes, -⟩ := h
  exact ⟨hroot, by rw [hnnodes], fun j _ => by rw [hnode], fun j _ => by rw [hnode],
    fun j _ hlo hhi _ => by rw [hnnodes] at hhi; omega⟩

/-- R171: a new entry of frequency 0. -/
theorem allocates_allocate {e : Node} (hlt : s.nnodes.toNat < Config.maxNodes) (he : e.freq = 0) :
    Allocates s (s.allocate e) := by
  have hcount := allocate_nnodes e hlt
  have hget (j : Nat) := getElem?_allocate e j hlt
  refine ⟨by rw [allocate_frame], by omega, fun j hj => (hget j).trans (if_neg (by omega)),
    fun j hj => congrArg _ ((hget j).trans (if_neg (by omega))), fun j e' hlo hhi he' => ?_⟩
  rw [hget, if_pos (by omega)] at he'
  exact Option.some.inj he' ▸ he

/-- R171: a child index put into an entry allocated before. -/
theorem allocates_updateNode {i : Nat} {f : Node → Node} (hi : i < s.nnodes.toNat) (hf : ∀ e, (f e).freq = e.freq) :
    Allocates s (s.updateNode i f) := by
  have hnnodes : (s.updateNode i f).nnodes = s.nnodes := by simp
  have hget (j : Nat) := getElem?_updateNode s i j f
  refine ⟨by simp, by rw [hnnodes], fun j hj => (hget j).trans (if_neg (by rw [hnnodes] at hj; omega)), fun j _ => ?_,
    fun j _ hlo hhi _ => by rw [hnnodes] at hhi; omega⟩
  rw [hget]
  split
  · simp [Function.comp_def, hf]
  · rfl

theorem Allocating.after {x : Engine α} (h : Allocating x t) (hst : Allocates s t) :
    Post x t (fun _ u => Allocates s u) (fun _ u => Allocates s u) :=
  h.mono (fun _ _ hu => hst.trans hu) fun _ _ hu => hst.trans hu

/-- R173, R174: room for one leaf more. -/
theorem ParseInv.nnodes_lt_of_new {b : Byte} (h : ParseInv p s) (hb : b ∉ p.seen) :
    s.nnodes.toNat < Config.maxNodes := by
  obtain ⟨hni, hnodup, hnnodes, -⟩ := h
  have hlen := length_le_of_nodup (List.nodup_cons.mpr ⟨hb, hnodup⟩)
  simp only [List.length_cons, Config.maxNodes, Config.maxInternal] at *
  omega

theorem allocating_readLeaf (h : ParseInv p s) : Allocating (readLeaf p) s := by
  rw [readLeaf, Allocating, post_bind]
  refine (keeps_trieRead 8 s).mono (fun b t ht => ?_) fun _ _ ht => allocates_of_agrees (ht.1.parts .nodes (by simp))
  have hst : s.agrees t .nodes := ht.parts .nodes (by simp)
  have hread := allocates_of_agrees hst
  rw [post_bind, post_get]
  refine post_ite (fun _ => hread) fun hb => ?_
  rw [post_bind, post_set, post_pure]
  exact hread.trans { allocates_allocate ((h.of_agrees hst).nnodes_lt_of_new hb) rfl with }

/-- R171: wherever `DeserializeNode` ends it has allocated entries and nothing else. -/
theorem allocating_deserializeNode (fuel : Nat) (h : ParseInv p s) : Allocating (deserializeNode fuel p) s := by
  induction fuel generalizing p s with
  | zero => trivial
  | succ fuel ih =>
    rw [deserializeNode, Allocating, post_bind]
    refine (keeps_trieRead 1 s).mono (fun m t ht => ?_)
      fun _ _ ht => allocates_of_agrees (ht.1.parts .nodes (by simp))
    have hst : s.agrees t .nodes := ht.parts .nodes (by simp)
    have hread := allocates_of_agrees hst
    have h := h.of_agrees hst
    refine post_ite (fun _ => (allocating_readLeaf h).after hread) fun _ => ?_
    rw [post_bind, post_get]
    refine post_ite (fun _ => hread) fun hni => ?_
    obtain ⟨hlt, hinv⟩ := h.internal (e := internalNode 0 0 0) hni
    have hnew := allocates_allocate (e := internalNode 0 0 0) hlt rfl
    have hcount := allocate_nnodes (internalNode 0 0 0) hlt
    rw [post_bind, post_set, post_bind]
    refine ((ih hinv).and (post_deserializeNode fuel hinv)).mono (fun ⟨i, p1⟩ v ⟨hv, l, hl⟩ => ?_)
      fun _ _ hv => hread.trans (hnew.trans hv.1)
    have hleft : Allocates s (v.setLeft t.nnodes.toNat i) :=
      hread.trans (hnew.trans (hv.trans (allocates_updateNode (by have := hv.mono; omega) fun _ => rfl)))
    rw [post_bind, post_modify, post_bind]
    refine (ih (hl.inv.of_counts (by simp) (by simp))).mono (fun ⟨j, p2⟩ w hw => ?_) fun _ _ hw => hleft.trans hw
    rw [post_bind, post_modify, post_pure]
    have hmono := hv.mono
    have hmono' := hw.mono
    simp only [setLeft_fields] at hmono'
    exact hleft.trans (hw.trans (allocates_updateNode (by omega) fun _ => rfl))

theorem parseInv_dropTrie (s : State) : ParseInv { ni := 0, seen := [] } s.dropTrie :=
  ⟨Nat.zero_le _, List.nodup_nil, by simp, by simp⟩

/-- R170: DESERIALIZE begins with no entry allocated. -/
theorem post_deserializeBody_fresh (s : State) :
    Post deserializeBody s (fun _ t => (∀ j, t.nnodes.toNat ≤ j → t.node[j]? = s.node[j]?) ∧
      ∀ j e, j < t.nnodes.toNat → t.node[j]? = some e → e.freq = 0) (fun _ _ => True) := by
  rw [deserializeBody_eq, post_bind, post_modify, readTrie, post_bind]
  refine (allocating_deserializeNode Config.maxDepth (parseInv_dropTrie s)).mono (fun r t ht => ?_) fun _ _ _ => trivial
  exact ⟨ht.above, fun j e hj he => ht.fresh j e (by simp) hj he⟩

/-- R178: a body that writes RPOS, the node store and the valid bits of the trie and its codes alone. -/
theorem eq_readerAt_of_frame {n : Nat} (h : Frame [.rpos, .nodes, .trieValid, .codesValid] s t)
    (hbyte : t.rposByte = BitVec.ofNat 32 (n / 8)) (hbit : t.rposBit = BitVec.ofNat 3 (n % 8)) :
    t = { readerAt s n with
      node := t.node, root := t.root, nnodes := t.nnodes, nleaves := t.nleaves
      trieValid := t.trieValid, codesValid := t.codesValid } := by
  refine eq_of_agrees ⟨h.fixed.host, h.fixed.status⟩ fun p hp => ?_
  cases p with
  | result => exact h.parts .result (by simp)
  | freq => exact h.parts .freq (by simp)
  | codes => exact h.parts .codes (by simp)
  | haz => exact h.parts .haz (by simp)
  | decoded => exact h.parts .decoded (by simp)
  | output => exact h.parts .output (by simp)
  | nodes => exact ⟨rfl, rfl, rfl, rfl⟩
  | trieValid => exact rfl
  | codesValid => exact rfl
  | rpos => exact ⟨hbyte, hbit⟩
  | written => exact absurd rfl hp

theorem eq_ofNat_of_toNat_eq {n k : Nat} {v : BitVec n} (h : v.toNat = k) : v = BitVec.ofNat n k := by
  rw [← h, BitVec.ofNat_toNat, BitVec.setWidth_eq]

end

/-- Settles O32: DESERIALIZE stores the trie that the stream holds, in entries that it allocates from 0 on. -/
theorem deserializeReadsTheSerializedTrie : Obligations.DeserializeReadsTheSerializedTrie := by
  unfold Obligations.DeserializeReadsTheSerializedTrie
  intro s tr hcap hnodup hin hbits
  obtain ⟨t, hrun, hrpos, htrie, hroot, hnnodes, hnleaves, htrieValid, hcodesValid⟩ :=
    deserializeBody_ok hnodup ⟨hcap, hin, hbits⟩
  obtain ⟨habove, hfreq⟩ := (post_deserializeBody_fresh s).ok hrun
  obtain ⟨hbyte, hbit⟩ := rpos_fields hrpos
  have ht := eq_readerAt_of_frame ((keeps_deserializeBody s).ok hrun) hbyte hbit
  rw [hroot, eq_ofNat_of_toNat_eq hnnodes, eq_ofNat_of_toNat_eq hnleaves, htrieValid, hcodesValid] at ht
  exact ⟨finished t, exec_of_ok hrun, congrArg finished ht, htrie, fun i e hi => hfreq i e (hnnodes ▸ hi),
    fun i hi => habove i (hnnodes ▸ hi)⟩

end Sys2Proof.Machine
end

section
/-! PROOFS. How DESERIALIZE ends inside a trie (R172 to R174): the fields before the one it cannot take are read, whatever
trie they begin, and that field's raise ends the command. -/

namespace Sys2Proof.Machine

open Sys2Proof.Claims

/-! ### The bytes among the fields (R171) -/

/-- The leaf symbols among these fields, in order. -/
def fieldBytes (fs : List (List Bool)) : List Byte :=
  (fs.filter isByteField).map fun f => BitVec.ofNat 8 (natOfBits f)

section
variable {fs gs : List (List Bool)}

@[simp] theorem isByteField_msbBits (b : Byte) : isByteField (msbBits b) = true := by simp [isByteField]

@[simp] theorem isByteField_marker (m : Bool) : isByteField [m] = false := rfl

@[simp] theorem fieldBytes_nil : fieldBytes [] = [] := rfl

@[simp] theorem fieldBytes_append : fieldBytes (fs ++ gs) = fieldBytes fs ++ fieldBytes gs := by
  simp [fieldBytes]

@[simp] theorem fieldBytes_cons_marker (m : Bool) : fieldBytes ([m] :: fs) = fieldBytes fs := by
  simp [fieldBytes]

@[simp] theorem fieldBytes_cons_byte (b : Byte) : fieldBytes (msbBits b :: fs) = b :: fieldBytes fs := by
  simp [fieldBytes]

theorem length_fieldBytes (fs : List (List Bool)) : (fieldBytes fs).length = fs.countP isByteField := by
  rw [fieldBytes, List.length_map, List.countP_eq_length_filter]

@[simp] theorem fieldBytes_fields (tr : Trie) : fieldBytes tr.fields = tr.leaves := by
  induction tr with
  | leaf b => simp [Trie.fields, Trie.leaves]
  | node l r hl hr => simp [Trie.fields, Trie.leaves, hl, hr]

/-- A trie has one internal node less than leaves (R14). -/
theorem count_marker_fields (tr : Trie) : tr.fields.count [false] + 1 = tr.leaves.length := by
  induction tr with
  | leaf b =>
    have hb : msbBits b ≠ [false] := fun h => by simpa using congrArg List.length h
    simp [Trie.fields, Trie.leaves, hb]
  | node l r hl hr =>
    simp only [Trie.fields, Trie.leaves, List.count_cons_self, List.count_append, List.length_append]
    omega

/-- R171: each internal marker and each byte completes a node. -/
theorem countP_isNodeField (fs : List (List Bool)) :
    fs.countP isNodeField = fs.count [false] + fs.countP isByteField := by
  induction fs with
  | nil => rfl
  | cons f fs ih =>
    rw [List.countP_cons, List.count_cons, List.countP_cons, ih]
    by_cases hf : f = [false]
    · subst hf
      simp [isNodeField]
      omega
    · by_cases hb : isByteField f <;> simp [isNodeField, hf, hb]
      omega

theorem mem_fieldBytes {b : Byte} (h : msbBits b ∈ fs) : b ∈ fieldBytes fs :=
  List.mem_map.mpr ⟨msbBits b, List.mem_filter.mpr ⟨h, isByteField_msbBits b⟩, by simp⟩

/-- A byte field is its byte. -/
theorem nodup_fieldBytes (h : (fs.filter isByteField).Nodup) : (fieldBytes fs).Nodup := by
  have field_of_byte {f : List Bool} (hf : f ∈ fs.filter isByteField) :
      msbBits (BitVec.ofNat 8 (natOfBits f)) = f :=
    msbBits_ofNat (by simpa [isByteField] using (List.mem_filter.mp hf).2)
  refine h.map_on fun f hf g hg hfg => ?_
  rw [← field_of_byte hf, hfg, field_of_byte hg]

end

/-! ### The fields before the last one (R171) -/

/-- From s to t DESERIALIZE has read these fields: its variables, NNODES and NLEAVES count them, and RPOS stands behind
them. -/
structure FieldsRead (p : Parse) (s : State) (fs : List (List Bool)) (q : Parse) (t : State) : Prop where
  inv : ParseInv q t
  ni : q.ni = p.ni + fs.count [false]
  seen : q.seen = (fieldBytes fs).reverse ++ p.seen
  rpos : t.rpos = s.rpos + fs.flatten.length
  fixed : SameHostSide s t

/-- This field, next to be read, ends `DeserializeNode` with this raise (R171): a marker where a node is begun, a byte
behind its marker. -/
def EndsAt (f : List Bool) (p : Parse) (s : State) (e : Raise) (t : State) : Prop :=
  if isByteField f then readLeaf p s = .error e t else ∀ fuel, deserializeNode (fuel + 1) p s = .error e t

section
variable {s t u v : State} {fuel i : Nat} {p p1 q : Parse} {e : Raise} {fs gs read rest : List (List Bool)}
  {f : List Bool}

theorem FieldsRead.refl (hp : ParseInv p s) : FieldsRead p s [] p s :=
  ⟨hp, rfl, rfl, rfl, .refl s⟩

theorem FieldsRead.trans {q' : Parse} (h : FieldsRead p s fs q t) (h' : FieldsRead q t gs q' u) :
    FieldsRead p s (fs ++ gs) q' u :=
  ⟨h'.inv, by rw [h'.ni, h.ni, List.count_append, Nat.add_assoc], by rw [h'.seen, h.seen]; simp,
    by rw [h'.rpos, h.rpos]; simp [Nat.add_assoc], h.fixed.trans h'.fixed⟩

/-- R171: a child index put into an entry leaves RPOS and the counts alone. -/
theorem FieldsRead.setLeft (h : FieldsRead p s fs q t) (n c : Nat) : FieldsRead p s fs q (t.setLeft n c) :=
  have hf := frame_setLeft t n c
  ⟨h.inv.of_counts (by simp) (by simp), h.ni, h.seen, (rpos_of_agrees (hf.parts .rpos (by simp))).trans h.rpos,
    h.fixed.trans hf.fixed⟩

theorem fieldsRead_leafMarker (hp : ParseInv p s) (h : Upcoming s [true]) :
    FieldsRead p s [[true]] p (s.setRpos (s.rpos + 1)) :=
  ⟨hp.of_agrees (setRpos_agrees_nodes s _), rfl, rfl, setRpos_rpos h, (frame_setRpos s _).fixed⟩

theorem fieldsRead_nodeMarker (hp : ParseInv p s) (hni : p.ni ≠ Config.maxInternal) (h : Upcoming s [false]) :
    FieldsRead p s [[false]] { p with ni := p.ni + 1 }
      ((s.setRpos (s.rpos + 1)).allocate (internalNode 0 0 0)) := by
  have halloc := frame_allocate (s.setRpos (s.rpos + 1)) (internalNode 0 0 0)
  exact ⟨((hp.of_agrees (setRpos_agrees_nodes s _)).internal hni).2, rfl, rfl,
    (rpos_of_agrees (halloc.parts .rpos (by simp))).trans (setRpos_rpos h), (frame_setRpos s _).fixed.trans halloc.fixed⟩

/-- R171: a whole trie, where its symbols are new and distinct and it is within the limit of R173. -/
theorem fieldsRead_trie (tr : Trie) (hp : ParseInv p s) (hfuel : Config.maxInternal < fuel + p.ni)
    (hnodup : (tr.leaves.reverse ++ p.seen).Nodup) (hni : p.ni + tr.fields.count [false] ≤ Config.maxInternal)
    (h : Upcoming s tr.bits) :
    ∃ q t, deserializeNode fuel p s = .ok (s.nnodes.toNat, q) t ∧ FieldsRead p s tr.fields q t := by
  have hcount := count_marker_fields tr
  have hheight := tr.height_lt_length_leaves
  obtain ⟨q, t, hrun, hparsed, hrpos⟩ := deserializeNode_ok (fuel := fuel) tr hp (by omega) hnodup (by omega) h
  have hni' := hparsed.ni
  exact ⟨q, t, hrun, hparsed.inv, by omega, by rw [fieldBytes_fields, hparsed.seen],
    by rw [hrpos, Trie.flatten_fields], ((keeps_deserializeNode fuel p s).ok hrun).fixed⟩

/-- R171: behind the marker 0 a raise of the left child ends the node. -/
theorem deserializeNode_leftError (h : Upcoming s [false]) (hni : p.ni ≠ Config.maxInternal)
    (hl : deserializeNode fuel { p with ni := p.ni + 1 } ((s.setRpos (s.rpos + 1)).allocate (internalNode 0 0 0)) =
      .error e t) :
    deserializeNode (fuel + 1) p s = .error e t := by
  rw [deserializeNode, run_bind_ok (trieRead_of_upcoming 0#1 h), if_neg (by decide), run_bind_ok (run_get _),
    if_neg hni, run_bind_ok (run_set _ _), run_bind_error hl]

/-- R171: so does a raise of the right child, once the left one is read. -/
theorem deserializeNode_rightError (h : Upcoming s [false]) (hni : p.ni ≠ Config.maxInternal)
    (hl : deserializeNode fuel { p with ni := p.ni + 1 } ((s.setRpos (s.rpos + 1)).allocate (internalNode 0 0 0)) =
      .ok (i, p1) v)
    (hr : deserializeNode fuel p1 (v.setLeft s.nnodes.toNat i) = .error e t) :
    deserializeNode (fuel + 1) p s = .error e t := by
  rw [deserializeNode, run_bind_ok (trieRead_of_upcoming 0#1 h), if_neg (by decide), run_bind_ok (run_get _),
    if_neg hni, run_bind_ok (run_set _ _), run_bind_ok hl]
  exact (run_bind_ok (run_modify _ v)).trans (run_bind_error hr)

/-- The fields of two tries up to one field: it stands in the first, or the first is whole and it stands in the second. -/
theorem split_append_eq {ls rs : List (List Bool)} (h : ls ++ rs = read ++ f :: rest) :
    (∃ rest', ls = read ++ f :: rest') ∨ ∃ read', read = ls ++ read' ∧ rs = read' ++ f :: rest := by
  obtain ⟨read', hread, hrs⟩ | ⟨rest', hls, hrest⟩ := List.append_eq_append_iff.mp h
  · exact .inr ⟨read', hread, hrs⟩
  · cases rest' with
    | nil => exact .inr ⟨[], by simpa using hls.symm, by simpa using hrest.symm⟩
    | cons f' rest' =>
      obtain ⟨rfl, -⟩ := List.cons.inj hrest
      exact .inl ⟨rest', hls⟩

/-- R171: a raise at a node's marker ends the node. -/
theorem deserializeNode_endsAt_marker (hp : ParseInv p s) (hfuel : Config.maxInternal < fuel + p.ni) (m : Bool) :
    ∃ q t, FieldsRead p s [] q t ∧ ∀ e u, EndsAt [m] q t e u → deserializeNode fuel p s = .error e u := by
  obtain ⟨fuel, rfl⟩ : ∃ k, fuel = k + 1 := ⟨fuel - 1, by have := hp.ni_le; omega⟩
  exact ⟨p, s, .refl hp, fun _ _ hend => hend fuel⟩

/-- R171 to R174: the fields before any one of a trie's are read where their symbols are new and distinct and their
internal nodes within the limit, and then a raise at that field ends `DeserializeNode`. -/
theorem deserializeNode_endsAt (tr : Trie) (hsplit : tr.fields = read ++ f :: rest) (hp : ParseInv p s)
    (hfuel : Config.maxInternal < fuel + p.ni) (hnodup : ((fieldBytes read).reverse ++ p.seen).Nodup)
    (hni : p.ni + read.count [false] ≤ Config.maxInternal) (h : Upcoming s read.flatten) :
    ∃ q t, FieldsRead p s read q t ∧ ∀ e u, EndsAt f q t e u → deserializeNode fuel p s = .error e u := by
  induction tr generalizing fuel p s read rest with
  | leaf b =>
    obtain _ | ⟨m, read⟩ := read
    · obtain ⟨rfl, -⟩ := List.cons.inj hsplit
      exact deserializeNode_endsAt_marker hp hfuel true
    · obtain ⟨hm, hbyte⟩ : [true] = m ∧ [msbBits b] = read ++ f :: rest := List.cons.inj hsplit
      subst hm
      obtain ⟨rfl, hf⟩ : read = [] ∧ msbBits b = f := by
        cases read with
        | nil => exact ⟨rfl, (List.cons.inj hbyte).1⟩
        | cons g read => simp at hbyte
      obtain ⟨fuel, rfl⟩ : ∃ k, fuel = k + 1 := ⟨fuel - 1, by have := hp.ni_le; omega⟩
      refine ⟨p, _, fieldsRead_leafMarker hp h, fun e u hend => ?_⟩
      rw [deserializeNode_leafMarker fuel p h]
      rwa [EndsAt, if_pos (hf ▸ isByteField_msbBits b)] at hend
  | node l r ihl ihr =>
    obtain _ | ⟨m, read⟩ := read
    · obtain ⟨rfl, -⟩ := List.cons.inj hsplit
      exact deserializeNode_endsAt_marker hp hfuel false
    obtain ⟨hm, hchild⟩ : [false] = m ∧ l.fields ++ r.fields = read ++ f :: rest := List.cons.inj hsplit
    subst hm
    rw [List.count_cons_self] at hni
    rw [fieldBytes_cons_marker] at hnodup
    have h' : Upcoming s ([false] ++ read.flatten) := h
    have hroom : p.ni ≠ Config.maxInternal := by omega
    have hmark := fieldsRead_nodeMarker hp hroom h'.left
    have hchildren := h'.after hmark.fixed hmark.rpos
    obtain ⟨fuel, rfl⟩ : ∃ k, fuel = k + 1 := ⟨fuel - 1, by have := hp.ni_le; omega⟩
    obtain ⟨rest', hl⟩ | ⟨read', rfl, hr⟩ := split_append_eq hchild
    · obtain ⟨q, t, hread, hends⟩ := ihl hl hmark.inv (fuel := fuel) (by simp only; omega) hnodup (by simp only; omega)
        hchildren
      exact ⟨q, t, hmark.trans hread, fun e u hend => deserializeNode_leftError h'.left hroom (hends e u hend)⟩
    · rw [List.count_append] at hni
      rw [fieldBytes_append, fieldBytes_fields, List.reverse_append, List.append_assoc] at hnodup
      rw [List.flatten_append, Trie.flatten_fields] at hchildren
      obtain ⟨p1, v, hrunl, hreadl⟩ := fieldsRead_trie l hmark.inv (fuel := fuel) (by simp only; omega)
        hnodup.of_append_right (by simp only; omega) hchildren.left
      generalize ((s.setRpos (s.rpos + 1)).allocate (internalNode 0 0 0)).nnodes.toNat = i at hrunl
      have hreadl' := hreadl.setLeft s.nnodes.toNat i
      have hni1 := hreadl.ni
      have hseen1 := hreadl.seen
      obtain ⟨q, t, hread, hends⟩ := ihr hr hreadl'.inv (fuel := fuel) (by simp only at hni1; omega)
        (by rwa [hseen1, fieldBytes_fields]) (by simp only at hni1; omega)
        (hchildren.after hreadl'.fixed (by rw [hreadl'.rpos, Trie.flatten_fields]))
      exact ⟨q, t, hmark.trans (hreadl'.trans hread),
        fun e u hend => deserializeNode_rightError h'.left hroom hrunl (hends e u hend)⟩

/-! ### DESERIALIZE (R170) -/

/-- R170: the same of DESERIALIZE, which begins with nothing read. -/
theorem deserialize_endsAt (tr : Trie) (hsplit : tr.fields = read ++ f :: rest) (hnodup : (fieldBytes read).Nodup)
    (hcount : read.count [false] ≤ 255) (h : Upcoming s read.flatten) :
    ∃ q t, FieldsRead { ni := 0, seen := [] } s.dropTrie read q t ∧ ∀ e u, EndsAt f q t e u →
      deserializeNode Config.maxDepth { ni := 0, seen := [] } s.dropTrie = .error e u :=
  deserializeNode_endsAt tr hsplit (parseInv_dropTrie s) (by decide) (by simpa using hnodup)
    (by simpa [Config.maxInternal] using hcount) (h.of_frame (frame_dropTrie s))

/-- R170: a raise of `DeserializeNode` ends DESERIALIZE. -/
theorem deserializeBody_error (h : deserializeNode Config.maxDepth { ni := 0, seen := [] } s.dropTrie = .error e u) :
    deserializeBody s = .error e u := by
  rw [deserializeBody_eq, run_bind_ok (run_modify _ s), readTrie, run_bind_error h]

/-- R172 to R174: DESERIALIZE after these fields and n bits more, where it raises CORRUPT_TRIE. -/
theorem parseFails_of_error {sub : BitVec 4} {n k : Nat} (hread : FieldsRead { ni := 0, seen := [] } s.dropTrie read q t)
    (hk : s.rpos + (read.flatten.length + n) = k)
    (h : deserializeNode Config.maxDepth { ni := 0, seen := [] } s.dropTrie =
      .error (.error .corruptTrie sub (t.setRpos (t.rpos + n)).rposByte) (t.setRpos (t.rpos + n))) :
    ∃ u, exec .deserialize s = .next u ∧ parseFails s u read k sub := by
  have hrpos : t.rpos + n = k := by
    rw [hread.rpos, ← hk, rpos_of_agrees ((frame_dropTrie s).parts .rpos (by simp)), Nat.add_assoc]
  have hinv : ParseInv q (t.setRpos (t.rpos + n)) := hread.inv.of_agrees (setRpos_agrees_nodes t _)
  rw [hrpos] at h hinv
  have hframe := ((keeps_deserializeNode _ _ _).error h).1
  have hnew := (allocating_deserializeNode _ (parseInv_dropTrie s)).error h
  have hseen : q.seen.length = read.countP isByteField := by
    rw [hread.seen, List.append_nil, List.length_reverse, length_fieldBytes]
  have hni : q.ni = read.count [false] := hread.ni.trans (Nat.zero_add _)
  have hnnodes : (t.setRpos k).nnodes.toNat = read.countP isNodeField := by
    rw [hinv.nnodes, hni, hseen, countP_isNodeField]
  have ht := eq_readerAt_of_frame (((frame_dropTrie s).mono (by simp)).trans (hframe.mono (by simp))) (n := k) rfl rfl
  rw [hnew.root, eq_ofNat_of_toNat_eq hnnodes, eq_ofNat_of_toNat_eq (hinv.nleaves.trans hseen),
    show (t.setRpos k).trieValid = false from hframe.parts .trieValid (by simp),
    show (t.setRpos k).codesValid = false from hframe.parts .codesValid (by simp)] at ht
  exact ⟨_, exec_of_error (deserializeBody_error h), congrArg (failed · .corruptTrie sub (BitVec.ofNat 32 (k / 8))) ht,
    fun i hi => hnew.above i (hnnodes ▸ hi)⟩

/-- The fields of a trie are markers and bytes (R171). -/
theorem mem_fields {tr : Trie} (h : f ∈ tr.fields) : (∃ m, f = [m]) ∨ ∃ b : Byte, f = msbBits b := by
  induction tr with
  | leaf b =>
    obtain rfl | rfl : f = [true] ∨ f = msbBits b := by simpa [Trie.fields] using h
    · exact .inl ⟨true, rfl⟩
    · exact .inr ⟨b, rfl⟩
  | node l r ihl ihr =>
    obtain rfl | hl | hr : f = [false] ∨ f ∈ l.fields ∨ f ∈ r.fields := by simpa [Trie.fields] using h
    · exact .inl ⟨false, rfl⟩
    · exact ihl hl
    · exact ihr hr

/-- R172: a field that is not whole before the end of the stream is not begun. -/
theorem endsAt_of_short {tr : Trie} (hf : f ∈ tr.fields) (p : Parse) (h : ¬s.hasBits f.length) :
    EndsAt f p s (.error .corruptTrie 0 s.rposByte) s := by
  obtain ⟨m, rfl⟩ | ⟨b, rfl⟩ := mem_fields hf
  · exact fun fuel => by rw [deserializeNode, run_bind_error (trieRead_short (n := 1) h)]
  · rw [length_msbBits] at h
    rw [EndsAt, if_pos (isByteField_msbBits b), readLeaf, run_bind_error (trieRead_short h)]

/-- R173: past the limit an internal marker raises. -/
theorem endsAt_of_full (hni : p.ni = Config.maxInternal) (h : Upcoming s [false]) :
    EndsAt [false] p s (.error .corruptTrie 1 (s.setRpos (s.rpos + 1)).rposByte) (s.setRpos (s.rpos + 1)) := by
  intro fuel
  rw [deserializeNode, run_bind_ok (trieRead_of_upcoming 0#1 h), if_neg (by decide), run_bind_ok (run_get _), if_pos hni,
    run_raise]

/-- R174: a byte that was a leaf's before raises. -/
theorem endsAt_of_repeated {b : Byte} (hb : b ∈ p.seen) (h : Upcoming s (msbBits b)) :
    EndsAt (msbBits b) p s (.error .corruptTrie 2 (s.setRpos (s.rpos + 8)).rposByte) (s.setRpos (s.rpos + 8)) := by
  rw [EndsAt, if_pos (isByteField_msbBits b), readLeaf, run_bind_ok (trieRead_of_upcoming b h), run_bind_ok (run_get _),
    if_pos hb, run_raise]

/-- R172: DESERIALIZE where the stream ends inside a trie of distinct symbols. -/
theorem deserialize_endsShort (tr : Trie) (hsplit : tr.fields = read ++ f :: rest) (hnodup : tr.leaves.Nodup)
    (h : Upcoming s read.flatten) (hshort : 8 * s.inLen.toNat < s.rpos + read.flatten.length + f.length) :
    ∃ q t, FieldsRead { ni := 0, seen := [] } s.dropTrie read q t ∧
      deserializeNode Config.maxDepth { ni := 0, seen := [] } s.dropTrie =
        .error (.error .corruptTrie 0 t.rposByte) t := by
  have hleaves : tr.leaves = fieldBytes read ++ fieldBytes (f :: rest) := by
    rw [← fieldBytes_fields, hsplit, fieldBytes_append]
  have hcount : read.count [false] ≤ tr.fields.count [false] := by rw [hsplit, List.count_append]; omega
  have hle := length_le_of_nodup hnodup
  have hinternal := count_marker_fields tr
  obtain ⟨q, t, hread, hends⟩ := deserialize_endsAt tr hsplit (hleaves ▸ hnodup).of_append_left (by omega) h
  obtain ⟨-, hinLen, -⟩ := hread.fixed.host
  have hover : ¬t.hasBits f.length := by
    have hstart : s.dropTrie.rpos = s.rpos := rfl
    rw [State.hasBits, hread.rpos, hinLen, hstart]
    exact Nat.not_le.mpr hshort
  exact ⟨q, t, hread, hends _ _ (endsAt_of_short (tr := tr) (by simp [hsplit]) q hover)⟩

end

/-- Settles O33: the fields before the end of the stream are read, and the next one is not whole. -/
theorem streamEndInsideATrieIsCorruptTrie : Obligations.StreamEndInsideATrieIsCorruptTrie := by
  unfold Obligations.StreamEndInsideATrieIsCorruptTrie
  intro s tr read rest f k hcap hnodup hsplit hk hend hbits
  have htake : (f.take k).length = k := by rw [List.length_take]; omega
  have hup : Upcoming s (read.flatten ++ f.take k) :=
    ⟨hcap, by rw [List.length_append]; omega, by rw [List.length_append, htake, hbits]⟩
  obtain ⟨q, t, hread, hrun⟩ := deserialize_endsShort tr hsplit hnodup hup.left (by omega)
  exact parseFails_of_error (n := 0) hread rfl (by simpa using hrun)

/-- Settles O34: with 255 internal nodes read the next internal marker raises. -/
theorem manyInternalNodesAreCorruptTrie : Obligations.ManyInternalNodesAreCorruptTrie := by
  unfold Obligations.ManyInternalNodesAreCorruptTrie
  intro s tr read rest hcap hsplit hcount hnodup hin hbits
  have hup : Upcoming s (read.flatten ++ [false]) := ⟨hcap, by simpa using hin, by simpa using hbits⟩
  obtain ⟨q, t, hread, hends⟩ := deserialize_endsAt tr hsplit (nodup_fieldBytes hnodup) hcount.le hup.left
  have hni : q.ni = Config.maxInternal := hread.ni.trans ((Nat.zero_add _).trans hcount)
  have hmarker : Upcoming t [false] := (hup.of_frame (frame_dropTrie s)).after hread.fixed hread.rpos
  exact parseFails_of_error hread rfl (hends _ _ (endsAt_of_full hni hmarker))

/-- Settles O35: the bytes before the repeated one are distinct, and it is among them. -/
theorem repeatedLeafSymbolIsCorruptTrie : Obligations.RepeatedLeafSymbolIsCorruptTrie := by
  unfold Obligations.RepeatedLeafSymbolIsCorruptTrie
  intro s tr read rest b hcap hsplit hb hnodup hcount hin hbits
  have hup : Upcoming s (read.flatten ++ msbBits b) := ⟨hcap, by simpa using hin, by simpa using hbits⟩
  obtain ⟨q, t, hread, hends⟩ := deserialize_endsAt tr hsplit (nodup_fieldBytes hnodup) hcount hup.left
  have hseen : b ∈ q.seen := by
    rw [hread.seen, List.append_nil, List.mem_reverse]
    exact mem_fieldBytes hb
  have hbyte : Upcoming t (msbBits b) := (hup.of_frame (frame_dropTrie s)).after hread.fixed hread.rpos
  exact parseFails_of_error hread rfl (hends _ _ (endsAt_of_repeated hseen hbyte))

end Sys2Proof.Machine
end

section
/-! PROOFS. DECODE as a command (R175 to R177), and its end where the stream ends inside a symbol's walk (R207). -/

namespace Sys2Proof.Machine

open Sys2Proof.Claims

/-- The input stream holds these bits from RPOS to its end at IN_LEN (R32, R64). -/
structure Remaining (s : State) (bits : List Bool) : Prop where
  upcoming : Upcoming s bits
  last : s.rpos + bits.length = 8 * s.inLen.toNat

section
variable {s t : State} {tr : Trie} {ps : List (Byte × List Bool)} {l m : List Bool}

/-- What is left of the stream to its end once l has been read. -/
theorem Remaining.after (h : Remaining s (l ++ m)) (hfix : SameHostSide s t) (hrpos : t.rpos = s.rpos + l.length) :
    Remaining t m := by
  obtain ⟨-, hinLen, -⟩ := hfix.host
  have hlast := h.last
  rw [List.length_append] at hlast
  exact ⟨h.upcoming.after hfix hrpos, by rw [hrpos, hinLen]; omega⟩

theorem Remaining.of_frame {W : List Part} (h : Remaining s l) (hf : Frame W s t) (hW : .rpos ∉ W := by simp) :
    Remaining t l :=
  Remaining.after (l := []) h hf.fixed (rpos_of_agrees (hf.parts .rpos hW))

/-- R100: a longer field than what is left cannot be read. -/
theorem Remaining.not_hasBits (h : Remaining s l) {n : Nat} (hn : l.length < n) : ¬s.hasBits n := by
  have := h.last
  simp only [State.hasBits]
  omega

/-! ### The command (R175) -/

/-- R175: DECODE over a valid trie is the decoding loop. -/
theorem commandBody_decode_run (hvalid : s.trieValid = true) :
    commandBody s .decode s = decodeSymbols s.arg.toNat { s with dlen := s.arg, dcount := 0 } := by
  rw [commandBody, run_bind_ok (a := ()) (t := s) (by simp [needTrie_run, hvalid]), run_bind_ok (run_modify _ s)]
  rfl

/-- R177: a body that writes RPOS, DLEN, DCOUNT and the output alone. -/
theorem eq_decoded_of_frame {n : Nat} {dlen dcount : Word} (h : Frame [.rpos, .output, .decoded] s t)
    (hrpos : t.rpos = n) (hdlen : t.dlen = dlen) (hdcount : t.dcount = dcount) :
    t = { (readerAt s n).withPackerOf t with dlen := dlen, dcount := dcount } := by
  refine eq_of_agrees ⟨h.fixed.host, h.fixed.status⟩ fun p hp => ?_
  cases p with
  | result => exact h.parts .result (by simp)
  | freq => exact h.parts .freq (by simp)
  | codes => exact h.parts .codes (by simp)
  | haz => exact h.parts .haz (by simp)
  | nodes => exact h.parts .nodes (by simp)
  | trieValid => exact h.parts .trieValid (by simp)
  | codesValid => exact h.parts .codesValid (by simp)
  | output => exact ⟨rfl, rfl, rfl, rfl⟩
  | decoded => exact ⟨hdlen, hdcount⟩
  | rpos => exact rpos_fields hrpos
  | written => exact absurd rfl hp

end

/-- Settles O36: DECODE is the decoding loop, which walks each code to its symbol. -/
theorem decodeAppendsTheDecodedSymbols : Obligations.DecodeAppendsTheDecodedSymbols := by
  unfold Obligations.DecodeAppendsTheDecodedSymbols
  intro s tr ps hvalid htrie hps hcount hcap hin hbits hfits
  have hstart := frame_decoded s s.arg 0
  have hup : Upcoming s (ps.flatMap fun p => p.2) := ⟨hcap, hin, hbits⟩
  obtain ⟨t, hrun, hrpos, hdlen, hdcount, happ⟩ := decodeSymbols_ok (s := { s with dlen := s.arg, dcount := 0 }) htrie
    hps (hup.of_frame hstart) hfits
  have hframe := (hstart.mono (by simp)).trans ((keeps_decodeSymbols _ _).ok hrun)
  have hdcount' : t.dcount = s.arg := by
    rw [hdcount, hcount, BitVec.ofNat_toNat, BitVec.setWidth_eq]
    exact BitVec.zero_add s.arg
  rw [hcount, ← commandBody_decode_run hvalid] at hrun
  exact ⟨finished t, exec_of_ok hrun, congrArg finished (eq_decoded_of_frame hframe hrpos hdlen hdcount'),
    appended_trans (appended_of_frame hstart) happ⟩

/-! ### The end of the stream inside a walk (R176, R207) -/

section
variable {s t : State} {tr : Trie} {ps : List (Byte × List Bool)} {x : Byte} {b : Bool} {c d : List Bool}

/-- R100, R176: at an internal node with no bit left the walk raises UNDERFLOW. -/
theorem walk_underflow (fuel : Nat) {i : Nat} {e : Node} (he : s.node[i]? = some e) (hleaf : e.leaf = false)
    (h : ¬s.hasBits 1) : walk (fuel + 1) i s = .error (.error .underflow 0 s.rposByte) s := by
  rw [walk, run_bind_ok (nodeAt_ok he), if_neg (by simp [hleaf]), run_bind_error (readBits_underflow h)]

/-- R176: where the stream ends inside a leaf's path, the walk takes what is left of it and raises UNDERFLOW. -/
theorem walk_short {depth fuel i : Nat} (htrie : trieAt s.node depth i = some tr) (hp : (x, c ++ b :: d) ∈ tr.codes)
    (h : Remaining s c) (hfuel : c.length < fuel) : ∃ t, walk fuel i s = .error (.error .underflow 0 t.rposByte) t ∧
      t = s.setRpos (8 * s.inLen.toNat) := by
  induction depth generalizing s tr i c fuel with
  | zero => simp [trieAt] at htrie
  | succ depth ih =>
    obtain ⟨fuel, rfl⟩ : ∃ k, fuel = k + 1 := ⟨fuel - 1, by omega⟩
    obtain ⟨e, he, ⟨-, rfl⟩ | ⟨hleaf, l, r, rfl, hl, hr⟩⟩ := trieAt_cases htrie
    · simp [Trie.codes] at hp
    cases c with
    | nil =>
      refine ⟨s, walk_underflow fuel he hleaf (h.not_hasBits (by simp)), ?_⟩
      rw [← h.last]
      exact (setRpos_rpos_self s).symm
    | cons a c =>
      have hread : (s.setRpos (s.rpos + 1)).rpos = s.rpos + 1 := setRpos_rpos (h.upcoming.left (l := [a]))
      have hrest : Remaining (s.setRpos (s.rpos + 1)) c :=
        Remaining.after (l := [a]) h (frame_setRpos s _).fixed hread
      have child {tr' : Trie} (hq : (x, c ++ b :: d) ∈ tr'.codes)
          (htr' : trieAt s.node depth (if a then e.right.toNat else e.left.toNat) = some tr') :
          ∃ t, walk (fuel + 1) i s = .error (.error .underflow 0 t.rposByte) t ∧
            t = s.setRpos (8 * s.inLen.toNat) := by
        rw [walk_step fuel he hleaf h.upcoming]
        exact ih (s := s.setRpos (s.rpos + 1)) htr' hq hrest (Nat.lt_of_succ_lt_succ hfuel)
      simp only [Trie.codes, List.mem_append, List.mem_map, Prod.mk.injEq, List.cons_append, List.cons.injEq] at hp
      obtain ⟨⟨_, _⟩, hq, rfl, rfl, rfl⟩ | ⟨⟨_, _⟩, hq, rfl, rfl, rfl⟩ := hp
      · exact child hq hl
      · exact child hq hr

theorem walkSymbol_short (htrie : s.trie = some tr) (hp : (x, c ++ b :: d) ∈ tr.codes) (h : Remaining s c) :
    ∃ t, walkSymbol s = .error (.error .underflow 0 t.rposByte) t ∧ t = s.setRpos (8 * s.inLen.toNat) := by
  have hlast := h.last
  rw [walkSymbol, run_bind_ok (run_get s)]
  exact walk_short htrie hp h (by simp only [State.inputLength]; omega)

/-- R175: the decoding loop in two parts. -/
theorem decodeSymbols_add (n k : Nat) : decodeSymbols (n + k) = (do decodeSymbols n; decodeSymbols k) := by
  induction n with
  | zero => simp [decodeSymbols]
  | succ n ih =>
    rw [Nat.succ_add, decodeSymbols, decodeSymbols, ih]
    simp only [bind_assoc]

/-- R175, R207: the decoding loop where the stream ends inside the walk of a later symbol. -/
theorem decodeSymbols_short {n : Nat} (htrie : s.trie = some tr) (hps : ∀ p ∈ ps, p ∈ tr.codes)
    (hq : (x, c ++ b :: d) ∈ tr.codes) (hn : ps.length < n) (h : Remaining s ((ps.flatMap fun p => p.2) ++ c))
    (hroom : s.hasRoom (8 * ps.length)) :
    ∃ t, decodeSymbols n s = .error (.error .underflow 0 s.inLen) t ∧ t.rpos = 8 * s.inLen.toNat ∧
      t.dlen = s.dlen ∧ t.dcount = s.dcount + BitVec.ofNat 32 ps.length ∧
      appended s t (ps.flatMap fun p => msbBits p.1) := by
  obtain ⟨k, rfl⟩ : ∃ k, n = ps.length + (k + 1) := ⟨n - ps.length - 1, by omega⟩
  obtain ⟨v, hrun, hrpos, hdlen, hdcount, happ⟩ := decodeSymbols_ok htrie hps h.upcoming.left hroom
  have hframe := (keeps_decodeSymbols _ _).ok hrun
  obtain ⟨-, hinLen, -⟩ := hframe.fixed.host
  obtain ⟨t, hwalk, ht⟩ := walkSymbol_short ((trie_of_agrees (hframe.parts .nodes (by simp))).trans htrie) hq
    (h.after hframe.fixed hrpos)
  rw [hinLen] at ht
  have hend := frame_setRpos v (8 * s.inLen.toNat)
  have hpos : t.rpos = 8 * s.inLen.toNat := ht ▸ rpos_setRpos v (by have := s.inLen.isLt; omega)
  have hbyte : t.rposByte = s.inLen := by
    rw [(rpos_fields hpos).1, Nat.mul_div_cancel_left _ (by decide), BitVec.ofNat_toNat, BitVec.setWidth_eq]
  refine ⟨t, ?_, hpos, ht ▸ hdlen, ht ▸ hdcount, ?_⟩
  · rw [decodeSymbols_add, run_bind_ok hrun, decodeSymbols, run_bind_error hwalk, hbyte]
  · rw [ht]
    simpa using appended_trans happ (appended_of_frame hend)

end

/-- Settles O37: the walks before the last one end at their leaves, and the last one runs out of bits. -/
theorem decodeKeepsWhatItEmittedBeforeUnderflow : Obligations.DecodeKeepsWhatItEmittedBeforeUnderflow := by
  unfold Obligations.DecodeKeepsWhatItEmittedBeforeUnderflow
  intro s tr ps q m hvalid htrie hps hq hcount hm hcap hend hbits hfits
  have hstart := frame_decoded s s.arg 0
  have hlen : ((ps.flatMap fun p => p.2) ++ q.2.take m).length = (ps.flatMap fun p => p.2).length + m := by
    rw [List.length_append, List.length_take, Nat.min_eq_left hm.le]
  have hrest : Remaining s ((ps.flatMap fun p => p.2) ++ q.2.take m) :=
    ⟨⟨hcap, by rw [hlen]; omega, by rw [hlen]; exact hbits⟩, by rw [hlen]; omega⟩
  have hpath : (q.1, q.2.take m ++ q.2[m] :: q.2.drop (m + 1)) ∈ tr.codes := by
    rw [List.getElem_cons_drop, List.take_append_drop]
    exact hq
  obtain ⟨t, hrun, hrpos, hdlen, hdcount, happ⟩ := decodeSymbols_short
    (s := { s with dlen := s.arg, dcount := 0 }) htrie hps hpath hcount (hrest.of_frame hstart) hfits
  have hframe := (hstart.mono (by simp)).trans ((keeps_decodeSymbols _ _).error hrun).1
  have ht := eq_decoded_of_frame hframe hrpos hdlen (hdcount.trans (BitVec.zero_add _))
  rw [← commandBody_decode_run hvalid] at hrun
  exact ⟨failed t .underflow 0 s.inLen, exec_of_error hrun, congrArg (failed · .underflow 0 s.inLen) ht,
    appended_trans (appended_of_frame hstart) happ⟩

end Sys2Proof.Machine
end

section
/-! PROOFS. How EXPAND ends (R181): with DLEN whole bytes or with an error, and over a unit cut short always with an
error. -/

namespace Sys2Proof.Machine

open Sys2Proof.Claims

/-! ### Whole bytes (R181) -/

section
variable {s t : State}

/-- R101: a byte written moves the packer's position by eight bits. -/
theorem post_writeByte (b : Byte) (s : State) : Post (writeBits b) s
    (fun _ t => t.wpos = s.wpos + 8 ∧ t.dlen = s.dlen ∧ t.dcount = s.dcount) (fun _ _ => True) := by
  obtain ⟨hroom, hrun⟩ | ⟨-, hrun⟩ := writeBits_cases b s
  · obtain ⟨hdlen, hdcount⟩ := ((keeps_writeBits b s).ok hrun).parts .decoded (by simp)
    rw [post_of_ok hrun]
    exact ⟨by rw [pushBits_wpos _ (wpos_lt_of_hasRoom (by simpa using hroom)), length_msbBits], hdlen, hdcount⟩
  · exact (post_of_error hrun).mpr trivial

/-- R175: each symbol decoded is one byte written and one counted. -/
theorem post_decodeSymbols (n : Nat) (s : State) : Post (decodeSymbols n) s
    (fun _ t => t.wpos = s.wpos + 8 * n ∧ t.dlen = s.dlen ∧ t.dcount = s.dcount + BitVec.ofNat 32 n)
    (fun _ _ => True) := by
  induction n generalizing s with
  | zero => simp [decodeSymbols]
  | succ n ih =>
    rw [decodeSymbols, post_bind]
    refine (keeps_walkSymbol s).mono (fun e t ht => ?_) fun _ _ _ => trivial
    obtain ⟨hdlen, hdcount⟩ := ht.parts .decoded (by simp)
    obtain ⟨hout, -, hcnt, -⟩ := ht.parts .output (by simp)
    rw [post_bind]
    refine (post_writeByte e.sym t).mono (fun _ u ⟨hwpos, hdlen', hdcount'⟩ => ?_) fun _ _ _ => trivial
    rw [post_bind, post_modify]
    refine (ih { u with dcount := u.dcount + 1 }).mono (fun _ v ⟨hv, hvlen, hvcount⟩ => ⟨?_, ?_, ?_⟩) fun _ _ h => h
    · have hstart : t.wpos = s.wpos := by simp only [State.wpos, hout, hcnt]
      have hcounted : State.wpos { u with dcount := u.dcount + 1 } = u.wpos := rfl
      omega
    · exact hvlen.trans (hdlen'.trans hdlen)
    · rw [hvcount, hdcount', hdcount, BitVec.add_assoc, Nat.add_comm n, BitVec.ofNat_add]
      rfl

/-- EXPAND behind the trie: the length and the symbols (R180). -/
def decodePayload : Engine Unit := do
  let n ← readBits 32
  modify ({ · with dlen := n })
  decodeSymbols n.toNat

/-- R180: EXPAND reads the trie with DLEN and DCOUNT at 0. -/
theorem expandUnit_eq : expandUnit =
    (do modify ({ · with dlen := 0, dcount := 0 }); deserializeBody; decodePayload) := rfl

/-- R180, R181: EXPAND that ends well has written DLEN bytes and counted them. -/
theorem post_expandUnit (s : State) : Post expandUnit s
    (fun _ t => t.wpos = s.wpos + 8 * t.dlen.toNat ∧ t.dcount = t.dlen) (fun _ _ => True) := by
  rw [expandUnit_eq, post_bind, post_modify, post_bind]
  refine (keeps_deserializeBody _).mono (fun _ t ht => ?_) fun _ _ _ => trivial
  rw [decodePayload, post_bind]
  refine (keeps_readBits 32 t).mono (fun n u hu => ?_) fun _ _ _ => trivial
  obtain ⟨hout, -, hcnt, -⟩ := agrees_trans (ht.parts .output (by simp)) (hu.parts .output (by simp))
  obtain ⟨-, hdcount⟩ := agrees_trans (ht.parts .decoded (by simp)) (hu.parts .decoded (by simp))
  rw [post_bind, post_modify]
  refine (post_decodeSymbols n.toNat { u with dlen := n }).mono (fun _ v ⟨hv, hvlen, hvcount⟩ => ⟨?_, ?_⟩)
    fun _ _ h => h
  · have hstart : State.wpos { u with dlen := n } = s.wpos := by simp only [State.wpos, hout, hcnt]
    rw [hv, hstart, hvlen]
  · rw [hvcount, hdcount, BitVec.ofNat_toNat, BitVec.setWidth_eq, hvlen]
    exact BitVec.zero_add n

/-- R33, R35: a position of n bytes is OUT_LEN = n with no bit pending. -/
theorem outLen_of_wpos {n : Word} (h : s.wpos = 8 * n.toNat) : s.outLen = n ∧ s.wcnt = 0 := by
  have hlt := s.wcnt.isLt
  rw [State.wpos] at h
  exact ⟨BitVec.eq_of_toNat_eq (by omega), BitVec.eq_of_toNat_eq (show s.wcnt.toNat = 0 by omega)⟩

end

/-- Settles O39: EXPAND that ends well has written DLEN whole bytes to an empty packer; a raise leaves DONE at 0. -/
theorem expandEndsWholeOrWithErr : Obligations.ExpandEndsWholeOrWithErr := by
  unfold Obligations.ExpandEndsWholeOrWithErr
  intro s t hdone herr h
  obtain ⟨u, hrun, rfl⟩ | ⟨e, sub, info, u, hrun, rfl⟩ := exec_next h
  · obtain ⟨-, -, herr', -⟩ := ((keeps_commandBody s .expand s).ok hrun).fixed.status
    obtain ⟨hwpos, hdcount⟩ := (post_expandUnit _).ok hrun
    have hempty : ((s.setRpos 0).resetPacker).wpos = 0 := rfl
    rw [hempty, Nat.zero_add] at hwpos
    obtain ⟨hout, hcnt⟩ := outLen_of_wpos hwpos
    exact .inl ⟨rfl, herr'.trans herr, hout, hdcount, hcnt⟩
  · obtain ⟨-, hdone', -⟩ := ((keeps_commandBody s .expand s).error hrun).1.fixed.status
    exact .inr ⟨hdone'.trans hdone, rfl⟩

/-! ### A unit cut short (R181) -/

/-- A cut of a sequence of parts lies inside one of them. -/
theorem exists_cut_of_lt_flatMap {α ι : Type} {g : ι → List α} {l : List ι} {k : Nat}
    (h : k < (l.flatMap g).length) : ∃ l₁ x l₂ j, l = l₁ ++ x :: l₂ ∧ j < (g x).length ∧
      (l.flatMap g).take k = l₁.flatMap g ++ (g x).take j := by
  induction l generalizing k with
  | nil => simp at h
  | cons x l ih =>
    rw [List.flatMap_cons, List.length_append] at h
    rw [List.flatMap_cons]
    obtain hx | hx := Nat.lt_or_ge k (g x).length
    · exact ⟨[], x, l, k, rfl, hx, by rw [List.take_append_of_le_length hx.le]; rfl⟩
    · obtain ⟨l₁, y, l₂, j, rfl, hj, hcut⟩ := ih (k := k - (g x).length) (by omega)
      refine ⟨x :: l₁, y, l₂, j, rfl, hj, ?_⟩
      rw [List.take_append, List.take_of_length_le hx, hcut, List.flatMap_cons, List.append_assoc]

/-- x raises CORRUPT_TRIE or UNDERFLOW from s. -/
def EndsCut (x : Engine Unit) (s : State) : Prop :=
  ∃ e sub info t, x s = .error (.error e sub info) t ∧ (e = .corruptTrie ∨ e = .underflow)

section
variable {s t : State} {tr : Trie} {n : Word} {ps : List (Byte × List Bool)} {c : Nat}

/-- R172: DESERIALIZE of a trie cut short. -/
theorem endsCut_deserializeBody (hnodup : tr.leaves.Nodup) (hc : c < tr.bits.length)
    (h : Remaining s (tr.bits.take c)) : EndsCut deserializeBody s := by
  have hbits : tr.bits = tr.fields.flatMap id := by rw [List.flatMap_id, Trie.flatten_fields]
  rw [hbits] at hc h
  obtain ⟨read, f, rest, j, hsplit, hj, hcut⟩ := exists_cut_of_lt_flatMap hc
  rw [hcut, List.flatMap_id, id_eq] at h
  have hlast := h.last
  rw [List.length_append, List.length_take] at hlast
  rw [id_eq] at hj
  obtain ⟨q, t, -, hrun⟩ := deserialize_endsShort tr hsplit hnodup h.upcoming.left (by omega)
  exact ⟨_, _, _, _, deserializeBody_error hrun, .inl rfl⟩

/-- R100, R176: the length or the codes cut short. -/
theorem endsCut_decodePayload (htrie : s.trie = some tr) (hps : ∀ p ∈ ps, p ∈ tr.codes) (hcount : ps.length = n.toNat)
    (hc : c < (msbBits n ++ ps.flatMap fun p => p.2).length)
    (h : Remaining s ((msbBits n ++ ps.flatMap fun p => p.2).take c)) (hroom : s.hasRoom (8 * ps.length)) :
    EndsCut decodePayload s := by
  obtain hlen | hlen := Nat.lt_or_ge c 32
  · have hshort : ¬s.hasBits 32 := h.not_hasBits (by rw [List.length_take]; omega)
    exact ⟨_, _, _, _, run_bind_error (readBits_underflow hshort), .inr rfl⟩
  · rw [List.length_append, length_msbBits] at hc
    rw [List.take_append, List.take_of_length_le (by rwa [length_msbBits]), length_msbBits] at h
    obtain ⟨done, ⟨x, code⟩, rest, j, rfl, hj, hcut⟩ := exists_cut_of_lt_flatMap (k := c - 32)
      (g := fun p : Byte × List Bool => p.2) (l := ps) (by omega)
    rw [hcut] at h
    have hread := frame_setRpos s (s.rpos + 32)
    have hpos : (s.setRpos (s.rpos + 32)).rpos = s.rpos + 32 := by simpa using setRpos_rpos h.upcoming.left
    have hrun := readBits_of_upcoming n h.upcoming.left
    have hcodes := h.after hread.fixed (by rw [hpos, length_msbBits])
    generalize s.setRpos (s.rpos + 32) = u at hread hpos hrun hcodes
    have hset := frame_decoded u n u.dcount
    have hbefore : Frame [.rpos, .decoded] s { u with dlen := n } := (hread.mono (by simp)).trans (hset.mono (by simp))
    have hpath : (x, code.take j ++ code[j] :: code.drop (j + 1)) ∈ tr.codes := by
      rw [List.getElem_cons_drop, List.take_append_drop]
      exact hps _ (by simp)
    rw [List.length_append, List.length_cons] at hcount hroom
    obtain ⟨t, hdecode, -⟩ := decodeSymbols_short (n := n.toNat)
      ((trie_of_agrees (hbefore.parts .nodes (by simp))).trans htrie) (fun p hp => hps p (by simp [hp])) hpath
      (by omega) (hcodes.of_frame hset) (hasRoom_mono (by omega) (hasRoom_of_frame hbefore hroom))
    exact ⟨_, _, _, t, (run_bind_ok hrun).trans ((run_bind_ok (run_modify _ u)).trans hdecode), .inr rfl⟩

/-- R181: EXPAND over a unit cut short, from RPOS and OUT_LEN as they are. -/
theorem endsCut_expandUnit (hnodup : tr.leaves.Nodup) (hps : ∀ p ∈ ps, p ∈ tr.codes) (hcount : ps.length = n.toNat)
    (hc : c < (tr.bits ++ (msbBits n ++ ps.flatMap fun p => p.2)).length)
    (h : Remaining s ((tr.bits ++ (msbBits n ++ ps.flatMap fun p => p.2)).take c))
    (hroom : s.hasRoom (8 * ps.length)) : EndsCut expandUnit s := by
  have hzero := frame_decoded s 0 0
  replace h := h.of_frame hzero
  rw [expandUnit_eq, EndsCut, run_bind_ok (run_modify _ s)]
  obtain htrie | htrie := Nat.lt_or_ge c tr.bits.length
  · rw [List.take_append_of_le_length htrie.le] at h
    obtain ⟨e, sub, info, t, hrun, he⟩ := endsCut_deserializeBody hnodup htrie h
    exact ⟨e, sub, info, t, run_bind_error hrun, he⟩
  · rw [List.length_append] at hc
    rw [List.take_append, List.take_of_length_le htrie] at h
    obtain ⟨t, hparse, hrpos, hstored, -⟩ := deserializeBody_ok hnodup h.upcoming.left
    have hparsed := (keeps_deserializeBody _).ok hparse
    rw [run_bind_ok hparse]
    exact endsCut_decodePayload hstored hps hcount (by omega) (h.after hparsed.fixed hrpos)
      (hasRoom_of_frame hparsed (hasRoom_of_frame hzero hroom))

/-- The bits of the first k bytes. -/
theorem flatMap_msbBits_take (l : List Byte) (k : Nat) :
    (l.take k).flatMap msbBits = (l.flatMap msbBits).take (8 * k) := by
  induction l generalizing k with
  | nil => simp
  | cons b l ih =>
    cases k with
    | zero => rfl
    | succ k =>
      have hb : (msbBits b).take (8 * k + 8) = msbBits b := List.take_of_length_le (by rw [length_msbBits]; omega)
      rw [List.take_succ_cons, List.flatMap_cons, List.flatMap_cons, ih, Nat.mul_succ, List.take_append, hb,
        length_msbBits, Nat.add_sub_cancel]

theorem remaining_of_inBytes (hcap : s.inLen.toNat ≤ s.capIn.toNat) (hrpos : s.rpos = 0) :
    Remaining s (s.inBytes.flatMap msbBits) :=
  ⟨upcoming_of_inBytes hcap hrpos, by rw [hrpos, ← streamBits_inBytes, length_streamBits, Nat.zero_add]⟩

/-- R206, R207: a command that ends with DONE, which was 0, ran its body to the end. -/
theorem ok_of_done {i : Instr} (hdone : s.done = false) (h : exec i s = .next t) (ht : t.done = true) :
    ∃ u, commandBody s i s = .ok () u ∧ t = finished u := by
  obtain hok | ⟨e, sub, info, u, hrun, rfl⟩ := exec_next h
  · exact hok
  · obtain ⟨-, hkept, -⟩ := ((keeps_commandBody s i s).error hrun).1.fixed.status
    exact absurd ((hkept.trans hdone).symm.trans ht) (by decide)

/-- R160: a COMPRESS of an empty input that ends with DONE has written the sentinel unit. -/
theorem outBytes_of_compress_empty (hlen : s.inLen = 0) (hdone : s.done = false) (hexec : exec .compress s = .next t)
    (ht : t.done = true) : t.outBytes = [0x80, 0x00, 0x00, 0x00, 0x00, 0x00] := by
  obtain ⟨u, hrun, rfl⟩ := ok_of_done hdone hexec ht
  have hmode : s.emptyMode = false := by
    by_contra hmode
    have hraise : commandBody s .compress s = _ :=
      (compressBody_run s).trans (if_pos ⟨hlen, Bool.of_not_eq_false hmode⟩)
    cases hraise.symm.trans hrun
  have hunit := (compressBody_run_of_empty hlen hmode).symm.trans hrun
  obtain hcap | hcap := Nat.lt_or_ge s.capOut.toNat 6
  · obtain ⟨v, hraise, -⟩ := writeSentinel_overflow hcap
    cases hraise.symm.trans hunit
  · obtain ⟨v, hok, -, hout, -⟩ := writeSentinel_ok hcap
    cases hok.symm.trans hunit
    exact hout

/-- R66, R155, R160: the unit that a COMPRESS with DONE has written ends in its last byte. -/
theorem unit_of_compress (hcap : s.inLen.toNat ≤ s.capIn.toNat) (hdone : s.done = false)
    (hexec : exec .compress s = .next t) (ht : t.done = true) :
    ∃ (tr : Trie) (ps : List (Byte × List Bool)) (pad : List Bool), tr.leaves.Nodup ∧ (∀ p ∈ ps, p ∈ tr.codes) ∧
      ps.length = s.inLen.toNat ∧ pad.length < 8 ∧
      t.outBytes.flatMap msbBits = (tr.bits ++ (msbBits s.inLen ++ ps.flatMap fun p => p.2)) ++ pad := by
  by_cases hlen : s.inLen = 0
  · have hunit : ([0x80, 0x00, 0x00, 0x00, 0x00, 0x00] : List Byte).flatMap msbBits =
        sentinelBits ++ List.replicate 7 false := by decide
    refine ⟨.leaf 0, [], List.replicate 7 false, by simp [Trie.leaves], by simp, by simp [hlen], by simp, ?_⟩
    rw [outBytes_of_compress_empty hlen hdone hexec ht, hunit, hlen, List.flatMap_nil, List.append_nil]
    rfl
  · obtain ⟨-, -, w, t', tr, bits, -, -, -, -, -, hnodup, hmem, hcodes, hbits, -, h, hfits, hover, -⟩ :=
      compressWritesTheUnit s hlen hcap
    obtain rfl : t' = t := Host.Outcome.next.inj (h.symm.trans hexec)
    have hroom : bits.length ≤ 8 * s.capOut.toNat := by
      by_contra hfull
      rw [(hover (Nat.not_le.mp hfull)).1] at ht
      exact absurd (hdone.symm.trans ht) (by decide)
    obtain ⟨-, -, hout, -⟩ := hfits hroom
    refine ⟨tr, s.inBytes.map fun b => (b, w.code b), _, hnodup, fun p hp => ?_, by simp, ?_,
      hout.trans (congrArg (· ++ _) ?_)⟩
    · obtain ⟨b, hb, rfl⟩ := List.mem_map.mp hp
      exact mem_codes_of_mem_leaves hcodes ((hmem b).mpr hb)
    · rw [List.length_replicate]
      exact Nat.mod_lt _ (by decide)
    · rw [hbits, List.flatMap_map, List.append_assoc]

end

/-- Settles O41: the cut lies inside the trie, the length or a code, and each of them ends EXPAND with its error. -/
theorem truncatedUnitDoesNotExpand : Obligations.TruncatedUnitDoesNotExpand := by
  unfold Obligations.TruncatedUnitDoesNotExpand
  intro s t u k hcap hdone hexec ht hk hbytes hcapIn hroom
  obtain ⟨tr, ps, pad, hnodup, hps, hcount, hpad, hunit⟩ := unit_of_compress hcap hdone hexec ht
  have hlen := congrArg List.length hunit
  have hwhole : (t.outBytes.flatMap msbBits).length = 8 * t.outLen.toNat := by
    simp [List.length_flatMap, Nat.mul_comm]
  rw [hwhole, List.length_append] at hlen
  have hin : Remaining (u.setRpos 0).resetPacker (u.inBytes.flatMap msbBits) := remaining_of_inBytes hcapIn rfl
  rw [hbytes, flatMap_msbBits_take, hunit, List.take_append_of_le_length (by omega)] at hin
  obtain ⟨e, sub, info, v, hrun, he⟩ := endsCut_expandUnit hnodup hps hcount (by omega) hin
    (show 0 + (0 + 8 * ps.length) / 8 ≤ u.capOut.toNat by omega)
  obtain ⟨-, hkept, -⟩ := ((keeps_expandUnit _).error hrun).1.fixed.status
  exact ⟨failed v e sub info, exec_of_error hrun, rfl, hkept, he⟩

end Sys2Proof.Machine
end

section
/-! PROOFS. The control commands (R190, R191): the body of NOP is empty, and that of CLEAR is one assignment. -/

namespace Sys2Proof.Machine

/-- Settles O11: a body without a statement leaves completion alone. -/
theorem nopOnlyCompletes : Obligations.NopOnlyCompletes := by
  unfold Obligations.NopOnlyCompletes
  intro s
  exact exec_of_ok (run_pure () s)

/-- R191: CLEAR's operations taken together assign the stated values and no other field. -/
theorem cleared_eq (s : State) : s.cleared = { s with
    freq := Vector.replicate 256 0
    codeLen := Vector.replicate 256 { present := false, len := 0 }
    codeBits := Vector.replicate 256 (Vector.replicate 8 0)
    node := Vector.replicate 511 { leaf := false, left := 0, right := 0, sym := 0, freq := 0 }
    freqValid := false, trieValid := false, codesValid := false, haz := false
    root := 0, nnodes := 0, nleaves := 0, rposByte := 0, rposBit := 0
    outLen := 0, wacc := 0, wcnt := 0, result := 0, dlen := 0, dcount := 0 } := by
  simp [State.cleared]

/-- Settles O12: the assignment writes the stated fields, and completion follows it. -/
theorem clearZeroesTheWorkingState : Obligations.ClearZeroesTheWorkingState := by
  unfold Obligations.ClearZeroesTheWorkingState
  intro s
  rw [← cleared_eq s]
  exact exec_clear s

end Sys2Proof.Machine
end

section
/-! PROOFS. The life of a command as STATUS shows it: a CMD write with BUSY = 0 issues it (R204), a write that would disturb
it while BUSY = 1 is dropped with HAZ (R209, R240), and it ends with exactly one of DONE and ERR (R205, R206, R208). -/

namespace Sys2Proof.Machine

/-- Settles O10: `exec_status` from DONE = ERR = 0; no command raises the code NO_ERROR, so ERR comes with a real one. -/
theorem everyCommandEndsDoneOrErr : Obligations.EveryCommandEndsDoneOrErr := by
  unfold Obligations.EveryCommandEndsDoneOrErr
  intro i s t hdone herr h
  obtain ⟨hpend, ⟨ht, hkept, hrest⟩ | ⟨hkept, ht, hcode⟩⟩ := exec_status h
  · exact ⟨hpend, .inl ⟨ht, hkept.trans herr, hrest⟩⟩
  · exact ⟨hpend, .inr ⟨hkept.trans hdone, ht, ne_of_mem_of_not_mem hcode (noError_notMem_mayRaise i)⟩⟩

/-- Settles O9: CMD is a guarded register, and with nothing pending its guard lets the issue through. -/
theorem cmdWriteIssuesTheCommand : Obligations.CmdWriteIssuesTheCommand := by
  unfold Obligations.CmdWriteIssuesTheCommand
  intro s rest v h hidle
  have hidle' : State.pending { s with schedule := rest } = none := hidle
  rw [step_of_regWrite (.reg .cmd) h rfl, State.writeTarget, unlessBusy_idle _ hidle']
  exact ⟨_, rfl, rfl, rfl⟩

section
variable {s : State} {rest : List Event}

/-- R240: the four registers whose writes are guarded. -/
theorem writeTarget_busy {r : Reg} (v : Word) (hr : r ∈ [.cmd, .ctrl, .arg, .inLen]) (hbusy : s.pending.isSome = true) :
    s.writeTarget v (.reg r) = s.setHaz := by
  simp only [List.mem_cons, List.not_mem_nil, or_false] at hr
  obtain rfl | rfl | rfl | rfl := hr
  all_goals exact unlessBusy_busy _ hbusy

/-- R240: a busy write to a guarded register. -/
theorem step_of_busy_regWrite {off : BitVec 16} {v : Word} (r : Reg) (hr : r ∈ [.cmd, .ctrl, .arg, .inLen])
    (hoff : regOffset r = off.toNat) (hbusy : s.pending.isSome = true)
    (h : s.schedule = .host (.regWrite off v) :: rest) : step s = .next { s with schedule := rest, haz := true } :=
  (step_of_regWrite (.reg r) h hoff).trans
    (congrArg _ (writeTarget_busy (s := { s with schedule := rest }) v hr hbusy))

/-- R240: a busy write to a byte that IBUF has. -/
theorem ibufWrite_busy {a : Nat} (b : Byte) (hbusy : s.pending.isSome = true) (ha : a < s.capIn.toNat) :
    s.ibufWrite a b = s.setHaz := by
  rw [State.ibufWrite, if_pos ha, unlessBusy_busy _ hbusy]

end

/-- Settles O54: each of the four offsets names a guarded register, and an IBUF byte below the capacity is guarded too. -/
theorem busyWriteIsDroppedWithHaz : Obligations.BusyWriteIsDroppedWithHaz := by
  unfold Obligations.BusyWriteIsDroppedWithHaz
  intro s rest v hbusy
  refine ⟨fun off hoff h => ?_, fun a b ha h => ?_⟩
  · simp only [List.mem_cons, List.not_mem_nil, or_false] at hoff
    obtain rfl | rfl | rfl | rfl := hoff
    · exact step_of_busy_regWrite .cmd (by simp) rfl hbusy h
    · exact step_of_busy_regWrite .ctrl (by simp) rfl hbusy h
    · exact step_of_busy_regWrite .arg (by simp) rfl hbusy h
    · exact step_of_busy_regWrite .inLen (by simp) rfl hbusy h
  · exact (step_of_host h).trans (congrArg _ (ibufWrite_busy (s := { s with schedule := rest }) b hbusy ha))

end Sys2Proof.Machine
end

section
/-! PROOFS. The reset input (R230 to R232): one step, whatever is pending. -/

namespace Sys2Proof.Machine

/-- R230: where the reset input moves next, a step is the reset. -/
theorem step_of_reset {s : State} {rest : List Event} (h : s.schedule = .reset :: rest) :
    step s = .next { s with schedule := rest }.hardReset := by
  simp only [step, h]

/-- Settles O2: a reset keeps the capacities and the HOST's side, and everything else is as after a reset. -/
theorem resetDiscardsThePendingCommand : Obligations.ResetDiscardsThePendingCommand := by
  unfold Obligations.ResetDiscardsThePendingCommand
  intro s rest h
  exact ⟨_, step_of_reset h, rfl, rfl, rfl, rfl, rfl⟩

end Sys2Proof.Machine
end

section
/-! PROOFS. A command word always completes (R205, R206, R250): over a state that meets the invariant no body reads
past IBUF or the node store, and no traversal goes deeper than R51 allows, so no step stops the model. -/

namespace Sys2Proof.Machine

open Sys2Proof.Claims

/-! ### Statements that do not stop the model -/

section
variable {α β : Type} {x : Engine α} {k : α → Engine β} {s t : State}

/-- From s, x ends well or raises (R11): it does not stop the model. -/
def NoStop (x : Engine α) (s : State) : Prop := ∀ f t, x s ≠ .error (.stop f) t

theorem noStop_of_ok {a : α} (h : x s = .ok a t) : NoStop x s := by
  simp [NoStop, h]

theorem noStop_of_error {e : ErrCode} {sub : BitVec 4} {info : Word} (h : x s = .error (.error e sub info) t) :
    NoStop x s := by
  simp [NoStop, h]

theorem noStop_congr {y : Engine α} (h : x s = y t) : NoStop x s ↔ NoStop y t := by
  rw [NoStop, NoStop, h]

theorem NoStop.bind (hx : NoStop x s) (hk : ∀ a t, x s = .ok a t → NoStop (k a) t) : NoStop (x >>= k) s := by
  intro f u h
  obtain hstop | ⟨a, t, hrun, hstop⟩ := bind_error_inv h
  · exact hx f u hstop
  · exact hk a t hrun f u hstop

/-- Behind a first statement whose end is known the second decides. -/
theorem noStop_bind_ok {a : α} (h : x s = .ok a t) : NoStop (x >>= k) s ↔ NoStop (k a) t :=
  noStop_congr (run_bind_ok h)

/-- The two branches of a test. -/
theorem noStop_ite {c : Prop} [Decidable c] {y : Engine α} (hx : c → NoStop x s) (hy : ¬c → NoStop y s) :
    NoStop (if c then x else y) s := by
  split
  · exact hx ‹_›
  · exact hy ‹_›

/-- A loop whose passes keep an invariant and do not stop under it. -/
theorem noStop_forM {ι : Type} {f : ι → Engine PUnit} {I : State → Prop} (l : List ι)
    (hf : ∀ i ∈ l, ∀ s, I s → NoStop (f i) s ∧ ∀ t, f i s = .ok ⟨⟩ t → I t) (hs : I s) : NoStop (l.forM f) s := by
  induction l generalizing s with
  | nil => exact noStop_of_ok (run_pure _ s)
  | cons i l ih =>
    obtain ⟨hpass, hkeep⟩ := hf i List.mem_cons_self s hs
    rw [List.forM_eq_forM, List.forM_cons]
    exact hpass.bind fun _ t hrun => ih (fun j hj => hf j (List.mem_cons_of_mem _ hj)) (hkeep t hrun)

/-- A body behind a prerequisite check runs only where the check holds (R48). -/
theorem noStop_check {need : Engine Unit} {body : Unit → Engine Unit} {valid : Bool} {e : ErrCode} {sub : BitVec 4}
    {info : Word} (hneed : need s = if valid then .ok () s else .error (.error e sub info) s)
    (hbody : valid = true → NoStop (body ()) s) : NoStop (need >>= body) s := by
  cases valid with
  | false => exact noStop_of_error (run_bind_error hneed)
  | true => exact (noStop_bind_ok hneed).mpr (hbody rfl)

theorem noStop_of_emits {x : Engine PUnit} {bits : List Bool} (h : Emits x s bits) : NoStop x s := by
  obtain ⟨-, hrun⟩ | ⟨-, kept, -, -, hrun⟩ := h
  · exact noStop_of_ok hrun
  · exact noStop_of_error hrun

/-- R85, R205, R206: a command answers a next state exactly where its body does not stop. -/
theorem noStop_commandBody_iff {i : Instr} : NoStop (commandBody s i) s ↔ ∃ t, exec i s = .next t := by
  constructor
  · intro h
    cases hrun : commandBody s i s with
    | ok a t => exact ⟨_, exec_of_ok hrun⟩
    | error r t =>
      cases r with
      | error e sub info => exact ⟨_, exec_of_error hrun⟩
      | stop f => exact absurd hrun (h f t)
  · rintro ⟨t, h⟩
    obtain ⟨u, hrun, -⟩ | ⟨e, sub, info, u, hrun, -⟩ := exec_next h
    · exact noStop_of_ok hrun
    · exact noStop_of_error hrun

end

/-! ### The primitives (R100 to R102) -/

section
variable {s t : State}

theorem noStop_writeBits {n : Nat} (v : BitVec n) (s : State) : NoStop (writeBits v) s := by
  obtain ⟨-, hrun⟩ | ⟨-, hrun⟩ := writeBits_cases v s
  · exact noStop_of_ok hrun
  · exact noStop_of_error hrun

theorem noStop_flushBits (s : State) : NoStop flushBits s := by
  obtain ⟨-, hrun⟩ | ⟨-, -, hrun⟩ | ⟨-, -, hrun⟩ := flushBits_cases s
  · exact noStop_of_ok hrun
  · exact noStop_of_error hrun
  · exact noStop_of_ok hrun

/-- R32, R60: the input lies in IBUF, and no command body changes that. -/
theorem inLen_le_of_sameHostSide (h : SameHostSide s t) (hin : s.inLen.toNat ≤ s.capIn.toNat) :
    t.inLen.toNat ≤ t.capIn.toNat := by
  obtain ⟨-, hlen, -, -, -, -, -, -, hcap, -⟩ := h.host
  rwa [hlen, hcap]

theorem noStop_readBits (n : Nat) (hin : s.inLen.toNat ≤ s.capIn.toNat) : NoStop (readBits n) s := by
  by_cases h : s.hasBits n
  · exact noStop_of_ok (readBits_ok h hin)
  · exact noStop_of_error (readBits_underflow h)

theorem noStop_trieRead (n : Nat) (hin : s.inLen.toNat ≤ s.capIn.toNat) : NoStop (trieRead n) s := by
  by_cases h : s.hasBits n
  · exact (noStop_congr (trieRead_ok h)).mpr (noStop_readBits n hin)
  · exact noStop_of_error (trieRead_short h)

theorem noStop_readToResult (n : Nat) (hin : s.inLen.toNat ≤ s.capIn.toNat) : NoStop (readToResult n) s :=
  (noStop_readBits n hin).bind fun _ t _ => noStop_of_ok (run_modify _ t)

/-! ### The encoder's bodies -/

/-- R132: a BUILD without a present byte value raises, and any other makes its trie. -/
theorem noStop_buildBody (s : State) : NoStop buildBody s := by
  rw [buildBody_eq, noStop_bind_ok (run_modify _ s)]
  by_cases h : s.dropTrie.presentBytes = []
  · exact noStop_of_error (buildTrie_empty h)
  · obtain ⟨t, -, hrun, -⟩ := buildTrie_ok h
    exact noStop_of_ok hrun

/-- R150: a pass needs its input byte alone; a byte without a code raises. -/
theorem noStop_encodeByte {i : Nat} (hi : i < s.capIn.toNat) : NoStop (encodeByte i) s := by
  rw [encodeByte, noStop_bind_ok (ibufRead_ok hi), noStop_bind_ok (run_get s)]
  refine noStop_ite (fun _ => ?_) fun _ => noStop_of_error (run_raise _ _ _ s)
  exact noStop_forM (I := fun _ => True) _ (fun _ _ t _ => ⟨noStop_writeBits _ t, fun _ _ => trivial⟩) trivial

theorem noStop_encodeBody (hin : s.inLen.toNat ≤ s.capIn.toNat) : NoStop encodeBody s := by
  rw [encodeBody, noStop_bind_ok (run_get s)]
  refine noStop_forM (I := fun t => t.capIn = s.capIn) _ (fun i hi t ht => ⟨?_, fun u hrun => ?_⟩) rfl
  · exact noStop_encodeByte (ht ▸ (List.mem_range.mp hi).trans_le hin)
  · obtain ⟨-, -, -, -, -, -, -, -, hcap, -⟩ := ((keeps_encodeByte i t).ok hrun).fixed.host
    exact hcap.trans ht

/-- R155: COMPRESS answers a next state over every input that lies in IBUF. -/
theorem exec_compress_next (hin : s.inLen.toNat ≤ s.capIn.toNat) : ∃ t, exec .compress s = .next t := by
  by_cases hne : s.inLen = 0
  · obtain ⟨hraise, hfits, hover⟩ := compressOfAnEmptyInput s hne
    cases hmode : s.emptyMode with
    | true => exact ⟨_, hraise hmode⟩
    | false =>
      obtain hroom | hroom := Nat.lt_or_ge s.capOut.toNat 6
      · exact (hover hmode hroom).imp fun _ h => h.1
      · exact (hfits hmode hroom).imp fun _ h => h.1
  · obtain ⟨-, -, -, t, -, -, -, -, -, -, -, -, -, -, -, -, h, -⟩ := compressWritesTheUnit s hne hin
    exact ⟨t, h⟩

/-! ### The decoder's bodies -/

theorem noStop_readLeaf (p : Parse) (hin : s.inLen.toNat ≤ s.capIn.toNat) : NoStop (readLeaf p) s := by
  refine (noStop_trieRead 8 hin).bind fun b t _ => ?_
  rw [noStop_bind_ok (run_get t)]
  refine noStop_ite (fun _ => noStop_of_error (run_raise _ _ _ t)) fun _ => ?_
  exact noStop_of_ok ((run_bind_ok (run_set _ t)).trans (run_pure _ _))

/-- R173: the limit on internal nodes is reached before the depth of R51 is used up. -/
theorem noStop_deserializeNode (fuel : Nat) {p : Parse} (hp : ParseInv p s)
    (hfuel : Config.maxInternal < fuel + p.ni) (hin : s.inLen.toNat ≤ s.capIn.toNat) :
    NoStop (deserializeNode fuel p) s := by
  induction fuel generalizing p s with
  | zero => exact absurd hp.ni_le (by omega)
  | succ fuel ih =>
    refine (noStop_trieRead 1 hin).bind fun m t hread => ?_
    have hframe := (keeps_trieRead 1 s).ok hread
    have hin := inLen_le_of_sameHostSide hframe.fixed hin
    have hp := hp.of_agrees (hframe.parts .nodes (by simp))
    refine noStop_ite (fun _ => noStop_readLeaf p hin) fun _ => ?_
    rw [noStop_bind_ok (run_get t)]
    refine noStop_ite (fun _ => noStop_of_error (run_raise _ _ _ t)) fun hni => ?_
    rw [noStop_bind_ok (run_set _ t)]
    have hp' := (hp.internal (e := internalNode 0 0 0) hni).2
    have hin' := inLen_le_of_sameHostSide (frame_allocate t (internalNode 0 0 0)).fixed hin
    refine (ih hp' (by simp only; omega) hin').bind fun ⟨i, p1⟩ v hleft => ?_
    obtain ⟨l, hl⟩ := (post_deserializeNode fuel hp').ok hleft
    have hlni := hl.ni
    have hleaves := l.height_lt_length_leaves
    have hinv := inLen_le_of_sameHostSide ((keeps_deserializeNode fuel _ _).ok hleft).fixed hin'
    rw [noStop_bind_ok (run_modify _ v)]
    refine (ih (hl.inv.of_counts (by simp) (by simp)) (by simp only at *; omega) (by simpa using hinv)).bind
      fun ⟨j, p2⟩ w _ => ?_
    exact noStop_of_ok ((run_bind_ok (run_modify _ w)).trans (run_pure _ _))

theorem noStop_deserializeBody (hin : s.inLen.toNat ≤ s.capIn.toNat) : NoStop deserializeBody s := by
  rw [deserializeBody_eq, noStop_bind_ok (run_modify _ s)]
  refine (noStop_deserializeNode _ (parseInv_dropTrie s) (by decide) (by simpa using hin)).bind fun _ t _ => ?_
  exact noStop_of_ok (run_modify _ t)

/-- R170: DESERIALIZE that ends well leaves a trie. -/
theorem post_deserializeBody_trie (s : State) :
    Post deserializeBody s (fun _ t => ∃ tr, t.trie = some tr) (fun _ _ => True) := by
  rw [deserializeBody_eq, post_bind, post_modify]
  exact (post_readTrie (by simp) (by simp)).mono (fun _ _ ⟨tr, htrie, _⟩ => ⟨tr, htrie.trie⟩) fun _ _ _ => trivial

/-- R176, R177: the walk stays in the trie, and each pass but the last takes a bit of the stream. -/
theorem noStop_walk {depth fuel i : Nat} {tr : Trie} (htrie : trieAt s.node depth i = some tr)
    (hfuel : 8 * s.inLen.toNat - s.rpos < fuel) (hin : s.inLen.toNat ≤ s.capIn.toNat) : NoStop (walk fuel i) s := by
  induction depth generalizing s fuel i tr with
  | zero => simp [trieAt] at htrie
  | succ depth ih =>
    obtain ⟨fuel, rfl⟩ : ∃ k, fuel = k + 1 := ⟨fuel - 1, by omega⟩
    obtain ⟨e, he, hnode⟩ := trieAt_cases htrie
    rw [walk, noStop_bind_ok (nodeAt_ok he)]
    refine noStop_ite (fun _ => noStop_of_ok (run_pure e s)) fun hinner => ?_
    obtain ⟨hleaf, -⟩ | ⟨-, l, r, -, hl, hr⟩ := hnode
    · exact absurd hleaf hinner
    by_cases hbit : s.hasBits 1
    · have h32 := s.inLen.isLt
      have hrpos : (s.setRpos (s.rpos + 1)).rpos = s.rpos + 1 := rpos_setRpos s (by omega)
      have hfuel' : 8 * s.inLen.toNat - (s.setRpos (s.rpos + 1)).rpos < fuel := by omega
      rw [noStop_bind_ok (readBits_ok hbit hin)]
      split
      · exact ih hl hfuel' hin
      · exact ih hr hfuel' hin
    · exact noStop_of_error (run_bind_error (readBits_underflow hbit))

theorem noStop_walkSymbol {tr : Trie} (htrie : s.trie = some tr) (hin : s.inLen.toNat ≤ s.capIn.toNat) :
    NoStop walkSymbol s := by
  rw [walkSymbol, noStop_bind_ok (run_get s)]
  exact noStop_walk htrie (Nat.lt_succ_self _) hin

/-- R175: decoding changes neither the trie nor the input. -/
theorem noStop_decodeSymbols (n : Nat) {tr : Trie} (htrie : s.trie = some tr)
    (hin : s.inLen.toNat ≤ s.capIn.toNat) : NoStop (decodeSymbols n) s := by
  induction n generalizing s with
  | zero => exact noStop_of_ok (run_pure () s)
  | succ n ih =>
    refine (noStop_walkSymbol htrie hin).bind fun e t hwalk => ?_
    refine (noStop_writeBits e.sym t).bind fun _ u hwrite => ?_
    rw [noStop_bind_ok (run_modify _ u)]
    have hpass : Frame [.rpos, .output, .decoded] s { u with dcount := u.dcount + 1 } :=
      (((keeps_walkSymbol s).ok hwalk).mono (by simp)).trans
        ((((keeps_writeBits e.sym t).ok hwrite).mono (by simp)).trans ((frame_decoded u u.dlen _).mono (by simp)))
    exact ih ((trie_of_agrees (hpass.parts .nodes (by simp))).trans htrie) (inLen_le_of_sameHostSide hpass.fixed hin)

/-- R180: EXPAND decodes with the trie it has just read. -/
theorem noStop_expandBody (hin : s.inLen.toNat ≤ s.capIn.toNat) : NoStop expandBody s := by
  rw [noStop_congr (expandBody_run s), expandUnit_eq, noStop_bind_ok (run_modify _ _)]
  generalize hu : ({ (s.setRpos 0).resetPacker with dlen := 0, dcount := 0 } : State) = u
  have hin : u.inLen.toNat ≤ u.capIn.toNat := by simpa [← hu] using hin
  refine (noStop_deserializeBody hin).bind fun _ v hread => ?_
  obtain ⟨tr, htrie⟩ := (post_deserializeBody_trie u).ok hread
  have hin := inLen_le_of_sameHostSide ((keeps_deserializeBody u).ok hread).fixed hin
  refine (noStop_readBits 32 hin).bind fun n w hlen => ?_
  have hframe := (keeps_readBits 32 v).ok hlen
  have hin : w.inLen.toNat ≤ w.capIn.toNat := inLen_le_of_sameHostSide hframe.fixed hin
  rw [noStop_bind_ok (run_modify _ w)]
  exact noStop_decodeSymbols _ ((trie_of_agrees (hframe.parts .nodes (by simp))).trans htrie) hin

/-! ### Every command, and every step -/

/-- R250: over a state that meets the invariant every command ends. -/
theorem exec_next_of_inv (i : Instr) (hs : s.Inv) : ∃ t, exec i s = .next t := by
  have hin := hs.port.inLen_le
  have hroom : s.hasRoom 0 := by
    have := hs.port.outLen_le
    have := s.wcnt.isLt
    simp only [State.hasRoom]
    omega
  have htrie (hvalid : s.trieValid = true) : ∃ tr, s.trie = some tr ∧ tr.leaves.Nodup := by
    obtain ⟨tr, htrie, hnodup, -⟩ := hs.tables.trie_ok hvalid
    exact ⟨tr, htrie, hnodup⟩
  refine noStop_commandBody_iff.mp ?_
  cases i with
  | nop => exact noStop_of_ok (run_pure () s)
  | clear => exact noStop_of_ok (run_modify _ s)
  | wbit imm8 => exact noStop_writeBits _ s
  | wbyte imm8 => exact noStop_writeBits _ s
  | wint => exact noStop_writeBits _ s
  | flush => exact noStop_flushBits s
  | rbit => exact noStop_readToResult 1 hin
  | rbyte => exact noStop_readToResult 8 hin
  | rint => exact noStop_readToResult 32 hin
  | tabulate =>
    obtain ⟨t, hrun, -⟩ := tabulateBody_ok hin
    exact noStop_of_ok hrun
  | build => exact noStop_check (needFreq_run s) fun _ => noStop_buildBody s
  | derive =>
    refine noStop_check (needTrie_run s) fun hvalid => ?_
    obtain ⟨tr, htr, hnodup⟩ := htrie hvalid
    obtain ⟨t, hrun, -⟩ := deriveBody_ok htr hnodup
    exact noStop_of_ok hrun
  | serialize =>
    refine noStop_check (needTrie_run s) fun hvalid => ?_
    obtain ⟨tr, htr, -⟩ := htrie hvalid
    exact noStop_of_emits (emits_serializeBody htr hroom)
  | encode => exact noStop_check (needCodes_run s) fun _ => noStop_encodeBody hin
  | deserialize => exact noStop_deserializeBody hin
  | decode =>
    refine noStop_check (needTrie_run s) fun hvalid => ?_
    obtain ⟨tr, htr, -⟩ := htrie hvalid
    exact (noStop_bind_ok (run_modify _ s)).mpr (noStop_decodeSymbols _ htr hin)
  | compress => exact noStop_commandBody_iff.mpr (exec_compress_next hin)
  | expand => exact noStop_expandBody hin

/-- R21, R85: the ENGINE rests, runs a command, or reports an illegal word. -/
theorem engineTurn_next_of_inv (hs : s.Inv) : ∃ t, engineTurn s = .next t := by
  cases hpending : s.pending with
  | none => exact ⟨s, by simp [engineTurn, hpending]⟩
  | some w =>
    cases hdecode : decode w with
    | command i => simpa [engineTurn, hpending, hdecode] using exec_next_of_inv i hs
    | illegal c => exact ⟨s.raiseIllegal c w, by simp [engineTurn, hpending, hdecode]⟩

/-- The moves still to come are no part of the invariant. -/
theorem State.Inv.with_schedule (hs : s.Inv) (rest : List Event) : State.Inv { s with schedule := rest } :=
  ⟨hs.port.with_side _ _ rest _, { hs.tables with }⟩

end

/-- Settles O49: an access of the HOST and a reset always give a next state, and so does the ENGINE's turn over a state
that meets the invariant. -/
theorem invariantStatesNeverStop : Obligations.InvariantStatesNeverStop := by
  unfold Obligations.InvariantStatesNeverStop
  intro s hs
  have hturn {rest : List Event} (h : engineNext s rest) : safeStep s := by
    rw [safeStep, step_of_engineNext h]
    exact engineTurn_next_of_inv (hs.with_schedule rest)
  cases h : s.schedule with
  | nil => exact hturn (.inl ⟨h, rfl⟩)
  | cons event rest =>
    cases event with
    | host a => exact ⟨_, step_of_host h⟩
    | engine => exact hturn (.inr h)
    | reset => exact ⟨_, step_of_reset h⟩

end Sys2Proof.Machine
end
